-- ==== Sys2Proof/Word.lean ====
section
/-!
DEFINITION. The word types of RCE: bytes, 32-bit bus and command words, 1024-bit wide values, wide register names.
-/
namespace Sys2Proof

/-- One byte of a buffer, or one entropy byte. -/
abbrev Byte := BitVec 8

/-- One 32-bit bus word or command word (00 R5). -/
abbrev Word := BitVec 32

/-- One value of WIDTH = 1024 bits: a wide register or a key register (00 R5, 10 R30, R36). -/
abbrev Wide := BitVec 1024

/-- The name of a wide register, W0..W15 (10 R30, 30 R152). -/
abbrev WReg := Fin 16

end Sys2Proof
end

