-- ==== Sys2Proof/Syntax.lean ====
section
/-!
DEFINITION. The commands of RCE: one constructor for each row of spec/opcode_table.json (30 R153, R155).
-/
namespace Sys2Proof

/-- A command, with the wide registers it names (30 R153). The implicit operands are fixed by the constructor. -/
inductive Instr where
  /-- No operation (44 R410). -/
  | nop
  /-- `rd`, base, exponent, modulus (40 R201). -/
  | modexp (rd rs1 rs2 rs3 : WReg)
  /-- `rd` receives g, `rd+1` the magnitude of x, `rd+2` that of y; a, b (40 R212). -/
  | egcd (rd rs1 rs2 : WReg)
  /-- `rd`, a, m (40 R221). -/
  | modinv (rd rs1 rs2 : WReg)
  /-- p, q, e (41 R250). -/
  | keygen (rs1 rs2 rs3 : WReg)
  /-- n, e, d (41 R260). -/
  | keyload (rs1 rs2 rs3 : WReg)
  /-- Release the key triple (41 R270). -/
  | keyclr
  /-- Build one chunk from IBUF into OBUF (42 R330). -/
  | chunk
  /-- The value to decode into OBUF (42 R315). -/
  | unchunk (rs1 : WReg)
  /-- `rd` receives the value of IBUF's valid bytes (42 R320). -/
  | ldbuf (rd : WReg)
  /-- The value to serialize into a block in OBUF (42 R340). -/
  | stblk (rs1 : WReg)
  /-- Encrypt one chunk of IBUF into OBUF (43 R360). -/
  | encblk
  /-- Decrypt one block of IBUF into OBUF (43 R370). -/
  | decblk
  deriving DecidableEq, Repr

end Sys2Proof
end

