-- ==== Sys2Proof/WellFormed.lean ====
section
/-!
DEFINITION. Which commands have an encoding. A wide register name is in range by its type; the one further check is
EGCD's (30 R154).
-/
namespace Sys2Proof

/-- The most `rd` of EGCD may be, so that `rd+1` and `rd+2` are registers (30 R154). -/
def egcdMaxRd : WReg := 13

/-- A command is well formed when the encoding of spec/ has a word for it: EGCD's `rd` is at most 13 (30 R154). -/
def Instr.wf : Instr → Bool
  | .egcd rd _ _ => decide (rd ≤ egcdMaxRd)
  | .nop | .modexp _ _ _ _ | .modinv _ _ _ | .keygen _ _ _ | .keyload _ _ _ | .keyclr | .chunk | .unchunk _
  | .ldbuf _ | .stblk _ | .encblk | .decblk => true

end Sys2Proof
end

