-- ==== Sys2Proof/Decode.lean ====
section
/-!
DEFINITION. The command decoder (30 R158), total on all 2^32 words and refusing by name, and the encoder (30 R171),
both from the opcode map of 30 R155.
-/
namespace Sys2Proof

/-! ### The opcode map -/

/-- The commands of the opcode map, without operands (30 R155). -/
inductive Op where
  | nop | modexp | egcd | modinv | keygen | keyload | keyclr | chunk | unchunk | ldbuf | stblk | encblk | decblk
  deriving DecidableEq, Repr

/-- One row of the opcode map: the command, its word with every used field at 0, and the mask of its fixed bits. -/
structure Row where
  op   : Op
  word : Word
  mask : Word
  deriving DecidableEq, Repr

/-- The opcode map (30 R155). -/
def opcodeMap : List Row :=
  [⟨.nop,     0x00000000#32, 0xFFFFFFFF#32⟩,
   ⟨.modexp,  0x01000000#32, 0xFF0000FF#32⟩,
   ⟨.egcd,    0x02000000#32, 0xFF000FFF#32⟩,
   ⟨.modinv,  0x03000000#32, 0xFF000FFF#32⟩,
   ⟨.keygen,  0x04000000#32, 0xFFF000FF#32⟩,
   ⟨.keyload, 0x05000000#32, 0xFFF000FF#32⟩,
   ⟨.keyclr,  0x06000000#32, 0xFFFFFFFF#32⟩,
   ⟨.chunk,   0x10000000#32, 0xFFFFFFFF#32⟩,
   ⟨.unchunk, 0x11000000#32, 0xFFF0FFFF#32⟩,
   ⟨.ldbuf,   0x12000000#32, 0xFF0FFFFF#32⟩,
   ⟨.stblk,   0x13000000#32, 0xFFF0FFFF#32⟩,
   ⟨.encblk,  0x20000000#32, 0xFFFFFFFF#32⟩,
   ⟨.decblk,  0x21000000#32, 0xFFFFFFFF#32⟩]

/-! ### Fields -/

/-- The opcode byte, bits 31:24 (30 R151). -/
def opcodeField (w : Word) : Byte := w.extractLsb' 24 8

/-- A 4-bit register field whose lowest bit is `lo`, read as an unsigned index (30 R152). -/
def regField (w : Word) (lo : Nat) : WReg := (w.extractLsb' lo 4).toFin

/-- `rd`, bits 23:20 (30 R151). -/
def rdField (w : Word) : WReg := regField w 20

/-- `rs1`, bits 19:16 (30 R151). -/
def rs1Field (w : Word) : WReg := regField w 16

/-- `rs2`, bits 15:12 (30 R151). -/
def rs2Field (w : Word) : WReg := regField w 12

/-- `rs3`, bits 11:8 (30 R151). -/
def rs3Field (w : Word) : WReg := regField w 8

/-! ### The decoder -/

/-- Why a word is no command. All three reasons complete with the one error code ILLEGAL (30 R158). -/
inductive Illegal where
  /-- The opcode byte stands in no row of the opcode map (30 R157). -/
  | reservedOpcode
  /-- The opcode is defined, and an unused field or bits 7:0 are not 0 (30 R156). -/
  | nonzeroUnused
  /-- EGCD with `rd` 14 or 15 (30 R154). -/
  | egcdDestination
  deriving DecidableEq, Repr

/-- What a command word is: one command, or illegal (30 R158). -/
inductive Decoded where
  | command (i : Instr)
  | illegal (why : Illegal)
  deriving DecidableEq, Repr

/-- The command of a row, with the register fields it uses (30 R153). -/
def buildInstr (op : Op) (rd rs1 rs2 rs3 : WReg) : Instr :=
  match op with
  | .nop => .nop
  | .modexp => .modexp rd rs1 rs2 rs3
  | .egcd => .egcd rd rs1 rs2
  | .modinv => .modinv rd rs1 rs2
  | .keygen => .keygen rs1 rs2 rs3
  | .keyload => .keyload rs1 rs2 rs3
  | .keyclr => .keyclr
  | .chunk => .chunk
  | .unchunk => .unchunk rs1
  | .ldbuf => .ldbuf rd
  | .stblk => .stblk rs1
  | .encblk => .encblk
  | .decblk => .decblk

/-- A row matches a word when the word's fixed bits are the row's (30 R158). -/
def Row.fits (r : Row) (w : Word) : Bool := (w &&& r.mask) == r.word

/-- Why a word that matches no row is illegal (30 R156, R157). -/
def illegalReason (w : Word) : Illegal :=
  if opcodeMap.any (fun r => opcodeField r.word == opcodeField w) then .nonzeroUnused else .reservedOpcode

/-- The decoder: the first row that matches, then EGCD's constraint on `rd` (30 R158). It reads no state (30 R159). -/
def decodeWord (w : Word) : Decoded :=
  match opcodeMap.find? (fun r => r.fits w) with
  | none => .illegal (illegalReason w)
  | some r =>
    let i := buildInstr r.op (rdField w) (rs1Field w) (rs2Field w) (rs3Field w)
    if i.wf then .command i else .illegal .egcdDestination

/-- The command as an option, for a reader that does not ask for the reason. -/
def Decoded.toOption : Decoded → Option Instr
  | .command i => some i
  | .illegal _ => none

/-- The command a word of spec/opcode_table.json stands for: every row has 32 bits, and bits at or above `nbits` are 0 (30 R150). -/
def decodeTableWord (nbits w : Nat) : Option Instr :=
  if nbits ≤ 32 then (decodeWord (BitVec.ofNat 32 (w % 2 ^ nbits))).toOption else none

/-! ### The encoder -/

/-- The concatenation `{op, rd, rs1, rs2, rs3, 0x00}` of 30 R171. -/
def packWord (op : Byte) (rd rs1 rs2 rs3 : WReg) : Word :=
  op ++ BitVec.ofFin (w := 4) rd ++ BitVec.ofFin (w := 4) rs1 ++ BitVec.ofFin (w := 4) rs2 ++
    BitVec.ofFin (w := 4) rs3 ++ 0#8

/-- The word of a command (30 R171); a field the command does not use is 0 (30 R156). -/
def encode : Instr → Word
  | .nop => packWord 0x00#8 0 0 0 0
  | .modexp rd rs1 rs2 rs3 => packWord 0x01#8 rd rs1 rs2 rs3
  | .egcd rd rs1 rs2 => packWord 0x02#8 rd rs1 rs2 0
  | .modinv rd rs1 rs2 => packWord 0x03#8 rd rs1 rs2 0
  | .keygen rs1 rs2 rs3 => packWord 0x04#8 0 rs1 rs2 rs3
  | .keyload rs1 rs2 rs3 => packWord 0x05#8 0 rs1 rs2 rs3
  | .keyclr => packWord 0x06#8 0 0 0 0
  | .chunk => packWord 0x10#8 0 0 0 0
  | .unchunk rs1 => packWord 0x11#8 0 rs1 0 0
  | .ldbuf rd => packWord 0x12#8 rd 0 0 0
  | .stblk rs1 => packWord 0x13#8 0 rs1 0 0
  | .encblk => packWord 0x20#8 0 0 0 0
  | .decblk => packWord 0x21#8 0 0 0 0

end Sys2Proof
end

