-- ==== Sys2Proof/Config.lean ====
section
/-!
DEFINITION. What the implementation fixes (00 R5, R6) and the constant registers. No value of this machine is left
free: the entropy bytes and the schedule are input data held in State (log entry 1).
-/
namespace Sys2Proof.Config

/-- WIDTH, the bits of a wide register, key register or buffer (00 R5). -/
def width : Nat := 1024

/-- NREG, the number of wide registers (00 R5). -/
def nreg : Nat := 16

/-- DATA_MAX, the most data bytes of a chunk (00 R6). -/
def dataMax : Nat := 126

/-- CHUNK_BYTES, the length of a chunk (00 R6). -/
def chunkBytes : Nat := 127

/-- BLOCK_BYTES, the length of a ciphertext block and of each buffer (00 R6). -/
def blockBytes : Nat := 128

/-- P_BITS, the size of each prime of a generated key; the engine does not check it (00 R6). -/
def pBits : Nat := 510

/-- E_BITS, the size of a generated public exponent; the engine does not check it (00 R6). -/
def eBits : Nat := 255

/-- What ID reads, at all times (10 R44). -/
def idValue : Word := 0x52434501#32

/-- What PARAM reads, at all times (10 R45). -/
def paramValue : Word := 0x00100400#32

end Sys2Proof.Config
end

