-- ==== Sys2Proof/Machine/State.lean ====
section
/-!
DEFINITION. The state of RCE as plain data (10 R57), the events the outside world can bring (44 R420), the answers of
the bus port (20 R100, R108), and the machine right after reset (70 R600).
-/
namespace Sys2Proof.Machine

/-- CTRL's stored fields (10 R47). SRST is an action and stores nothing. -/
structure Ctrl where
  ieDone : Bool
  ieErr  : Bool
  padz   : Bool
  deriving DecidableEq, Repr

/-- STATUS's fields, bit 0 first (10 R49). -/
structure Status where
  busy     : Bool
  done     : Bool
  errf     : Bool
  fatal    : Bool
  keyValid : Bool
  xneg     : Bool
  yneg     : Bool
  dshort   : Bool
  cmdLost  : Bool
  deriving DecidableEq, Repr

/-- The command context held while a command runs (10 R56, R57): PADZ as latched, and the bytes drawn so far. -/
structure Ctx where
  padz  : Bool
  drawn : List Byte
  deriving DecidableEq, Repr

/-- What the outside world, or the engine's turn, can bring in one step (44 R420). -/
inductive Input where
  /-- A bus read of `size` bytes at byte address `addr` (20 R100); sizes other than 4 are illegal (20 R103). -/
  | read (addr : BitVec 12) (size : Nat)
  /-- A bus write of `size` bytes at byte address `addr` (20 R100). -/
  | write (addr : BitVec 12) (size : Nat) (data : Word)
  /-- The entropy source offers one byte (20 R120). -/
  | entropy (b : Byte)
  /-- The engine's turn: completion, when it is enabled (44 R403, R420). -/
  | engine
  /-- The reset pin (70 R600). -/
  | hardReset
  deriving DecidableEq, Repr

/-- The engine's answer to one bus transaction (20 R100, R108): `err` is false for OK and true for BUSERR; a read
carries a word, a write none. -/
structure Response where
  err   : Bool
  rdata : Option Word
  deriving DecidableEq, Repr

/-- The state of the machine: the tuple of 10 R57, then the model's own `inputs` (log entry 1) and `resp` (log
entry 5). -/
structure State where
  /-- W0..W15 (10 R30). -/
  w       : Vector Wide 16
  /-- The modulus n (10 R36). -/
  kn      : Wide
  /-- The public exponent e (10 R36). -/
  ke      : Wide
  /-- The private exponent d (10 R36). -/
  kd      : Wide
  /-- The input buffer (10 R39). -/
  ibuf    : Vector Byte 128
  /-- The output buffer (10 R42). -/
  obuf    : Vector Byte 128
  /-- The valid bytes of IBUF, as the host declares them (10 R41). -/
  ibufLen : BitVec 8
  /-- The valid bytes of OBUF (10 R43). -/
  obufLen : BitVec 8
  /-- CTRL (10 R47). -/
  ctrl    : Ctrl
  /-- STATUS (10 R49). -/
  status  : Status
  /-- ERR (10 R52). -/
  err     : BitVec 8
  /-- The last accepted command word (10 R53). -/
  cmd     : Word
  /-- The command context, present exactly when BUSY = 1 (10 R57). -/
  ctx     : Option Ctx
  /-- The events still to happen, oldest first (log entry 1). -/
  inputs  : List Input
  /-- The answer to the latest bus transaction (log entry 5). -/
  resp    : Option Response
  deriving DecidableEq, Repr

/-- Reasons for the machine to stop. The spec gives RCE none: an engine error is a completion (60 R502), a bus error
an answer (20 R108), a starved command waits (20 R121). So there is no constructor (log entry 10). -/
inductive Fault where
  deriving DecidableEq, Repr

/-- Reasons to give an instruction no meaning. -/
inductive Refusal where
  /-- Raised by `exec`'s arm of an instruction without a meaning yet: safe. No arm raises it. -/
  | notModelled (mnemonic : String)
  deriving DecidableEq, Repr

/-- STATUS after reset, 0x00000000 (70 R600). -/
def Status.reset : Status :=
  { busy := false, done := false, errf := false, fatal := false, keyValid := false,
    xneg := false, yneg := false, dshort := false, cmdLost := false }

/-- CTRL after reset, 0x00000000 (70 R600). -/
def Ctrl.reset : Ctrl := { ieDone := false, ieErr := false, padz := false }

/-- The machine right after reset: every element at the value of 70 R600; no event is pending and no transaction has
been answered (log entries 1 and 5, DESIGN CHOICE). -/
def State.reset : State :=
  { w := Vector.replicate 16 0#1024, kn := 0#1024, ke := 0#1024, kd := 0#1024,
    ibuf := Vector.replicate 128 0#8, obuf := Vector.replicate 128 0#8,
    ibufLen := 0#8, obufLen := 0#8, ctrl := Ctrl.reset, status := Status.reset,
    err := 0#8, cmd := 0#32, ctx := none, inputs := [], resp := none }

/-- The error codes a command can fail with (60 R501); their numbers are `ErrCode.code`. -/
inductive ErrCode where
  | illegal | noKey | keyLocked | empty | len | arg | noInverse | generation | protocol
  deriving DecidableEq, Repr

/-- What executing a command gives (44 R403, R405). -/
inductive CmdResult where
  /-- Success: the state with the command's destinations written, before the completion flags. -/
  | success (t : State)
  /-- Failure with an error code; nothing has been written. -/
  | failure (c : ErrCode)
  /-- A byte the command needs has not been delivered yet: completion is not enabled. -/
  | waiting
  deriving DecidableEq, Repr

end Sys2Proof.Machine
end

