-- ==== Sys2Proof/Machine/Flags.lean ====
section
/-!
DEFINITION. The flags: STATUS and CTRL as bus words (10 R46-R49), the host's write-1-to-clear (10 R50), the flags a
command writes (10 R51, R55), the error codes (60 R501) and the interrupt line (60 R520).
-/
namespace Sys2Proof.Machine

/-! ### STATUS and CTRL as words -/

/-- STATUS as the bus reads it; reserved bits 31:9 are 0 (10 R46, R49). -/
def Status.toWord (f : Status) : Word :=
  0#23 ++ BitVec.ofBool f.cmdLost ++ BitVec.ofBool f.dshort ++ BitVec.ofBool f.yneg ++ BitVec.ofBool f.xneg ++
    BitVec.ofBool f.keyValid ++ BitVec.ofBool f.fatal ++ BitVec.ofBool f.errf ++ BitVec.ofBool f.done ++
    BitVec.ofBool f.busy

/-- CTRL as the bus reads it; SRST and the reserved bits 30:3 are 0 (10 R46, R47). -/
def Ctrl.toWord (c : Ctrl) : Word :=
  0#29 ++ BitVec.ofBool c.padz ++ BitVec.ofBool c.ieErr ++ BitVec.ofBool c.ieDone

/-- CTRL's fields of a written word; the reserved bits are ignored (10 R46, R47). -/
def Ctrl.ofWord (v : Word) : Ctrl := { ieDone := v.getLsbD 0, ieErr := v.getLsbD 1, padz := v.getLsbD 2 }

/-- Whether a word written to CTRL asks for a soft reset: bit 31, SRST (10 R47). -/
def srstBit (v : Word) : Bool := v.getLsbD 31

/-! ### Write-1-to-clear -/

/-- Whether a word written to STATUS clears ERRF: bit 2 is 1 and FATAL is 0 (10 R50). -/
def clearsErrf (v : Word) (f : Status) : Bool := v.getLsbD 2 && !f.fatal

/-- STATUS after the host writes `v` to it; only DONE, ERRF and CMDLOST can change (10 R50). -/
def Status.w1c (v : Word) (f : Status) : Status :=
  { f with
    done := f.done && !v.getLsbD 1
    errf := f.errf && !clearsErrf v f
    cmdLost := f.cmdLost && !v.getLsbD 8 }

/-! ### Flags a command writes -/

/-- STATUS at acceptance: BUSY set, DONE cleared (44 R400). -/
def Status.accepted (f : Status) : Status := { f with busy := true, done := false }

/-- STATUS at completion: BUSY cleared, DONE set (44 R403). -/
def Status.completed (f : Status) : Status := { f with busy := false, done := true }

/-- STATUS when a command fails: completion, ERRF, and FATAL for PROTOCOL only (60 R502, R508). -/
def Status.failed (c : ErrCode) (f : Status) : Status :=
  { f.completed with errf := true, fatal := f.fatal || decide (c = .protocol) }

/-- STATUS with the sign flags of EGCD's coefficients: 1 for a negative one, 0 for zero (40 R212, R213). -/
def Status.setSigns (x y : Int) (f : Status) : Status := { f with xneg := decide (x < 0), yneg := decide (y < 0) }

/-- STATUS with decode's `short` (42 R314). -/
def Status.setShort (b : Bool) (f : Status) : Status := { f with dshort := b }

/-- STATUS with KEY_VALID (10 R37). -/
def Status.setKeyValid (b : Bool) (f : Status) : Status := { f with keyValid := b }

/-! ### Error codes and the interrupt line -/

/-- The code of an error, as ERR bits 7:0 hold it (60 R501). -/
def ErrCode.code : ErrCode → BitVec 8
  | .illegal => 0x01#8
  | .noKey => 0x02#8
  | .keyLocked => 0x03#8
  | .empty => 0x04#8
  | .len => 0x05#8
  | .arg => 0x06#8
  | .noInverse => 0x07#8
  | .generation => 0x08#8
  | .protocol => 0x09#8

/-- The error a code of ERR names (60 R501); none for 0x00 and the reserved codes. -/
def ErrCode.ofCode (b : BitVec 8) : Option ErrCode :=
  [ErrCode.illegal, .noKey, .keyLocked, .empty, .len, .arg, .noInverse, .generation, .protocol].find?
    (fun c => c.code == b)

/-- The interrupt output: (DONE and IE_DONE) or (ERRF and IE_ERR), a function of the state (60 R520). -/
def State.irq (s : State) : Bool := (s.status.done && s.ctrl.ieDone) || (s.status.errf && s.ctrl.ieErr)

end Sys2Proof.Machine
end

