-- ==== Sys2Proof/Machine/Arith.lean ====
section
/-!
DEFINITION. The exact integer functions of the spec: bitlen (00 R10), modular exponentiation (40 R200), the extended
Euclidean algorithm (40 R210) and the modular inverse (40 R220). All are on unbounded naturals and integers (40 R204).
-/
namespace Sys2Proof.Machine

/-- The number of bits of `v` without leading zeros; 0 for 0 (00 R10). -/
def bitlen (v : Nat) : Nat := if v = 0 then 0 else Nat.log2 v + 1

/-- Square-and-multiply over the lowest `fuel` bits of the exponent. -/
def modExpAux : (fuel b x m : Nat) → Nat
  | 0, _, _, m => 1 % m
  | fuel + 1, b, x, m =>
    if x = 0 then 1 % m
    else
      let h := modExpAux fuel (b * b % m) (x / 2) m
      if x % 2 = 1 then b * h % m else h

/-- `b^x mod m` (40 R200, 00 R11). The method is the model's, the value the rule's (40 R203, log entry 12); the law
`modExp_eq_pow_mod` says so. -/
def modExp (b x m : Nat) : Nat := modExpAux (bitlen x) b x m

/-- The recursion of 40 R210, with fuel: the first argument strictly decreases, so `a + 1` steps always suffice
(40 R211 (1); the law `egcd_rec` says so). -/
def egcdAux : (fuel a b : Nat) → Nat × Int × Int
  | 0, _, b => (b, 0, 1)
  | fuel + 1, a, b =>
    if a = 0 then (b, 0, 1)
    else
      let r := egcdAux fuel (b % a) a
      (r.1, r.2.2 - ((b / a : Nat) : Int) * r.2.1, r.2.1)

/-- `extendedGcd(a, b)`: the triple (g, x, y) of 40 R210. -/
def egcd (a b : Nat) : Nat × Int × Int := egcdAux (a + 1) a b

/-- `modInverse(a, m)`, for `m ≥ 1`: none when gcd(a, m) is not 1, else x mod m in [0, m) (40 R220, 00 R10). -/
def modInverse (a m : Nat) : Option Nat :=
  let r := egcd a m
  if r.1 = 1 then some (r.2.1 % (m : Int)).toNat else none

end Sys2Proof.Machine
end

