-- ==== Sys2Proof/Machine/Bytes.lean ====
section
/-!
DEFINITION. Byte strings and their big-endian values (00 R9), byte lengths (00 R12, R13), the chunk and block formats
(42 R300, R302) and the decode function (42 R310-R313).
-/
namespace Sys2Proof.Machine

/-- BE(s): the big-endian value of a byte string, 0 for the empty one (00 R9). -/
def beValue (s : List Byte) : Nat := s.foldl (fun acc b => acc * 256 + b.toNat) 0

/-- BE_L(v): the `L`-byte big-endian string of `v`, for `v < 256^L` (00 R9). -/
def beBytes : (L v : Nat) → List Byte
  | 0, _ => []
  | L + 1, v => beBytes L (v / 256) ++ [BitVec.ofNat 8 v]

/-- L(v), the natural byte length (00 R12). -/
def naturalLength (v : Nat) : Nat := (bitlen v + 7) / 8

/-- B(v), the decode byte count (00 R13). -/
def decodeCount (v : Nat) : Nat := bitlen v / 8 + 1

/-- zeros(n): `n` zero bytes (00 R9). -/
def zeroBytes (n : Nat) : List Byte := List.replicate n 0#8

/-- A chunk from the length byte's value, the data bytes and the filler (42 R300). -/
def buildChunk (k : Nat) (data filler : List Byte) : List Byte := BitVec.ofNat 8 k :: (data ++ filler)

/-- A block from the pad and the value (42 R302). -/
def buildBlock (pad : List Byte) (c : Nat) : List Byte := pad ++ beBytes (naturalLength c) c

/-- decode(v): the data bytes, and whether fewer bytes were present than the length byte says (42 R310-R313). -/
def decodeChunk (v : Nat) : List Byte × Bool :=
  match beBytes (decodeCount v) v with
  | [] => ([], false)
  | k :: rest => (rest.take k.toNat, decide (rest.length < k.toNat))

/-- A 128-byte buffer whose bytes are those of `s`, then zeros (10 R43). Irreducible, so that no unifier computes 128
bytes of it; its bytes are given by the law `bufferOf_get`. -/
@[irreducible] def bufferOf (s : List Byte) : Vector Byte 128 := Vector.ofFn (fun i : Fin 128 => s.getD i.val 0#8)

end Sys2Proof.Machine
end

