-- ==== Sys2Proof/Machine/Operands.lean ====
section
/-!
DEFINITION. The operand forms: named wide registers (30 R152-R154), the implicit buffers, lengths, keys and latched
PADZ, and the 32-bit words through which a wide value or a buffer is seen (10 R32, R40; 20 R104, R105).
-/
namespace Sys2Proof.Machine

/-! ### Named wide registers -/

/-- W[i] as bits (00 R14). -/
def State.getW (s : State) (i : WReg) : Wide := s.w[i.val]

/-- W[i] as the natural number it holds (00 R8, R14). -/
def State.regValue (s : State) (i : WReg) : Nat := (s.getW i).toNat

/-- W[i] <- v (00 R14). No register is hard-wired (10 R30). -/
def State.setW (s : State) (i : WReg) (v : Wide) : State := { s with w := s.w.set i.val v i.isLt }

/-- A result as the wide value that holds it; every result is below 2^1024 (40 R204, log entry 13). -/
def toWide (v : Nat) : Wide := BitVec.ofNat 1024 v

/-- The three destinations of EGCD, `rd`, `rd+1`, `rd+2` (30 R154); `rd` is at most 13. -/
def egcdDests (rd : WReg) : WReg × WReg × WReg := (rd, rd + 1, rd + 2)

/-! ### Implicit operands -/

/-- IBUF_LEN as a number (10 R41). -/
def State.ibufCount (s : State) : Nat := s.ibufLen.toNat

/-- IBUF[0..k) (00 R9, R14). -/
def State.ibufData (s : State) (k : Nat) : List Byte := s.ibuf.toList.take k

/-- The context of the running command. Without one (no step reaches `exec` so, see log entry 8) it is what acceptance
would latch: PADZ as CTRL has it, and no byte drawn (44 R400). -/
def State.runningCtx (s : State) : Ctx := s.ctx.getD { padz := s.ctrl.padz, drawn := [] }

/-- `n` draws from the delivered bytes, in order, and the bytes left; none while fewer than `n` are there (20 R121). -/
def draw (n : Nat) (bytes : List Byte) : Option (List Byte × List Byte) :=
  if n ≤ bytes.length then some (bytes.take n, bytes.drop n) else none

/-! ### Words of a wide value: word 0 is the most significant -/

/-- The lowest bit of word `j` of a wide value (10 R32, 20 R105). -/
def wideWordLow (j : Fin 32) : Nat := 992 - 32 * j.val

/-- Word `j` of a wide value, bits [1023 - 32 j : 992 - 32 j] (10 R32, 20 R105). -/
def wideWord (v : Wide) (j : Fin 32) : Word := v.extractLsb' (wideWordLow j) 32

/-- A wide value with word `j` replaced and the other 992 bits kept (10 R32). -/
def setWideWord (v : Wide) (j : Fin 32) (x : Word) : Wide :=
  (v &&& ~~~((0xFFFFFFFF#32).zeroExtend 1024 <<< wideWordLow j)) ||| (x.zeroExtend 1024 <<< wideWordLow j)

/-! ### Words of a buffer: the lower index is the more significant lane -/

/-- The index of lane `n` (0 the most significant) of word `j` of a buffer (10 R40). -/
def laneIndex (j : Fin 32) (n : Fin 4) : Fin 128 := ⟨4 * j.val + n.val, by omega⟩

/-- Word `j` of a buffer (10 R40, 20 R104). -/
def bufWord (b : Vector Byte 128) (j : Fin 32) : Word :=
  b[(laneIndex j 0).val] ++ b[(laneIndex j 1).val] ++ b[(laneIndex j 2).val] ++ b[(laneIndex j 3).val]

/-- Lane `n` of a bus word (20 R104). -/
def lane (x : Word) (n : Fin 4) : Byte := x.extractLsb' (24 - 8 * n.val) 8

/-- A buffer with the four bytes of word `j` replaced (10 R40). -/
def setBufWord (b : Vector Byte 128) (j : Fin 32) (x : Word) : Vector Byte 128 :=
  (((b.set (laneIndex j 0).val (lane x 0) (laneIndex j 0).isLt).set (laneIndex j 1).val (lane x 1)
    (laneIndex j 1).isLt).set (laneIndex j 2).val (lane x 2) (laneIndex j 2).isLt).set (laneIndex j 3).val (lane x 3)
    (laneIndex j 3).isLt

end Sys2Proof.Machine
end

