-- ==== Sys2Proof/Machine/Ops.lean ====
section
/-!
DEFINITION. The named operations every command is made of: acceptance (44 R400, R401), completion (44 R403), the
failure effect, which is the engine's trap entry (60 R502), the return from it (60 R505), reset (70 R600-R605), and
writes of the key registers and of OBUF.
-/
namespace Sys2Proof.Machine

/-! ### Acceptance -/

/-- Whether a command can be accepted: BUSY, ERRF and FATAL are all 0 (44 R400). -/
def State.acceptable (s : State) : Bool := !s.status.busy && !s.status.errf && !s.status.fatal

/-- The acceptance step for the word `w` (44 R400). -/
def accept (w : Word) (s : State) : State :=
  { s with cmd := w, status := s.status.accepted, ctx := some { padz := s.ctrl.padz, drawn := [] } }

/-- A CMD write: accepted, or dropped with CMDLOST as its only effect (44 R400, R401). -/
def issueCommand (w : Word) (s : State) : State :=
  if s.acceptable then accept w s else { s with status := { s.status with cmdLost := true } }

/-! ### Completion -/

/-- A successful completion: BUSY and DONE, and the context is gone (44 R403). -/
def finish (s : State) : State := { s with status := s.status.completed, ctx := none }

/-- The failure effect (60 R502): ERR and ERRF record the error, FATAL for PROTOCOL, and the command completes. -/
def raiseError (c : ErrCode) (s : State) : State :=
  { s with err := c.code, status := s.status.failed c, ctx := none }

/-- The completion step, from what executing the command gave (44 R403). While a needed byte is missing, completion is
not enabled and nothing changes (44 R405). -/
def complete (s : State) : CmdResult → Host.Outcome State Fault Refusal
  | .success t => .next (finish t)
  | .failure c => .next (raiseError c s)
  | .waiting => .next s

/-- Whether a command still waits for a byte. -/
def CmdResult.isWaiting : CmdResult → Bool
  | .success _ => false
  | .failure _ => false
  | .waiting => true

/-! ### Return from an error -/

/-- A STATUS write (10 R50): write-1-to-clear, and a clear of ERRF zeroes ERR. It is the return from an error
(60 R505). -/
def writeStatus (v : Word) (s : State) : State :=
  { s with err := if clearsErrf v s.status then 0#8 else s.err, status := s.status.w1c v }

/-! ### Reset -/

/-- The reset step, from the pin or from SRST, at any time (70 R600, R604, R605). What is outside the engine stays: the
events to come and the record of the latest bus answer (log entries 1 and 5). -/
def resetStep (s : State) : State := { State.reset with inputs := s.inputs, resp := s.resp }

/-- A CTRL write: a soft reset when SRST is written 1 and the other bits are discarded, else the new fields
(10 R48, 70 R605). -/
def writeCtrl (v : Word) (s : State) : State :=
  if srstBit v then resetStep s else { s with ctrl := Ctrl.ofWord v }

/-! ### Destinations -/

/-- KN, KE, KD and KEY_VALID at once (41 R253, R260, R270). -/
def setKeys (n e d : Wide) (valid : Bool) (s : State) : State :=
  { s with kn := n, ke := e, kd := d, status := s.status.setKeyValid valid }

/-- OBUF <- the bytes, then zeros; OBUF_LEN <- `len` (10 R43). -/
def setObuf (bytes : List Byte) (len : Nat) (s : State) : State :=
  { s with obuf := bufferOf bytes, obufLen := BitVec.ofNat 8 len }

/-- STATUS with the result flags a command writes (10 R51). -/
def State.mapStatus (f : Status → Status) (s : State) : State := { s with status := f s.status }

end Sys2Proof.Machine
end

