-- ==== Sys2Proof/Machine/Bus.lean ====
section
/-!
DEFINITION. The register window (10 R34) and the bus transactions on it (20 R100-R110).
-/
namespace Sys2Proof.Machine

/-- A location of the register window (10 R34). -/
inductive Loc where
  | id | ctrl | status | err | cmd | ibufLen | obufLen | param
  | ibuf (j : Fin 32)
  | obuf (j : Fin 32)
  | kn (j : Fin 32)
  | ke (j : Fin 32)
  | kd (j : Fin 32)
  | w (i : WReg) (j : Fin 32)
  deriving DecidableEq, Repr

/-- The word number within a 128-byte window. -/
def wordInWindow (n : Nat) : Fin 32 := ⟨n % 32, Nat.mod_lt _ (by decide)⟩

/-- The location whose word number in the window is `n`, so at byte address 4 n; none for an unmapped one
(10 R34, 20 R103 (b)). -/
def locOfIndex (n : Nat) : Option Loc :=
  if n = 0 then some .id
  else if n = 1 then some .ctrl
  else if n = 2 then some .status
  else if n = 3 then some .err
  else if n = 4 then some .cmd
  else if n = 5 then some .ibufLen
  else if n = 6 then some .obufLen
  else if n = 7 then some .param
  else if n < 0x40 then none
  else if n < 0x60 then some (.ibuf (wordInWindow n))
  else if n < 0x80 then some (.obuf (wordInWindow n))
  else if n < 0xA0 then some (.kn (wordInWindow n))
  else if n < 0xC0 then some (.ke (wordInWindow n))
  else if n < 0xE0 then some (.kd (wordInWindow n))
  else if n < 0x100 then none
  else if n < 0x300 then some (.w ⟨(n - 0x100) / 32 % 16, Nat.mod_lt _ (by decide)⟩ (wordInWindow n))
  else none

/-- The location a transaction of `size` bytes at `a` reaches: none unless it is a 32-bit access at a multiple of 4
to a mapped word (20 R102, R103 (a), (b)). -/
def locate (a : BitVec 12) (size : Nat) : Option Loc :=
  if size = 4 ∧ a.toNat % 4 = 0 then locOfIndex (a.toNat / 4) else none

/-- The byte address of a location (10 R34). -/
def Loc.addr : Loc → BitVec 12
  | .id => 0x000#12
  | .ctrl => 0x004#12
  | .status => 0x008#12
  | .err => 0x00C#12
  | .cmd => 0x010#12
  | .ibufLen => 0x014#12
  | .obufLen => 0x018#12
  | .param => 0x01C#12
  | .ibuf j => BitVec.ofNat 12 (0x100 + 4 * j.val)
  | .obuf j => BitVec.ofNat 12 (0x180 + 4 * j.val)
  | .kn j => BitVec.ofNat 12 (0x200 + 4 * j.val)
  | .ke j => BitVec.ofNat 12 (0x280 + 4 * j.val)
  | .kd j => BitVec.ofNat 12 (0x300 + 4 * j.val)
  | .w i j => BitVec.ofNat 12 (0x400 + 0x80 * i.val + 4 * j.val)

/-- Whether any access to the location is a bus error while BUSY = 1 (10 R34, 20 R107). -/
def Loc.busyBlocked : Loc → Bool
  | .id | .ctrl | .status | .err | .cmd | .param => false
  | .ibufLen | .obufLen | .ibuf _ | .obuf _ | .kn _ | .ke _ | .kd _ | .w _ _ => true

/-- Whether the host may write the location (10 R34, 20 R103 (c)). -/
def Loc.writable : Loc → Bool
  | .ctrl | .status | .cmd | .ibufLen | .ibuf _ | .w _ _ => true
  | .id | .err | .obufLen | .param | .obuf _ | .kn _ | .ke _ | .kd _ => false

/-- What a location holds, as a bus word (10 R32-R53); reserved bits read 0 (10 R46). No read has a side effect
(10 R35). -/
def readLoc (s : State) : Loc → Word
  | .id => Config.idValue
  | .ctrl => s.ctrl.toWord
  | .status => s.status.toWord
  | .err => s.err.zeroExtend 32
  | .cmd => s.cmd
  | .ibufLen => s.ibufLen.zeroExtend 32
  | .obufLen => s.obufLen.zeroExtend 32
  | .param => Config.paramValue
  | .ibuf j => bufWord s.ibuf j
  | .obuf j => bufWord s.obuf j
  | .kn j => wideWord s.kn j
  | .ke j => wideWord s.ke j
  | .kd j => wideWord s.kd j
  | .w i j => wideWord (s.getW i) j

/-- The effect of a legal write; a read-only location keeps its value (no legal write reaches one, 20 R103 (c)). -/
def writeLoc (v : Word) (s : State) : Loc → State
  | .ctrl => writeCtrl v s
  | .status => writeStatus v s
  | .cmd => issueCommand v s
  | .ibufLen => { s with ibufLen := v.truncate 8 }
  | .ibuf j => { s with ibuf := setBufWord s.ibuf j v }
  | .w i j => s.setW i (setWideWord (s.getW i) j v)
  | .id | .err | .obufLen | .param | .obuf _ | .kn _ | .ke _ | .kd _ => s

/-- Whether the location may be accessed now (20 R103 (d), R107). -/
def Loc.accessible (s : State) (l : Loc) : Bool := !(s.status.busy && l.busyBlocked)

/-- The answer to a read: the word, or BUSERR and the word 0 (20 R100, R103, R108). -/
def busRead (a : BitVec 12) (size : Nat) (s : State) : Response :=
  match locate a size with
  | none => { err := true, rdata := some 0#32 }
  | some l =>
    if l.accessible s then { err := false, rdata := some (readLoc s l) } else { err := true, rdata := some 0#32 }

/-- The location a write may change now, none when the answer is BUSERR (20 R103). -/
def writeTarget (a : BitVec 12) (size : Nat) (s : State) : Option Loc :=
  match locate a size with
  | none => none
  | some l => if l.accessible s && l.writable then some l else none

/-- The state with the bus port's answer recorded (log entry 5). -/
def State.answer (r : Response) (s : State) : State := { s with resp := some r }

/-- A read transaction: only the answer is new (20 R109). -/
def readStep (a : BitVec 12) (size : Nat) (s : State) : State := s.answer (busRead a size s)

/-- A write transaction: its effect and OK, or BUSERR and no effect (20 R100, R103, R108). -/
def writeStep (a : BitVec 12) (size : Nat) (v : Word) (s : State) : State :=
  match writeTarget a size s with
  | none => s.answer { err := true, rdata := none }
  | some l => (writeLoc v s l).answer { err := false, rdata := none }

end Sys2Proof.Machine
end

