-- ==== Sys2Proof/Machine/ChunkCodec.lean ====
section
/-!
DEFINITION. CHUNK, UNCHUNK, LDBUF, STBLK (42 R330, R315, R320, R340).
-/
namespace Sys2Proof.Machine

/-- The pad of a block for the value `c` (42 R302, R341): zeros when PADZ is 1, else draws; none while a needed byte
is missing. -/
def blockPad (padz : Bool) (c : Nat) (bytes : List Byte) : Option (List Byte) :=
  if padz then some (zeroBytes (128 - naturalLength c))
  else (draw (128 - naturalLength c) bytes).map Prod.fst

/-- OBUF <- pad ++ BE_L(c), OBUF_LEN <- 128; PROTOCOL when c needs more than 128 bytes (42 R340, R343). The bytes are
those still to be drawn from. -/
def storeBlock (padz : Bool) (c : Nat) (bytes : List Byte) (s : State) : CmdResult :=
  if 128 < naturalLength c then .failure .protocol
  else
    match blockPad padz c bytes with
    | none => .waiting
    | some pad => .success (setObuf (buildBlock pad c) 128 s)

/-- OBUF <- decode's data, OBUF_LEN, DSHORT (42 R315). -/
def storeDecoded (r : List Byte × Bool) (s : State) : State :=
  (setObuf r.1 r.1.length s).mapStatus (Status.setShort r.2)

/-- CHUNK (42 R330): EMPTY, LEN, then 126 - k filler draws; PROTOCOL when the chunk is not 127 bytes (42 R333). -/
def chunkResult (s : State) : CmdResult :=
  let k := s.ibufCount
  if k = 0 then .failure .empty
  else if 126 < k then .failure .len
  else
    match draw (126 - k) s.runningCtx.drawn with
    | none => .waiting
    | some (f, _) =>
      let chunk := buildChunk k (s.ibufData k) f
      if chunk.length ≠ 127 then .failure .protocol else .success (setObuf chunk 127 s)

/-- The completion of CHUNK. -/
def execChunk (s : State) : Host.Outcome State Fault Refusal := complete s (chunkResult s)

/-- UNCHUNK (42 R315). -/
def unchunkResult (rs1 : WReg) (s : State) : CmdResult :=
  .success (storeDecoded (decodeChunk (s.regValue rs1)) s)

/-- The completion of UNCHUNK. -/
def execUnchunk (rs1 : WReg) (s : State) : Host.Outcome State Fault Refusal := complete s (unchunkResult rs1 s)

/-- LDBUF (42 R320): LEN above 128, else W[rd] <- BE(IBUF[0..len)). -/
def ldbufResult (rd : WReg) (s : State) : CmdResult :=
  if 128 < s.ibufCount then .failure .len
  else .success (s.setW rd (toWide (beValue (s.ibufData s.ibufCount))))

/-- The completion of LDBUF. -/
def execLdbuf (rd : WReg) (s : State) : Host.Outcome State Fault Refusal := complete s (ldbufResult rd s)

/-- STBLK (42 R340): the block of W[rs1], with PADZ as latched. -/
def stblkResult (rs1 : WReg) (s : State) : CmdResult :=
  storeBlock s.runningCtx.padz (s.regValue rs1) s.runningCtx.drawn s

/-- The completion of STBLK. -/
def execStblk (rs1 : WReg) (s : State) : Host.Outcome State Fault Refusal := complete s (stblkResult rs1 s)

end Sys2Proof.Machine
end

