-- ==== Sys2Proof/Machine/CipherPipeline.lean ====
section
/-!
DEFINITION. ENCBLK, DECBLK (43 R360, R370).
-/
namespace Sys2Proof.Machine

/-- ENCBLK (43 R360): NO_KEY, EMPTY, LEN, ARG; then the filler draws, the chunk (PROTOCOL when it is not 127 bytes),
m^KE mod KN without a check of m against KN (43 R362), and the block with its pad draws. -/
def encblkResult (s : State) : CmdResult :=
  let k := s.ibufCount
  if !s.status.keyValid then .failure .noKey
  else if k = 0 then .failure .empty
  else if 126 < k then .failure .len
  else if s.kn.toNat = 0 then .failure .arg
  else
    match draw (126 - k) s.runningCtx.drawn with
    | none => .waiting
    | some (f, rest) =>
      let chunk := buildChunk k (s.ibufData k) f
      if chunk.length ≠ 127 then .failure .protocol
      else storeBlock s.runningCtx.padz (modExp (beValue chunk) s.ke.toNat s.kn.toNat) rest s

/-- The completion of ENCBLK. -/
def execEncblk (s : State) : Host.Outcome State Fault Refusal := complete s (encblkResult s)

/-- DECBLK (43 R370): NO_KEY, LEN, ARG; then v^KD mod KN without a check of v against KN (43 R372), decoded. -/
def decblkResult (s : State) : CmdResult :=
  if !s.status.keyValid then .failure .noKey
  else if s.ibufCount ≠ 128 then .failure .len
  else if s.kn.toNat = 0 then .failure .arg
  else .success (storeDecoded (decodeChunk (modExp (beValue (s.ibufData 128)) s.kd.toNat s.kn.toNat)) s)

/-- The completion of DECBLK. -/
def execDecblk (s : State) : Host.Outcome State Fault Refusal := complete s (decblkResult s)

end Sys2Proof.Machine
end

