-- ==== Sys2Proof/Machine/Control.lean ====
section
/-!
DEFINITION. NOP (44 R410).
-/
namespace Sys2Proof.Machine

/-- NOP: success with no writes (44 R410). -/
def nopResult (s : State) : CmdResult := .success s

/-- The completion of NOP (44 R410). -/
def execNop (s : State) : Host.Outcome State Fault Refusal := complete s (nopResult s)

end Sys2Proof.Machine
end

