-- ==== Sys2Proof/Machine/Keys.lean ====
section
/-!
DEFINITION. KEYGEN, KEYLOAD, KEYCLR (41 R250, R260, R270).
-/
namespace Sys2Proof.Machine

/-- KEYGEN (41 R250): KEY_LOCKED, then ARG for a prime below 2 or a modulus of more than 1024 bits, then GENERATION
when e has no inverse modulo (p-1)(q-1); else the triple. It draws nothing and tests no primality (41 R255). -/
def keygenResult (rs1 rs2 rs3 : WReg) (s : State) : CmdResult :=
  let p := s.regValue rs1
  let q := s.regValue rs2
  let e := s.regValue rs3
  if s.status.keyValid then .failure .keyLocked
  else if p < 2 ∨ q < 2 then .failure .arg
  else if 2 ^ 1024 ≤ p * q then .failure .arg
  else
    match modInverse e ((p - 1) * (q - 1)) with
    | none => .failure .generation
    | some d => .success (setKeys (toWide (p * q)) (toWide e) (toWide d) true s)

/-- The completion of KEYGEN. -/
def execKeygen (rs1 rs2 rs3 : WReg) (s : State) : Host.Outcome State Fault Refusal :=
  complete s (keygenResult rs1 rs2 rs3 s)

/-- KEYLOAD (41 R260): KEY_LOCKED, else the triple as given, with no check of its values (41 R261). -/
def keyloadResult (rs1 rs2 rs3 : WReg) (s : State) : CmdResult :=
  if s.status.keyValid then .failure .keyLocked
  else .success (setKeys (s.getW rs1) (s.getW rs2) (s.getW rs3) true s)

/-- The completion of KEYLOAD. -/
def execKeyload (rs1 rs2 rs3 : WReg) (s : State) : Host.Outcome State Fault Refusal :=
  complete s (keyloadResult rs1 rs2 rs3 s)

/-- KEYCLR (41 R270): the triple and KEY_VALID become 0, whether or not a key is held. -/
def keyclrResult (s : State) : CmdResult := .success (setKeys 0#1024 0#1024 0#1024 false s)

/-- The completion of KEYCLR. -/
def execKeyclr (s : State) : Host.Outcome State Fault Refusal := complete s (keyclrResult s)

end Sys2Proof.Machine
end

