-- ==== Sys2Proof/Machine/ModularArithmetic.lean ====
section
/-!
DEFINITION. MODEXP, EGCD, MODINV (40 R201, R212, R221).
-/
namespace Sys2Proof.Machine

/-- MODEXP (40 R201): ARG for a zero modulus, else W[rd] <- b^x mod m. -/
def modexpResult (rd rs1 rs2 rs3 : WReg) (s : State) : CmdResult :=
  if s.regValue rs3 = 0 then .failure .arg
  else .success (s.setW rd (toWide (modExp (s.regValue rs1) (s.regValue rs2) (s.regValue rs3))))

/-- The completion of MODEXP. -/
def execModexp (rd rs1 rs2 rs3 : WReg) (s : State) : Host.Outcome State Fault Refusal :=
  complete s (modexpResult rd rs1 rs2 rs3 s)

/-- W[rd] <- g, W[rd+1] <- |x|, W[rd+2] <- |y|, XNEG, YNEG (40 R212). -/
def writeEgcd (rd : WReg) (r : Nat × Int × Int) (s : State) : State :=
  let d := egcdDests rd
  (((s.setW d.1 (toWide r.1)).setW d.2.1 (toWide r.2.1.natAbs)).setW d.2.2 (toWide r.2.2.natAbs)).mapStatus
    (Status.setSigns r.2.1 r.2.2)

/-- EGCD (40 R212): ILLEGAL when `rd` exceeds 13 (30 R154; the decoder builds no such command, log entry 9). -/
def egcdResult (rd rs1 rs2 : WReg) (s : State) : CmdResult :=
  if egcdMaxRd < rd then .failure .illegal
  else .success (writeEgcd rd (egcd (s.regValue rs1) (s.regValue rs2)) s)

/-- The completion of EGCD. -/
def execEgcd (rd rs1 rs2 : WReg) (s : State) : Host.Outcome State Fault Refusal :=
  complete s (egcdResult rd rs1 rs2 s)

/-- MODINV (40 R221): ARG for a zero modulus, NO_INVERSE when the gcd is not 1, else W[rd] <- x mod m. -/
def modinvResult (rd rs1 rs2 : WReg) (s : State) : CmdResult :=
  if s.regValue rs2 = 0 then .failure .arg
  else
    match modInverse (s.regValue rs1) (s.regValue rs2) with
    | none => .failure .noInverse
    | some d => .success (s.setW rd (toWide d))

/-- The completion of MODINV. -/
def execModinv (rd rs1 rs2 : WReg) (s : State) : Host.Outcome State Fault Refusal :=
  complete s (modinvResult rd rs1 rs2 s)

end Sys2Proof.Machine
end

