-- ==== Sys2Proof/Machine/Dispatch.lean ====
section
/-!
DEFINITION. One meaning per command: the completion step of the decoded command (44 R403).
-/
namespace Sys2Proof.Machine

def exec (i : Instr) (s : State) : Host.Outcome State Fault Refusal :=
  match i with
  | .nop => Sys2Proof.Machine.execNop s
  | .modexp rd rs1 rs2 rs3 => Sys2Proof.Machine.execModexp rd rs1 rs2 rs3 s
  | .egcd rd rs1 rs2 => Sys2Proof.Machine.execEgcd rd rs1 rs2 s
  | .modinv rd rs1 rs2 => Sys2Proof.Machine.execModinv rd rs1 rs2 s
  | .keygen rs1 rs2 rs3 => Sys2Proof.Machine.execKeygen rs1 rs2 rs3 s
  | .keyload rs1 rs2 rs3 => Sys2Proof.Machine.execKeyload rs1 rs2 rs3 s
  | .keyclr => Sys2Proof.Machine.execKeyclr s
  | .chunk => Sys2Proof.Machine.execChunk s
  | .unchunk rs1 => Sys2Proof.Machine.execUnchunk rs1 s
  | .ldbuf rd => Sys2Proof.Machine.execLdbuf rd s
  | .stblk rs1 => Sys2Proof.Machine.execStblk rs1 s
  | .encblk => Sys2Proof.Machine.execEncblk s
  | .decblk => Sys2Proof.Machine.execDecblk s

end Sys2Proof.Machine
end

