-- ==== Sys2Proof/Machine/Engine.lean ====
section
/-!
DEFINITION. The steps of the machine as a transition system (44 R420): bus transactions, entropy deliveries, the
engine's turn, reset; and how an instruction is fetched (10 R54: the current command is the word in CMD).
-/
namespace Sys2Proof.Machine

/-- Whether a decoded command still needs a byte of entropy (44 R405). Only CHUNK, STBLK and ENCBLK draw. -/
def wantsByte (i : Instr) (s : State) : Bool :=
  match i with
  | .chunk => (chunkResult s).isWaiting
  | .stblk rs1 => (stblkResult rs1 s).isWaiting
  | .encblk => (encblkResult s).isWaiting
  | .nop | .modexp _ _ _ _ | .egcd _ _ _ | .modinv _ _ _ | .keygen _ _ _ | .keyload _ _ _ | .keyclr | .unchunk _
  | .ldbuf _ | .decblk => false

/-- The ent_req output: a running command needs a byte (20 R120). -/
def State.entReq (s : State) : Bool :=
  s.status.busy &&
    match decodeWord s.cmd with
    | .command i => wantsByte i s
    | .illegal _ => false

/-- A byte offered by the entropy source: taken, exactly one, while ent_req = 1 (20 R120); with ent_req = 0 there is no
handshake and nothing is taken (log entry 3). -/
def deliver (b : Byte) (s : State) : State :=
  if s.entReq then
    { s with ctx := some { padz := s.runningCtx.padz, drawn := s.runningCtx.drawn ++ [b] } }
  else s

/-- The engine's turn: while BUSY = 1 the command in CMD is decoded and completes, an illegal word with ILLEGAL
(44 R403, 30 R158); with BUSY = 0 the engine waits for a CMD write (10 R54). -/
def engineTurn (s : State) : Host.Outcome State Fault Refusal :=
  if s.status.busy then
    match decodeWord s.cmd with
    | .command i => exec i s
    | .illegal _ => complete s (.failure .illegal)
  else .next s

/-- One event of the outside world, or the engine's turn (44 R420). -/
def perform (e : Input) (s : State) : Host.Outcome State Fault Refusal :=
  match e with
  | .read a size => .next (readStep a size s)
  | .write a size v => .next (writeStep a size v s)
  | .entropy b => .next (deliver b s)
  | .engine => engineTurn s
  | .hardReset => .next (resetStep s)

/-- One step: the oldest pending event; with none pending, the engine's turn (log entries 1 and 2). -/
def stepMachine (s : State) : Host.Outcome State Fault Refusal :=
  match s.inputs with
  | [] => engineTurn s
  | e :: rest => perform e { s with inputs := rest }

/-- The entropy source delivers the byte 0 each time one is asked for, at most `n` times. -/
def offerZeros : Nat → State → State
  | 0, s => s
  | n + 1, s => if s.entReq then offerZeros n (deliver 0#8 s) else s

/-- The state in which the command word `w` has been accepted, the engine has its turn next, and every byte the
command draws has been delivered (log entry 6); 253 = 125 + 128 is the most a command draws (44 R405). -/
def loadCommand (w : Word) (s : State) : State :=
  offerZeros 253
    { s with
      cmd := w
      status := s.status.accepted
      ctx := some { padz := s.ctrl.padz, drawn := [] }
      inputs := if s.inputs = [] then [] else .engine :: s.inputs }

end Sys2Proof.Machine
end

