-- ==== Sys2Proof/Machine/Step.lean ====
section
/-!
DEFINITION. The step of the machine, and a state whose next step runs a given command word.
-/
namespace Sys2Proof.Machine

/-- One step of the machine (44 R420): next, fault or refusal. -/
def step (s : State) : Host.Outcome State Fault Refusal := stepMachine s

/-- `s` with the table's word `w` accepted as the running command, so that the next step runs it (log entry 6). -/
def State.withFetchWord (s : State) (nbits w : Nat) : State := loadCommand (BitVec.ofNat 32 (w % 2 ^ nbits)) s

end Sys2Proof.Machine
end

