-- ==== Sys2Proof/Machine/Assembler.lean ====
section
/-!
DEFINITION. The assembler form of a command (30 R170, R171), as lists of characters: written and read.
-/
namespace Sys2Proof.Machine

/-- The mnemonic (30 R170). -/
def mnemonicOf : Instr → List Char
  | .nop => ['N', 'O', 'P']
  | .modexp _ _ _ _ => ['M', 'O', 'D', 'E', 'X', 'P']
  | .egcd _ _ _ => ['E', 'G', 'C', 'D']
  | .modinv _ _ _ => ['M', 'O', 'D', 'I', 'N', 'V']
  | .keygen _ _ _ => ['K', 'E', 'Y', 'G', 'E', 'N']
  | .keyload _ _ _ => ['K', 'E', 'Y', 'L', 'O', 'A', 'D']
  | .keyclr => ['K', 'E', 'Y', 'C', 'L', 'R']
  | .chunk => ['C', 'H', 'U', 'N', 'K']
  | .unchunk _ => ['U', 'N', 'C', 'H', 'U', 'N', 'K']
  | .ldbuf _ => ['L', 'D', 'B', 'U', 'F']
  | .stblk _ => ['S', 'T', 'B', 'L', 'K']
  | .encblk => ['E', 'N', 'C', 'B', 'L', 'K']
  | .decblk => ['D', 'E', 'C', 'B', 'L', 'K']

/-- The operands in field order, unused fields omitted (30 R170). -/
def asmOperands : Instr → List WReg
  | .nop | .keyclr | .chunk | .encblk | .decblk => []
  | .modexp rd rs1 rs2 rs3 => [rd, rs1, rs2, rs3]
  | .egcd rd rs1 rs2 => [rd, rs1, rs2]
  | .modinv rd rs1 rs2 => [rd, rs1, rs2]
  | .keygen rs1 rs2 rs3 => [rs1, rs2, rs3]
  | .keyload rs1 rs2 rs3 => [rs1, rs2, rs3]
  | .unchunk rs1 => [rs1]
  | .ldbuf rd => [rd]
  | .stblk rs1 => [rs1]

/-- The character of a decimal digit. -/
def digitChar (d : Nat) : Char := Char.ofNat (48 + d)

/-- The name of a wide register, w0..w15 (30 R170). -/
def regName (i : WReg) : List Char :=
  if i.val < 10 then ['w', digitChar i.val] else ['w', '1', digitChar (i.val - 10)]

/-- Operands separated by commas (30 R170). -/
def joinOperands : List WReg → List Char
  | [] => []
  | [r] => regName r
  | r :: rs => regName r ++ [',', ' '] ++ joinOperands rs

/-- A command as it is written (30 R170, R171). -/
def writeAsm (i : Instr) : List Char :=
  match asmOperands i with
  | [] => mnemonicOf i
  | ops => mnemonicOf i ++ [' '] ++ joinOperands ops

/-- The text before a comment, which runs from a semicolon (30 R170). -/
def stripComment (t : List Char) : List Char := t.takeWhile (fun c => c != ';')

/-- The text without spaces at either end (log entry 16). -/
def trimSpaces (t : List Char) : List Char :=
  ((t.dropWhile (fun c => c == ' ')).reverse.dropWhile (fun c => c == ' ')).reverse

/-- The register a name names (30 R170). -/
def readReg (t : List Char) : Option WReg := (List.finRange 16).find? (fun i => regName i == trimSpaces t)

/-- A text split at commas. -/
def splitCommas : List Char → List (List Char)
  | [] => [[]]
  | c :: rest =>
    if c = ',' then [] :: splitCommas rest
    else
      match splitCommas rest with
      | [] => [[c]]
      | l :: ls => (c :: l) :: ls

/-- The operands of a text: none when one is no register name. -/
def readOperands (t : List Char) : Option (List WReg) :=
  if trimSpaces t = [] then some [] else (splitCommas t).mapM readReg

/-- The command of a row of the opcode map with operands in field order: none when their number is not the row's. -/
def asmBuild (op : Op) (ops : List WReg) : Option Instr :=
  match op, ops with
  | .nop, [] => some .nop
  | .modexp, [rd, rs1, rs2, rs3] => some (.modexp rd rs1 rs2 rs3)
  | .egcd, [rd, rs1, rs2] => some (.egcd rd rs1 rs2)
  | .modinv, [rd, rs1, rs2] => some (.modinv rd rs1 rs2)
  | .keygen, [rs1, rs2, rs3] => some (.keygen rs1 rs2 rs3)
  | .keyload, [rs1, rs2, rs3] => some (.keyload rs1 rs2 rs3)
  | .keyclr, [] => some .keyclr
  | .chunk, [] => some .chunk
  | .unchunk, [rs1] => some (.unchunk rs1)
  | .ldbuf, [rd] => some (.ldbuf rd)
  | .stblk, [rs1] => some (.stblk rs1)
  | .encblk, [] => some .encblk
  | .decblk, [] => some .decblk
  | _, _ => none

/-- A line read as a command: the mnemonic in either case, then the operands, then perhaps a comment; none when it is no
well-formed command (30 R170, R171). -/
def readAsm (line : List Char) : Option Instr :=
  let t := trimSpaces (stripComment line)
  let name := (t.takeWhile (fun c => c != ' ')).map Char.toUpper
  let row := opcodeMap.find? (fun r => mnemonicOf (buildInstr r.op 0 0 0 0) == name)
  match row, readOperands (t.dropWhile (fun c => c != ' ')) with
  | some r, some ops => (asmBuild r.op ops).filter Instr.wf
  | _, _ => none

/-- The character of a hexadecimal digit. DESIGN CHOICE: the letters a to f are in lower case; the spec does not fix the
case of the digits of a word in a comment (30 R170, log entry 16). -/
def hexChar (d : Nat) : Char := if d < 10 then Char.ofNat (48 + d) else Char.ofNat (87 + d)

/-- The eight hexadecimal digits of a word. -/
def hexWord (w : Word) : List Char := (List.range 8).map (fun k => hexChar (w.toNat / 16 ^ (7 - k) % 16))

/-- A command with its encoded word as a comment, `; = 0xhhhhhhhh` (30 R170). -/
def writeAsmLine (i : Instr) : List Char := writeAsm i ++ [' ', ';', ' ', '=', ' ', '0', 'x'] ++ hexWord (encode i)

end Sys2Proof.Machine
end

