-- ==== Sys2Proof/Machine/Driver.lean ====
section
/-!
DEFINITION. The host's operations (30 R172-R176) on the engine and its entropy source, over the bus transactions of
20 R100. Between two host operations nothing else acts but the engine and the source, at the eager schedule of log
entry 15: the source delivers each byte as it is asked for, while it has one, and the engine completes before the next
poll.
-/
namespace Sys2Proof.Machine

/-- The engine as the host drives it, with the bytes its entropy source will deliver, in order. -/
structure Rig where
  engine  : State
  entropy : List Byte
  deriving DecidableEq, Repr

/-- The word a read's answer carries; BUSERR carries 0 (20 R108). -/
def Response.word (r : Response) : Word := r.rdata.getD 0#32

/-- WR addr, value: one 32-bit bus write (30 R172). -/
def Rig.wr (r : Rig) (a : BitVec 12) (v : Word) : Rig := { r with engine := writeStep a 4 v r.engine }

/-- RD addr: one 32-bit bus read (30 R172). -/
def Rig.rd (r : Rig) (a : BitVec 12) : Word × Rig :=
  ((busRead a 4 r.engine).word, { r with engine := readStep a 4 r.engine })

/-- The state after the engine's turn. -/
def afterTurn (s : State) : State :=
  match engineTurn s with
  | .next t => t
  | .fault _ => s
  | .refused _ => s

/-- The engine and its source left to themselves: bytes are delivered while asked for, then the engine has its turn.
When the bytes run out first, the command stays BUSY (20 R121). -/
def settle : List Byte → State → Rig
  | [], s => { engine := afterTurn s, entropy := [] }
  | b :: rest, s =>
    if s.entReq then settle rest (deliver b s) else { engine := afterTurn s, entropy := b :: rest }

/-- POLL: STATUS is read until BUSY is 0 (30 R173). The last read is the one that ends it; in a result with BUSY = 1 the
host polls for ever (70 R630). -/
def Rig.poll (r : Rig) : Rig := ((settle r.entropy r.engine).rd Loc.status.addr).2

/-- ISSUE of a command word: the CMD write, then POLL (30 R173). -/
def Rig.issueWord (r : Rig) (w : Word) : Rig := (r.wr Loc.cmd.addr w).poll

/-- ISSUE of a command (30 R173). -/
def Rig.issue (r : Rig) (i : Instr) : Rig := r.issueWord (encode i)

/-- LOADW wi, V: 32 word writes (30 R174). -/
def Rig.loadW (r : Rig) (i : WReg) (v : Wide) : Rig :=
  (List.finRange 32).foldl (fun r j => r.wr (Loc.w i j).addr (wideWord v j)) r

/-- Reads of the given addresses, in order: the words, and the rig after them. -/
def Rig.rdAll (r : Rig) : List (BitVec 12) → List Word × Rig
  | [] => ([], r)
  | a :: as =>
    let x := r.rd a
    let xs := x.2.rdAll as
    (x.1 :: xs.1, xs.2)

/-- The value of words read most significant first (20 R105). -/
def assemble (ws : List Word) : Nat := ws.foldl (fun acc x => acc * 2 ^ 32 + x.toNat) 0

/-- READW wi -> V: the 32 reads of a wide register's window (30 R174). -/
def Rig.readW (r : Rig) (i : WReg) : Nat × Rig :=
  let x := r.rdAll ((List.finRange 32).map (fun j => (Loc.w i j).addr))
  (assemble x.1, x.2)

/-- The key windows (30 R174). -/
inductive KeyName where
  | kn | ke | kd
  deriving DecidableEq, Repr

/-- Word `j` of a key window (10 R34). -/
def KeyName.loc (k : KeyName) (j : Fin 32) : Loc :=
  match k with
  | .kn => .kn j
  | .ke => .ke j
  | .kd => .kd j

/-- READK key -> V: the 32 reads of a key window (30 R174). -/
def Rig.readK (r : Rig) (k : KeyName) : Nat × Rig :=
  let x := r.rdAll ((List.finRange 32).map (fun j => (k.loc j).addr))
  (assemble x.1, x.2)

/-- `s` padded with zero bytes to a multiple of 4 (30 R175). -/
def padToWords (s : List Byte) : List Byte := s ++ zeroBytes (4 * ((s.length + 3) / 4) - s.length)

/-- Word `j` of a byte string, big-endian (30 R175). -/
def byteWord (t : List Byte) (j : Nat) : Word := BitVec.ofNat 32 (beValue ((t.drop (4 * j)).take 4))

/-- LOADBUF s, for at most 128 bytes: the IBUF words, then IBUF_LEN (30 R175). -/
def Rig.loadBuf (r : Rig) (s : List Byte) : Rig :=
  let t := padToWords s
  ((List.range (t.length / 4)).foldl (fun r j => r.wr (BitVec.ofNat 12 (0x100 + 4 * j)) (byteWord t j)) r).wr
    Loc.ibufLen.addr (BitVec.ofNat 32 s.length)

/-- READBUF -> s: OBUF_LEN, then the OBUF words that hold that many bytes (30 R175). -/
def Rig.readBuf (r : Rig) : List Byte × Rig :=
  let x := r.rd Loc.obufLen.addr
  let n := x.1.toNat
  let y := x.2.rdAll ((List.range ((n + 3) / 4)).map (fun j => BitVec.ofNat 12 (0x180 + 4 * j)))
  ((y.1.flatMap (fun v => beBytes 4 v.toNat)).take n, y.2)

/-- CLRERR: clears DONE and ERRF (30 R176). -/
def Rig.clrErr (r : Rig) : Rig := r.wr Loc.status.addr 0x00000006#32

/-- WAITIRQ: waits until irq = 1, with no bus access (30 R176); none when it waits for ever. -/
def Rig.waitIrq (r : Rig) : Option Rig :=
  if r.engine.irq then some r
  else
    let t := settle r.entropy r.engine
    if t.engine.irq then some t else none

/-- Clears CMDLOST, as the host does when it sees it (70 R622). -/
def Rig.clrLost (r : Rig) : Rig := r.wr Loc.status.addr 0x00000100#32

/-- A soft reset, SRST written 1: the way out of FATAL (70 R605, R624). -/
def Rig.softReset (r : Rig) : Rig := r.wr Loc.ctrl.addr 0x80000000#32

/-! ### How a host procedure ends -/

/-- Why a command was dropped (44 R401, 70 R622). -/
inductive DropCause where
  | fatal | error | busy
  deriving DecidableEq, Repr

/-- The cause of a drop, as the STATUS word read after POLL shows it: FATAL, else ERRF, else BUSY was 1 at the write
(70 R622, log entry 17). -/
def dropCause (x : Word) : DropCause :=
  if x.getLsbD 3 then .fatal else if x.getLsbD 2 then .error else .busy

/-- How a host procedure ends (45 R445, R452, R465; 70 R622). -/
inductive HostEnd where
  | finished
  /-- The command ran and failed: ERR and CMD (45 R445). -/
  | engineError (err : BitVec 8) (cmd : Word)
  /-- The command was not run (70 R622): why, with ERR and CMD, which belong to an earlier command (44 R402). -/
  | dropped (cause : DropCause) (err : BitVec 8) (cmd : Word)
  | ioError
  | formatError
  /-- The host polls a starved engine for ever (70 R630). -/
  | stalled
  deriving DecidableEq, Repr

/-- What became of an issued command, as the host reads STATUS after POLL (70 R622): with CMDLOST = 1 it was not run, and
the host clears CMDLOST; else it failed when ERRF = 1, and succeeded when not. A drop and a failure are reported with ERR
and CMD (45 R431, R445). -/
def Rig.check (r : Rig) : HostEnd × Rig :=
  let x := r.rd Loc.status.addr
  let s := x.1
  if s.getLsbD 0 then (.stalled, x.2)
  else if s.getLsbD 8 then
    let e := x.2.clrLost.rd Loc.err.addr
    let c := e.2.rd Loc.cmd.addr
    (.dropped (dropCause s) (e.1.truncate 8) c.1, c.2)
  else if s.getLsbD 2 then
    let e := x.2.rd Loc.err.addr
    let c := e.2.rd Loc.cmd.addr
    (.engineError (e.1.truncate 8) c.1, c.2)
  else (.finished, x.2)

/-- What the host does before it issues a further command (70 R622, R624): a reset after FATAL, CLRERR after another
error; after a drop because of BUSY nothing, since POLL has waited. PROTOCOL is the fatal code (60 R508). -/
def Rig.recover (r : Rig) : HostEnd → Rig
  | .engineError e _ => if e = ErrCode.protocol.code then r.softReset else r.clrErr
  | .dropped .fatal _ _ => r.softReset
  | .dropped .error _ _ => r.clrErr
  | .dropped .busy _ _ => r
  | .finished | .ioError | .formatError | .stalled => r

/-! ### RSAC's error kinds -/

/-- RSAC's error kinds (45 R461, R465). -/
inductive RsacError where
  | generationError | noInverseError | ioError | formatError | protocolInvariantViolation
  deriving DecidableEq, Repr

/-- The RSAC kind of an engine error, if it has one (45 R461, 60 R501). -/
def ErrCode.rsacKind : ErrCode → Option RsacError
  | .generation => some .generationError
  | .noInverse => some .noInverseError
  | .protocol => some .protocolInvariantViolation
  | .illegal | .noKey | .keyLocked | .empty | .len | .arg => none

/-- How an API call ends for its caller (45 R460, R461, R465): with an RSAC error kind where there is one, else with the
engine's own report. -/
inductive ApiEnd where
  | returned
  | failed (kind : RsacError)
  | engineError (err : BitVec 8) (cmd : Word)
  | dropped (cause : DropCause) (err : BitVec 8) (cmd : Word)
  | stalled
  deriving DecidableEq, Repr

/-- The report of a host procedure's end to the caller of the API: an error code with an RSAC kind becomes that kind, and
the others stay engine errors with their code (45 R460, R461, R465). -/
def HostEnd.report : HostEnd → ApiEnd
  | .finished => .returned
  | .engineError e c =>
    match (ErrCode.ofCode e).bind ErrCode.rsacKind with
    | some k => .failed k
    | none => .engineError e c
  | .dropped d e c => .dropped d e c
  | .ioError => .failed .ioError
  | .formatError => .failed .formatError
  | .stalled => .stalled

end Sys2Proof.Machine
end

