-- ==== Sys2Proof/Machine/Streams.lean ====
section
/-!
DEFINITION. The host's stream procedures: encrypt (45 R431) and decrypt (45 R440) over a byte source and an appending
destination (45 R430), with their error propagation (45 R445, R465).
-/
namespace Sys2Proof.Machine

/-- A source: the bytes left, and whether what follows them is the end or a failure of the stream (45 R430, log
entry 14). -/
structure Source where
  bytes  : List Byte
  broken : Bool
  deriving DecidableEq, Repr

/-- A destination: the bytes appended so far, and how many more it takes before it fails, if it ever does (45 R430, log
entry 14). -/
structure Sink where
  bytes : List Byte
  room  : Option Nat
  deriving DecidableEq, Repr

/-- peek: whether a byte remains; none for IOError (45 R430). -/
def Source.peek (src : Source) : Option Bool :=
  if src.bytes = [] then (if src.broken then none else some false) else some true

/-- read(src, n): the next min(n, remaining) bytes; none for IOError, when the stream fails before it has them
(45 R430). -/
def Source.read (src : Source) (n : Nat) : Option (List Byte × Source) :=
  if src.bytes.length < n ∧ src.broken then none
  else some (src.bytes.take n, { src with bytes := src.bytes.drop n })

/-- Appending; none for IOError (45 R430). -/
def Sink.append (dst : Sink) (b : List Byte) : Option Sink :=
  match dst.room with
  | none => some { dst with bytes := dst.bytes ++ b }
  | some m => if m < b.length then none else some { bytes := dst.bytes ++ b, room := some (m - b.length) }

/-- What a stream procedure leaves: the rig, the destination, and how it ended. No rollback (45 R441, R445). -/
structure StreamResult where
  rig : Rig
  dst : Sink
  how : HostEnd
  deriving DecidableEq, Repr

/-- One turn of a stream loop after its read: LOADBUF, ISSUE, the check, READBUF, append (45 R431, R440). -/
def streamBlock (i : Instr) (s : List Byte) (dst : Sink) (r : Rig) : StreamResult :=
  let x := ((r.loadBuf s).issue i).check
  match x.1 with
  | .finished =>
    let y := x.2.readBuf
    match dst.append y.1 with
    | none => { rig := y.2, dst := dst, how := .ioError }
    | some dst' => { rig := y.2, dst := dst', how := .finished }
  | .engineError e c => { rig := x.2, dst := dst, how := .engineError e c }
  | .dropped d e c => { rig := x.2, dst := dst, how := .dropped d e c }
  | .ioError => { rig := x.2, dst := dst, how := .ioError }
  | .formatError => { rig := x.2, dst := dst, how := .formatError }
  | .stalled => { rig := x.2, dst := dst, how := .stalled }

/-- The loop of both stream procedures: peek, read up to `n` bytes, one command `i` for them (45 R431, R440). Every turn
consumes a byte, so fuel of one more than the source's length never runs out. -/
def streamLoop (n : Nat) (i : Instr) : Nat → Source → Sink → Rig → StreamResult
  | 0, _, dst, r => { rig := r, dst := dst, how := .finished }
  | fuel + 1, src, dst, r =>
    match src.peek with
    | none => { rig := r, dst := dst, how := .ioError }
    | some false => { rig := r, dst := dst, how := .finished }
    | some true =>
      match src.read n with
      | none => { rig := r, dst := dst, how := .ioError }
      | some (s, rest) =>
        let x := streamBlock i s dst r
        if x.how = .finished then streamLoop n i fuel rest x.dst x.rig else x

/-- encrypt(src, dst), with a key held (45 R431). -/
def encryptStream (src : Source) (dst : Sink) (r : Rig) : StreamResult :=
  streamLoop Config.dataMax .encblk (src.bytes.length + 1) src dst r

/-- decrypt(src, dst), with a key held (45 R440). -/
def decryptStream (src : Source) (dst : Sink) (r : Rig) : StreamResult :=
  streamLoop Config.blockBytes .decblk (src.bytes.length + 1) src dst r

/-- The chunk lengths of a source of `n` bytes (45 R432, 42 R303). -/
def chunkLengths (n : Nat) : List Nat :=
  List.replicate (n / Config.dataMax) Config.dataMax ++
    (if n % Config.dataMax = 0 then [] else [n % Config.dataMax])

end Sys2Proof.Machine
end

