-- ==== Sys2Proof/Machine/KeyStore.lean ====
section
/-!
DEFINITION. The key file (45 R450-R456) and the API (45 R460), as host procedures.
-/
namespace Sys2Proof.Machine

/-! ### The text format -/

/-- The newline byte (45 R450). -/
def newline : Byte := 0x0A#8

/-- The ASCII digit of a number below 10 (45 R450). -/
def digitByte (d : Nat) : Byte := BitVec.ofNat 8 (0x30 + d)

/-- Whether a byte is an ASCII digit (45 R451). -/
def isDigit (b : Byte) : Bool := decide (0x30 ≤ b.toNat) && decide (b.toNat ≤ 0x39)

/-- The decimal digits of `v` before `acc`; `fuel` bounds their number. -/
def decDigits : (fuel v : Nat) → List Byte → List Byte
  | 0, _, acc => acc
  | fuel + 1, v, acc =>
    if v < 10 then digitByte v :: acc else decDigits fuel (v / 10) (digitByte (v % 10) :: acc)

/-- dec(v): decimal, no sign, no leading zeros, "0" for 0 (45 R450). -/
def decBytes (v : Nat) : List Byte := decDigits (v + 1) v []

/-- serialize: three lines, each ended by a newline (45 R450). -/
def serialize (n e d : Nat) : List Byte :=
  decBytes n ++ [newline] ++ decBytes e ++ [newline] ++ decBytes d ++ [newline]

/-- The text split at every newline (45 R451). -/
def splitLines : List Byte → List (List Byte)
  | [] => [[]]
  | b :: rest =>
    if b = newline then [] :: splitLines rest
    else
      match splitLines rest with
      | [] => [[b]]
      | l :: ls => (b :: l) :: ls

/-- The number of a field, one or more digits and nothing else, leading zeros accepted, below 2^1024 (45 R451, R452,
R455); none for FormatError. -/
def parseField (f : List Byte) : Option Nat :=
  if f = [] then none
  else if f.all isDigit then
    let v := f.foldl (fun acc b => acc * 10 + (b.toNat - 0x30)) 0
    if v < 2 ^ 1024 then some v else none
  else none

/-- deserialize: the first three fields as n, e, d, what follows ignored (45 R451); none for FormatError (45 R452). -/
def deserialize (text : List Byte) : Option (Nat × Nat × Nat) :=
  match splitLines text with
  | f1 :: f2 :: f3 :: _ =>
    match parseField f1, parseField f2, parseField f3 with
    | some n, some e, some d => some (n, e, d)
    | _, _, _ => none
  | _ => none

/-! ### Installing and saving a key -/

/-- What an API call leaves: the rig, and how it ended for the caller. -/
structure ApiResult where
  rig : Rig
  how : ApiEnd
  deriving DecidableEq, Repr

/-- What an API call on a destination leaves; `dst` is none for a destination that could not be opened. -/
structure CipherResult where
  rig : Rig
  dst : Option Sink
  how : ApiEnd
  deriving DecidableEq, Repr

/-- The end of a host procedure as the API returns it. -/
def ApiResult.ofEnd (x : HostEnd × Rig) : ApiResult := { rig := x.2, how := x.1.report }

/-- The end of a stream procedure as the API returns it. -/
def StreamResult.toApi (x : StreamResult) : CipherResult := { rig := x.rig, dst := some x.dst, how := x.how.report }

/-- A command issued and checked (30 R173, 70 R622). -/
def Rig.run (r : Rig) (i : Instr) : HostEnd × Rig := (r.issue i).check

/-- `if STATUS.KEY_VALID = 1: ISSUE KEYCLR` (45 R454, R460), checked after POLL as every command is (70 R622). -/
def Rig.releaseKey (r : Rig) : HostEnd × Rig :=
  let x := r.rd Loc.status.addr
  if x.1.getLsbD 4 then x.2.run .keyclr else (.finished, x.2)

/-- The held key released, then LOADW w0, w1, w2 and a key command over them (45 R454, R460); a KEYCLR that was not run
stops it (45 R445). -/
def Rig.installKey (r : Rig) (i : Instr) (a b c : Wide) : HostEnd × Rig :=
  let x := r.releaseKey
  if x.1 = .finished then (((x.2.loadW 0 a).loadW 1 b).loadW 2 c).run i else x

/-- newCipher, from the prime source's p, q, e: a GENERATION failure returns GenerationError and is not retried
(45 R460). -/
def newCipher (p q e : Wide) (r : Rig) : ApiResult := .ofEnd (r.installKey (.keygen 0 1 2) p q e)

/-- loadCipher: the file's bytes, none when it cannot be read (IOError); FormatError leaves the engine untouched
(45 R453, R454, R460). -/
def loadCipher (file : Option (List Byte)) (r : Rig) : ApiResult :=
  match file with
  | none => .ofEnd (.ioError, r)
  | some text =>
    match deserialize text with
    | none => .ofEnd (.formatError, r)
    | some (n, e, d) => .ofEnd (r.installKey (.keyload 0 1 2) (toWide n) (toWide e) (toWide d))

/-- save: the three key windows read and serialized, then the file written; IOError when it cannot be opened or does not
take the text (45 R450, R460). DESIGN CHOICE (log entry 18): the spec says only that the file is written; the text is
appended to the bytes the file holds when the host has opened it, and IOError leaves the file as it was. -/
def saveCipher (file : Option Sink) (r : Rig) : CipherResult :=
  let n := r.readK .kn
  let e := n.2.readK .ke
  let d := e.2.readK .kd
  match file.bind (·.append (serialize n.1 e.1 d.1)) with
  | none => { rig := d.2, dst := file, how := HostEnd.ioError.report }
  | some f => { rig := d.2, dst := some f, how := HostEnd.finished.report }

/-- Discarding a Cipher: KEYCLR (45 R460). -/
def discardCipher (r : Rig) : ApiResult := .ofEnd (r.run .keyclr)

/-- A stream procedure on paths: a source or a destination that cannot be opened is IOError, and the engine is left as it
was (45 R460, R465). DESIGN CHOICE (log entry 18): the spec does not say what the destination is then; it is left as it
was, an opened one with its bytes when only the source fails, none when it could not be opened itself. -/
def onPaths (proc : Source → Sink → Rig → StreamResult) (src : Option Source) (dst : Option Sink) (r : Rig) :
    CipherResult :=
  match src, dst with
  | some a, some b => (proc a b r).toApi
  | _, _ => { rig := r, dst := dst, how := HostEnd.ioError.report }

/-- cipher.encrypt on paths (45 R431, R460). -/
def cipherEncrypt (src : Option Source) (dst : Option Sink) (r : Rig) : CipherResult := onPaths encryptStream src dst r

/-- cipher.decrypt on paths (45 R440, R460). -/
def cipherDecrypt (src : Option Source) (dst : Option Sink) (r : Rig) : CipherResult := onPaths decryptStream src dst r

end Sys2Proof.Machine
end

