-- ==== Sys2Proof/Safety.lean ====
section
/-!
DEFINITION. What a legal state is, as every run from reset keeps it: the relations between the fields of State; what each
command may write (10 R33, R38, R42, R51); and the state a failing command leaves (60 R502).
-/
namespace Sys2Proof.Machine

/-! ### Legal states -/

/-- A command context is present exactly when BUSY = 1 (10 R57), and a running command was accepted with ERRF = 0 and
DONE cleared (44 R400). -/
abbrev State.ctxLegal (s : State) : Prop :=
  s.ctx.isSome = s.status.busy ∧ (s.status.busy = true → s.status.errf = false ∧ s.status.done = false)

/-- ERR holds a code of 60 R501, 0x00 exactly while ERRF is 0 (10 R52), and PROTOCOL has never occurred, so FATAL is 0
(60 R508). -/
abbrev State.errLegal (s : State) : Prop :=
  s.err.toNat ≤ 8 ∧ (s.status.errf = false ↔ s.err = 0#8) ∧ s.status.fatal = false

/-- OBUF_LEN is at most 128, and the bytes of OBUF at or above it are 0 (10 R43). -/
abbrev State.obufLegal (s : State) : Prop :=
  s.obufLen.toNat ≤ 128 ∧ ∀ j : Fin 128, s.obufLen.toNat ≤ j.val → s.obuf[j.val] = 0#8

/-- With KEY_VALID = 0 the key registers are 0 (10 R37, R38; 41 R270; 70 R600). -/
abbrev State.keyLegal (s : State) : Prop :=
  s.status.keyValid = false → s.kn = 0#1024 ∧ s.ke = 0#1024 ∧ s.kd = 0#1024

/-- The invariant of the machine. -/
abbrev State.Inv (s : State) : Prop := s.ctxLegal ∧ s.errLegal ∧ s.obufLegal ∧ s.keyLegal

/-- Every byte drawn so far was asked for: before each of them ent_req was 1 (20 R120). -/
abbrev State.drawsAskedFor (s : State) : Prop :=
  ∀ c, s.ctx = some c → ∀ n < c.drawn.length,
    State.entReq { s with ctx := some { padz := c.padz, drawn := c.drawn.take n } } = true

/-- The next step is the engine's turn: it stands first among the pending events, or none is pending (log entry 2);
`rest` are the events after it. -/
abbrev State.engineNext (s : State) (rest : List Input) : Prop :=
  (s.inputs = [] ∧ rest = []) ∨ s.inputs = .engine :: rest

/-! ### What a command may write -/

/-- The wide registers a command may write (10 R33). -/
def wDests : Instr → List WReg
  | .modexp rd _ _ _ => [rd]
  | .egcd rd _ _ => [rd, rd + 1, rd + 2]
  | .modinv rd _ _ => [rd]
  | .ldbuf rd => [rd]
  | .nop | .keygen _ _ _ | .keyload _ _ _ | .keyclr | .chunk | .unchunk _ | .stblk _ | .encblk | .decblk => []

/-- Whether a command may write KN, KE, KD and KEY_VALID (10 R37, R38). -/
def writesKeys : Instr → Bool
  | .keygen _ _ _ | .keyload _ _ _ | .keyclr => true
  | .nop | .modexp _ _ _ _ | .egcd _ _ _ | .modinv _ _ _ | .chunk | .unchunk _ | .ldbuf _ | .stblk _ | .encblk
  | .decblk => false

/-- Whether a command may write OBUF and OBUF_LEN (10 R42). -/
def writesObuf : Instr → Bool
  | .chunk | .unchunk _ | .stblk _ | .encblk | .decblk => true
  | .nop | .modexp _ _ _ _ | .egcd _ _ _ | .modinv _ _ _ | .keygen _ _ _ | .keyload _ _ _ | .keyclr | .ldbuf _ => false

/-- Whether a command may write XNEG and YNEG (10 R51). -/
def writesSigns : Instr → Bool
  | .egcd _ _ _ => true
  | .nop | .modexp _ _ _ _ | .modinv _ _ _ | .keygen _ _ _ | .keyload _ _ _ | .keyclr | .chunk | .unchunk _ | .ldbuf _
  | .stblk _ | .encblk | .decblk => false

/-- Whether a command may write DSHORT (10 R51). -/
def writesShort : Instr → Bool
  | .unchunk _ | .decblk => true
  | .nop | .modexp _ _ _ _ | .egcd _ _ _ | .modinv _ _ _ | .keygen _ _ _ | .keyload _ _ _ | .keyclr | .chunk | .ldbuf _
  | .stblk _ | .encblk => false

/-! ### Failures -/

/-- What a command that fails with a non-fatal code leaves: ERR, ERRF, DONE set, BUSY cleared, and nothing else
(60 R502). -/
def State.failedWith (s : State) (code : BitVec 8) : State :=
  { s with
    err := code
    status := { s.status with busy := false, done := true, errf := true }
    ctx := none }

end Sys2Proof.Machine
end

