-- ==== Sys2Proof/Certificates/Slice0/Obligations.lean ====
section
/-!
DEFINITION. The statements for the provers, from the numbered rules of spec/.
-/
open Sys2Proof Sys2Proof.Machine

/-! ### Encoding -/

/-- Decoding the word of a well-formed command gives the command back, every operand included (30 R155, R158, R171). -/
def Obligations.DecodeOfEncodeIsTheCommand : Prop :=
  ∀ i : Instr, i.wf = true → decodeWord (encode i) = .command i

/-- A word that decodes to a command is that command's own word, and the command is well formed: no word is a second
spelling of a command (30 R155-R158). -/
def Obligations.DecodedWordIsItsEncoding : Prop :=
  ∀ (w : Word) (i : Instr), decodeWord w = .command i → i.wf = true ∧ encode i = w

/-- 30 R156, with the used fields of 30 R153 (opcode; rd, rs1, rs2, rs3 used): a nonzero unused field or a nonzero
bits 7:0 makes the word illegal, though its opcode is defined. -/
def Obligations.NonzeroUnusedFieldIsIllegal : Prop :=
  ∀ row ∈ [(0x00#8, false, false, false, false), (0x01#8, true, true, true, true), (0x02#8, true, true, true, false),
      (0x03#8, true, true, true, false), (0x04#8, false, true, true, true), (0x05#8, false, true, true, true),
      (0x06#8, false, false, false, false), (0x10#8, false, false, false, false), (0x11#8, false, true, false, false),
      (0x12#8, true, false, false, false), (0x13#8, false, true, false, false), (0x20#8, false, false, false, false),
      (0x21#8, false, false, false, false)],
    ∀ w : Word, opcodeField w = row.1 →
      w.extractLsb' 0 8 ≠ 0#8 ∨ (row.2.1 = false ∧ rdField w ≠ 0) ∨ (row.2.2.1 = false ∧ rs1Field w ≠ 0) ∨
        (row.2.2.2.1 = false ∧ rs2Field w ≠ 0) ∨ (row.2.2.2.2 = false ∧ rs3Field w ≠ 0) →
      decodeWord w = .illegal .nonzeroUnused

/-- 30 R157: every word whose opcode is in 0x07-0x0F, 0x14-0x1F or 0x22-0xFF is illegal, and the only word that decodes
to NOP is 0x00000000. -/
def Obligations.ReservedOpcodeIsIllegal : Prop :=
  (∀ w : Word,
    (0x07 ≤ (opcodeField w).toNat ∧ (opcodeField w).toNat ≤ 0x0F) ∨
      (0x14 ≤ (opcodeField w).toNat ∧ (opcodeField w).toNat ≤ 0x1F) ∨ 0x22 ≤ (opcodeField w).toNat →
    decodeWord w = .illegal .reservedOpcode) ∧
  ∀ w : Word, decodeWord w = .command .nop → w = 0x00000000#32

/-- Words written out from the encodings of 30 R155 and R171 decode to their commands; EGCD with rd = 14 is illegal. -/
def Obligations.WrittenOutWordsDecode : Prop :=
  decodeWord 0x01301200#32 = .command (.modexp 3 0 1 2) ∧
  decodeWord 0x02401000#32 = .command (.egcd 4 0 1) ∧
  decodeWord 0x05001200#32 = .command (.keyload 0 1 2) ∧
  decodeWord 0x12500000#32 = .command (.ldbuf 5) ∧
  decodeWord 0x21000000#32 = .command .decblk ∧
  decodeWord 0x02E01000#32 = .illegal .egcdDestination

/-- The assembler form of a well-formed command reads back as the command (30 R170, R171; spacing is the model's, log
entry 16). -/
def Obligations.AssemblerFormReadsBack : Prop :=
  ∀ i : Instr, i.wf = true → readAsm (writeAsm i) = some i

/-! ### The steps of the machine -/

/-- When the engine has its turn, BUSY = 1 and CMD decodes to a command, the step is that command's completion, with the
turn taken off the pending events (44 R403; the schedule is the model's, log entries 1 and 2). -/
def Obligations.StepRunsTheDecodedCommand : Prop :=
  ∀ (s : State) (rest : List Input) (i : Instr), s.engineNext rest → s.status.busy = true →
    decodeWord s.cmd = .command i → step s = exec i { s with inputs := rest }

/-- An accepted illegal word completes with ILLEGAL and no other effect (30 R158, 60 R502); the schedule is the model's
(log entries 1 and 2). -/
def Obligations.StepFailsAnIllegalWord : Prop :=
  ∀ (s : State) (rest : List Input) (why : Illegal), s.engineNext rest → s.status.busy = true →
    decodeWord s.cmd = .illegal why → step s = .next (State.failedWith { s with inputs := rest } 0x01#8)

/-- Every step from every state answers a next state: no word, operand, bus access, delivery or reset stops the machine.
That nothing stops it is the model's inference from 30 R158, 20 R108 and 44 R420 (log entry 10, DEDUCED), and that the
turn of an idle or starved engine answers a next state is the model's choice (log entry 2, DESIGN CHOICE). -/
def Obligations.EveryStepHasANextState : Prop :=
  (∀ (i : Instr) (s : State), ∃ t, exec i s = .next t) ∧ ∀ s : State, ∃ t, step s = .next t

/-- 44 R400: a CMD write with BUSY = ERRF = FATAL = 0 is accepted: CMD, BUSY, DONE and the context change, PADZ is
latched, and nothing else changes but the bus answer OK; any word is accepted. -/
def Obligations.CommandAcceptance : Prop :=
  ∀ (s : State) (w : Word) (rest : List Input), s.inputs = .write 0x010#12 4 w :: rest →
    s.status.busy = false → s.status.errf = false → s.status.fatal = false →
    step s = .next { s with
      inputs := rest
      resp := some { err := false, rdata := none }
      cmd := w
      status := { s.status with busy := true, done := false }
      ctx := some { padz := s.ctrl.padz, drawn := [] } }

/-- 44 R401: a CMD write while BUSY, ERRF or FATAL is 1 is dropped: CMDLOST is its only effect, and the transaction
answers OK. -/
def Obligations.CommandDropped : Prop :=
  ∀ (s : State) (w : Word) (rest : List Input), s.inputs = .write 0x010#12 4 w :: rest →
    s.status.busy = true ∨ s.status.errf = true ∨ s.status.fatal = true →
    step s = .next { s with
      inputs := rest
      resp := some { err := false, rdata := none }
      status := { s.status with cmdLost := true } }

/-- 44 R403, R406: while BUSY = 1 the engine's turn completes the command when no byte is asked for (BUSY 0, DONE 1, no
context). That a turn while a byte is asked for changes nothing but the pending events, and that with no event pending the
step is the engine's turn, are the model's choices (log entry 2, DESIGN CHOICE). -/
def Obligations.EngineTurnCompletesWhenNoByteIsAwaited : Prop :=
  ∀ (s : State) (rest : List Input), s.engineNext rest → s.status.busy = true →
    (s.entReq = false →
      ∃ t, step s = .next t ∧ t.status.busy = false ∧ t.status.done = true ∧ t.ctx = none ∧ t.cmd = s.cmd) ∧
    (s.entReq = true → step s = .next { s with inputs := rest })

/-- 20 R120, 44 R405: an offered byte is appended to the drawn bytes of the running command exactly when ent_req is 1;
with ent_req = 0 nothing is taken (the model's reading, log entry 3). -/
def Obligations.EntropyDelivery : Prop :=
  ∀ (s : State) (b : Byte) (c : Ctx) (rest : List Input), s.inputs = .entropy b :: rest → s.ctx = some c →
    (s.entReq = true →
      step s = .next { s with inputs := rest, ctx := some { padz := c.padz, drawn := c.drawn ++ [b] } }) ∧
    (s.entReq = false → step s = .next { s with inputs := rest })

/-- 44 R405: which commands ask for a byte, and until when. CHUNK and ENCBLK need 126 - k filler bytes; STBLK and ENCBLK
with PADZ = 0 then need 128 - L(c) pad bytes; a command whose checks fail, and every other command, asks for none. -/
def Obligations.BytesACommandAsksFor : Prop :=
  ∀ (s : State) (c : Ctx) (i : Instr), s.status.busy = true → s.ctx = some c → decodeWord s.cmd = .command i →
    (i = .chunk → 1 ≤ s.ibufLen.toNat → s.ibufLen.toNat ≤ 126 →
      (s.entReq = true ↔ c.drawn.length < 126 - s.ibufLen.toNat)) ∧
    (i = .chunk → s.ibufLen.toNat = 0 ∨ 126 < s.ibufLen.toNat → s.entReq = false) ∧
    (∀ rs1, i = .stblk rs1 →
      (s.entReq = true ↔ c.padz = false ∧ c.drawn.length < 128 - naturalLength (s.regValue rs1))) ∧
    (i = .encblk → s.status.keyValid = true → 1 ≤ s.ibufLen.toNat → s.ibufLen.toNat ≤ 126 → s.kn ≠ 0#1024 →
      (s.entReq = true ↔
        c.drawn.length < 126 - s.ibufLen.toNat ∨
        (c.padz = false ∧ c.drawn.length - (126 - s.ibufLen.toNat) < 128 - naturalLength
          (beValue (BitVec.ofNat 8 s.ibufLen.toNat :: (s.ibuf.toList.take s.ibufLen.toNat ++
            c.drawn.take (126 - s.ibufLen.toNat))) ^ s.ke.toNat % s.kn.toNat)))) ∧
    (i = .encblk → s.status.keyValid = false ∨ s.ibufLen.toNat = 0 ∨ 126 < s.ibufLen.toNat ∨ s.kn = 0#1024 →
      s.entReq = false) ∧
    (i ≠ .chunk → i ≠ .encblk → (∀ rs1, i ≠ .stblk rs1) → s.entReq = false)

/-! ### Reset -/

/-- 70 R600: the reset step, from any state, leaves every element of the state at the table's value, ID and PARAM at
their constants, and irq and ent_req at 0. -/
def Obligations.HardResetLeavesTheResetValues : Prop :=
  ∀ (s : State) (rest : List Input), s.inputs = .hardReset :: rest →
    ∃ t, step s = .next t ∧ (∀ i, t.regValue i = 0) ∧ t.kn = 0#1024 ∧ t.ke = 0#1024 ∧ t.kd = 0#1024 ∧
      (∀ j : Fin 128, t.ibuf[j.val] = 0#8 ∧ t.obuf[j.val] = 0#8) ∧ t.ibufLen = 0#8 ∧ t.obufLen = 0#8 ∧
      readLoc t .ctrl = 0#32 ∧ readLoc t .status = 0#32 ∧ t.err = 0#8 ∧ t.cmd = 0#32 ∧ t.ctx = none ∧
      readLoc t .id = 0x52434501#32 ∧ readLoc t .param = 0x00100400#32 ∧ t.irq = false ∧ t.entReq = false

/-- 10 R48, 70 R605: a CTRL write, in any state, is answered OK. With bit 31 = 1 it is the reset step of a hard reset, its
other bits discarded; with bit 31 = 0 it stores IE_DONE, IE_ERR and PADZ from bits 0, 1, 2 and changes nothing else, so
the PADZ a running command latched stays. That a reset keeps the events to come is the model's choice (log entry 1, DESIGN
CHOICE). -/
def Obligations.ControlWriteResetsOrStores : Prop :=
  ∀ (s : State) (v : Word) (rest : List Input), s.inputs = .write 0x004#12 4 v :: rest →
    (v.getLsbD 31 = true →
      step s = .next { State.reset with inputs := rest, resp := some { err := false, rdata := none } }) ∧
    (v.getLsbD 31 = false →
      step s = .next { s with
        inputs := rest
        resp := some { err := false, rdata := none }
        ctrl := { ieDone := v.getLsbD 0, ieErr := v.getLsbD 1, padz := v.getLsbD 2 } })

/-! ### Modular arithmetic -/

/-- 40 R200, R201: MODEXP with a nonzero modulus writes base^exponent mod modulus, in [0, modulus), to W[rd], changes
nothing else but the completion flags, and with a zero modulus fails with ARG. -/
def Obligations.ModexpMeaning : Prop :=
  ∀ (rd rs1 rs2 rs3 : WReg) (s : State),
    (s.regValue rs3 ≠ 0 → ∃ t, exec (.modexp rd rs1 rs2 rs3) s = .next t ∧
      t.regValue rd = s.regValue rs1 ^ s.regValue rs2 % s.regValue rs3 ∧ t.regValue rd < s.regValue rs3 ∧
      (∀ j, j ≠ rd → t.getW j = s.getW j) ∧
      t = { s with w := t.w, status := { s.status with busy := false, done := true }, ctx := none }) ∧
    (s.regValue rs3 = 0 → exec (.modexp rd rs1 rs2 rs3) s = .next (s.failedWith 0x06#8))

/-- 40 R210, R211: egcd satisfies the recursion with its base case, the first argument strictly decreases, the first
result is the gcd, the Bézout identity holds, and the coefficients are bounded. -/
def Obligations.EgcdRecursionIdentityAndBounds : Prop :=
  ∀ a b : Nat,
    (a = 0 → egcd a b = (b, 0, 1)) ∧
    (a ≠ 0 → b % a < a ∧
      egcd a b = ((egcd (b % a) a).1, (egcd (b % a) a).2.2 - ((b / a : Nat) : Int) * (egcd (b % a) a).2.1,
        (egcd (b % a) a).2.1)) ∧
    (a : Int) * (egcd a b).2.1 + (b : Int) * (egcd a b).2.2 = ((egcd a b).1 : Int) ∧
    (egcd a b).1 = Nat.gcd a b ∧
    (1 ≤ (egcd a b).1 →
      (egcd a b).2.1.natAbs ≤ max (b / (egcd a b).1) 1 ∧ (egcd a b).2.2.natAbs ≤ max (a / (egcd a b).1) 1) ∧
    (a = 0 → b = 0 → (egcd a b).2 = (0, 1)) ∧
    (a < 2 ^ 1024 → b < 2 ^ 1024 → (egcd a b).2.1.natAbs < 2 ^ 1024 ∧ (egcd a b).2.2.natAbs < 2 ^ 1024)

/-- 40 R212, R213: EGCD writes g and the magnitudes of x and y, exactly, to W[rd], W[rd+1], W[rd+2] and their signs to
XNEG and YNEG (0 for a zero coefficient), and changes nothing else but the completion flags. -/
def Obligations.EgcdMeaning : Prop :=
  ∀ (rd rs1 rs2 : WReg) (s : State), rd ≤ 13 →
    ∃ t, exec (.egcd rd rs1 rs2) s = .next t ∧
      t.regValue rd = (egcd (s.regValue rs1) (s.regValue rs2)).1 ∧
      t.regValue (rd + 1) = (egcd (s.regValue rs1) (s.regValue rs2)).2.1.natAbs ∧
      t.regValue (rd + 2) = (egcd (s.regValue rs1) (s.regValue rs2)).2.2.natAbs ∧
      (∀ j, j ≠ rd → j ≠ rd + 1 → j ≠ rd + 2 → t.getW j = s.getW j) ∧
      t = { s with
        w := t.w
        status := { s.status with
          busy := false
          done := true
          xneg := decide ((egcd (s.regValue rs1) (s.regValue rs2)).2.1 < 0)
          yneg := decide ((egcd (s.regValue rs1) (s.regValue rs2)).2.2 < 0) }
        ctx := none }

/-- 40 R220, R221: MODINV with m ≥ 1 and gcd 1 writes x mod m, the inverse in [0, m), to W[rd] and changes nothing else
but the completion flags; with gcd not 1 it fails with NO_INVERSE, and with m = 0 with ARG. -/
def Obligations.ModinvMeaning : Prop :=
  ∀ (rd rs1 rs2 : WReg) (s : State),
    (s.regValue rs2 ≠ 0 → Nat.gcd (s.regValue rs1) (s.regValue rs2) = 1 →
      ∃ t, exec (.modinv rd rs1 rs2) s = .next t ∧
        (t.regValue rd : Int) = (egcd (s.regValue rs1) (s.regValue rs2)).2.1 % (s.regValue rs2 : Int) ∧
        t.regValue rd < s.regValue rs2 ∧
        s.regValue rs1 * t.regValue rd % s.regValue rs2 = 1 % s.regValue rs2 ∧
        (∀ j, j ≠ rd → t.getW j = s.getW j) ∧
        t = { s with w := t.w, status := { s.status with busy := false, done := true }, ctx := none }) ∧
    (s.regValue rs2 ≠ 0 → Nat.gcd (s.regValue rs1) (s.regValue rs2) ≠ 1 →
      exec (.modinv rd rs1 rs2) s = .next (s.failedWith 0x07#8)) ∧
    (s.regValue rs2 = 0 → exec (.modinv rd rs1 rs2) s = .next (s.failedWith 0x06#8))

/-! ### Keys -/

/-- 41 R250, R253, R256: KEYGEN on admissible p, q and an e coprime to t = (p-1)(q-1), with no key held, installs
KN = p q, KE = e and the KD < t with KE KD ≡ 1 mod t, sets KEY_VALID, and changes nothing else but the completion
flags. -/
def Obligations.KeygenInstallsTheTriple : Prop :=
  ∀ (rs1 rs2 rs3 : WReg) (s : State), s.status.keyValid = false → 2 ≤ s.regValue rs1 → 2 ≤ s.regValue rs2 →
    s.regValue rs1 * s.regValue rs2 < 2 ^ 1024 →
    Nat.gcd (s.regValue rs3) ((s.regValue rs1 - 1) * (s.regValue rs2 - 1)) = 1 →
    ∃ t, exec (.keygen rs1 rs2 rs3) s = .next t ∧
      t.kn.toNat = s.regValue rs1 * s.regValue rs2 ∧ t.ke = s.getW rs3 ∧
      modInverse (s.regValue rs3) ((s.regValue rs1 - 1) * (s.regValue rs2 - 1)) = some t.kd.toNat ∧
      t.kd.toNat < (s.regValue rs1 - 1) * (s.regValue rs2 - 1) ∧
      t.ke.toNat * t.kd.toNat % ((s.regValue rs1 - 1) * (s.regValue rs2 - 1)) =
        1 % ((s.regValue rs1 - 1) * (s.regValue rs2 - 1)) ∧
      t = { s with
        kn := t.kn
        ke := t.ke
        kd := t.kd
        status := { s.status with busy := false, done := true, keyValid := true }
        ctx := none }

/-- 41 R256: after a successful KEYGEN from distinct primes, (m^KE)^KD ≡ m mod KN for every m < KN. -/
def Obligations.RsaIdentityAfterKeygen : Prop :=
  ∀ (rs1 rs2 rs3 : WReg) (s t : State), s.status.keyValid = false → (s.regValue rs1).Prime → (s.regValue rs2).Prime →
    s.regValue rs1 ≠ s.regValue rs2 → exec (.keygen rs1 rs2 rs3) s = .next t → t.status.keyValid = true →
    ∀ m : Nat, m < t.kn.toNat → (m ^ t.ke.toNat) ^ t.kd.toNat % t.kn.toNat = m

/-- 41 R251, R252, R254: KEYGEN's failures in their priority: KEY_LOCKED while a key is held, then ARG for a prime
below 2 or a product of 2^1024 or more, then GENERATION when e is not coprime to (p-1)(q-1). -/
def Obligations.KeygenFailures : Prop :=
  ∀ (rs1 rs2 rs3 : WReg) (s : State),
    (s.status.keyValid = true → exec (.keygen rs1 rs2 rs3) s = .next (s.failedWith 0x03#8)) ∧
    (s.status.keyValid = false →
      s.regValue rs1 < 2 ∨ s.regValue rs2 < 2 ∨ 2 ^ 1024 ≤ s.regValue rs1 * s.regValue rs2 →
      exec (.keygen rs1 rs2 rs3) s = .next (s.failedWith 0x06#8)) ∧
    (s.status.keyValid = false → 2 ≤ s.regValue rs1 → 2 ≤ s.regValue rs2 →
      s.regValue rs1 * s.regValue rs2 < 2 ^ 1024 →
      Nat.gcd (s.regValue rs3) ((s.regValue rs1 - 1) * (s.regValue rs2 - 1)) ≠ 1 →
      exec (.keygen rs1 rs2 rs3) s = .next (s.failedWith 0x08#8))

/-- 41 R260, R261: KEYLOAD with no key held installs the three values as given, whatever they are; with a key held it
fails with KEY_LOCKED. -/
def Obligations.KeyloadMeaning : Prop :=
  ∀ (rs1 rs2 rs3 : WReg) (s : State),
    (s.status.keyValid = false → exec (.keyload rs1 rs2 rs3) s = .next { s with
      kn := s.getW rs1
      ke := s.getW rs2
      kd := s.getW rs3
      status := { s.status with busy := false, done := true, keyValid := true }
      ctx := none }) ∧
    (s.status.keyValid = true → exec (.keyload rs1 rs2 rs3) s = .next (s.failedWith 0x03#8))

/-- 41 R270, 44 R410: KEYCLR zeroes the triple and KEY_VALID, whether or not a key is held; NOP changes nothing; beside
the completion flags. -/
def Obligations.KeyclrAndNopMeaning : Prop :=
  ∀ s : State,
    exec .keyclr s = .next { s with
      kn := 0#1024
      ke := 0#1024
      kd := 0#1024
      status := { s.status with busy := false, done := true, keyValid := false }
      ctx := none } ∧
    exec .nop s = .next { s with status := { s.status with busy := false, done := true }, ctx := none }

/-- 10 R37: KEY_VALID changes only by the completion of KEYGEN or KEYLOAD, which set it, of KEYCLR, which clears it, or
by a reset. -/
def Obligations.KeyValidChangesOnlyByKeyCommandsAndReset : Prop :=
  ∀ s t : State, step s = .next t → t.status.keyValid ≠ s.status.keyValid →
    (∃ rest i, s.engineNext rest ∧ s.status.busy = true ∧ decodeWord s.cmd = .command i ∧
      ((t.status.keyValid = true ∧ ((∃ a b c, i = .keygen a b c) ∨ ∃ a b c, i = .keyload a b c)) ∨
        (t.status.keyValid = false ∧ i = .keyclr))) ∨
    (t.status.keyValid = false ∧ ∃ rest, s.inputs = .hardReset :: rest ∨
      ∃ v : Word, v.getLsbD 31 = true ∧ s.inputs = .write 0x004#12 4 v :: rest)

/-- 10 R38: while KEY_VALID stays 1, no step changes KN, KE or KD; a step that clears it leaves all three 0. -/
def Obligations.KeyTripleIsImmutableWhileHeld : Prop :=
  ∀ s t : State, step s = .next t → s.status.keyValid = true →
    (t.status.keyValid = true → t.kn = s.kn ∧ t.ke = s.ke ∧ t.kd = s.kd) ∧
    (t.status.keyValid = false → t.kn = 0#1024 ∧ t.ke = 0#1024 ∧ t.kd = 0#1024)

/-! ### The chunk codec -/

/-- 42 R300, R330: CHUNK with 1 ≤ k ≤ 126 and its 126 - k bytes delivered puts k, the k data bytes, the filler in
drawing order and a zero byte into OBUF, 127 into OBUF_LEN, and changes nothing else but the completion flags. -/
def Obligations.ChunkMeaning : Prop :=
  ∀ (s : State) (c : Ctx), s.ctx = some c → 1 ≤ s.ibufLen.toNat → s.ibufLen.toNat ≤ 126 →
    126 - s.ibufLen.toNat ≤ c.drawn.length →
    ∃ t, exec .chunk s = .next t ∧ t.obuf[0].toNat = s.ibufLen.toNat ∧
      (∀ (i : Nat) (h : i < 126), i < s.ibufLen.toNat → t.obuf[i + 1] = s.ibuf[i]) ∧
      (∀ (i : Nat) (h : i < 126), s.ibufLen.toNat ≤ i → t.obuf[i + 1] = c.drawn.getD (i - s.ibufLen.toNat) 0#8) ∧
      t.obuf[127] = 0#8 ∧ t.obufLen = 127#8 ∧
      t = { s with
        obuf := t.obuf
        obufLen := t.obufLen
        status := { s.status with busy := false, done := true }
        ctx := none }

/-- 42 R331, R332, R321 and 43 R361, R371: the length failures, which draw nothing: EMPTY (0x04) and LEN (0x05). -/
def Obligations.LengthFailures : Prop :=
  ∀ s : State,
    (s.ibufLen.toNat = 0 → exec .chunk s = .next (s.failedWith 0x04#8)) ∧
    (126 < s.ibufLen.toNat → exec .chunk s = .next (s.failedWith 0x05#8)) ∧
    (128 < s.ibufLen.toNat → ∀ rd, exec (.ldbuf rd) s = .next (s.failedWith 0x05#8)) ∧
    (s.status.keyValid = true → s.ibufLen.toNat = 0 → exec .encblk s = .next (s.failedWith 0x04#8)) ∧
    (s.status.keyValid = true → 126 < s.ibufLen.toNat → exec .encblk s = .next (s.failedWith 0x05#8)) ∧
    (s.status.keyValid = true → s.ibufLen.toNat ≠ 128 → exec .decblk s = .next (s.failedWith 0x05#8))

/-- 43 R360, R370 and 60 R510: with no key ENCBLK and DECBLK fail with NO_KEY before anything else; with a key, a legal
length and KN = 0 they fail with ARG, having drawn nothing. -/
def Obligations.PipelineKeyAndModulusFailures : Prop :=
  ∀ s : State,
    (s.status.keyValid = false → exec .encblk s = .next (s.failedWith 0x02#8) ∧
      exec .decblk s = .next (s.failedWith 0x02#8)) ∧
    (s.status.keyValid = true → s.kn = 0#1024 → 1 ≤ s.ibufLen.toNat → s.ibufLen.toNat ≤ 126 →
      exec .encblk s = .next (s.failedWith 0x06#8)) ∧
    (s.status.keyValid = true → s.kn = 0#1024 → s.ibufLen.toNat = 128 →
      exec .decblk s = .next (s.failedWith 0x06#8))

/-- 42 R310-R315: UNCHUNK of v, with B = floor(bitlen(v)/8) + 1 and k the byte v div 256^(B-1), outputs the
min(k, B - 1) bytes that follow it, zeros after them, OBUF_LEN their number, DSHORT = (k > B - 1), and changes nothing
else but the completion flags. -/
def Obligations.UnchunkMeaning : Prop :=
  ∀ (rs1 : WReg) (s : State) (v B k : Nat), v = s.regValue rs1 → B = bitlen v / 8 + 1 → k = v / 256 ^ (B - 1) →
    ∃ t, exec (.unchunk rs1) s = .next t ∧ t.obufLen.toNat = min k (B - 1) ∧
      (∀ j : Fin 128, t.obuf[j.val].toNat = if j.val < min k (B - 1) then v / 256 ^ (B - 2 - j.val) % 256 else 0) ∧
      t = { s with
        obuf := t.obuf
        obufLen := t.obufLen
        status := { s.status with busy := false, done := true, dshort := decide (B - 1 < k) }
        ctx := none }

/-- 42 R317: decoding the value of any chunk the encoder builds gives back exactly its data, with short = 0. -/
def Obligations.DecodeRecoversTheChunkData : Prop :=
  ∀ data filler : List Byte, 1 ≤ data.length → data.length + filler.length = 126 →
    decodeChunk (beValue (BitVec.ofNat 8 data.length :: (data ++ filler))) = (data, false)

/-- 42 R301: a chunk's value m satisfies k 2^1008 ≤ m < (k + 1) 2^1008, and 1009 ≤ bitlen(m) ≤ 1015. -/
def Obligations.ChunkValueBounds : Prop :=
  ∀ data filler : List Byte, 1 ≤ data.length → data.length + filler.length = 126 →
    data.length * 2 ^ 1008 ≤ beValue (BitVec.ofNat 8 data.length :: (data ++ filler)) ∧
    beValue (BitVec.ofNat 8 data.length :: (data ++ filler)) < (data.length + 1) * 2 ^ 1008 ∧
    1009 ≤ bitlen (beValue (BitVec.ofNat 8 data.length :: (data ++ filler))) ∧
    bitlen (beValue (BitVec.ofNat 8 data.length :: (data ++ filler))) ≤ 1015

/-- 42 R320, R322: LDBUF with IBUF_LEN ≤ 128 writes the big-endian value of IBUF[0..IBUF_LEN) to W[rd] (the sum of 00
R9) and changes nothing else but the completion flags. -/
def Obligations.LdbufMeaning : Prop :=
  ∀ (rd : WReg) (s : State), s.ibufLen.toNat ≤ 128 →
    ∃ t, exec (.ldbuf rd) s = .next t ∧
      t.regValue rd = ∑ i : Fin 128, (if i.val < s.ibufLen.toNat then
        s.ibuf[i.val].toNat * 256 ^ (s.ibufLen.toNat - 1 - i.val) else 0) ∧
      (∀ j, j ≠ rd → t.getW j = s.getW j) ∧
      t = { s with w := t.w, status := { s.status with busy := false, done := true }, ctx := none }

/-- 42 R302, R340, R341: STBLK of c puts a pad of 128 - L(c) bytes and the L(c) bytes of c into OBUF and 128 into
OBUF_LEN. With PADZ = 1 as latched the pad is zeros, so BE(OBUF) = c; with PADZ = 0 and the bytes delivered it is the
draws in order. Nothing else changes but the completion flags. -/
def Obligations.StblkMeaning : Prop :=
  ∀ (rs1 : WReg) (s : State) (c : Ctx), s.ctx = some c →
    c.padz = true ∨ 128 - naturalLength (s.regValue rs1) ≤ c.drawn.length →
    ∃ t, exec (.stblk rs1) s = .next t ∧ t.obufLen = 128#8 ∧
      (∀ j : Fin 128, j.val < 128 - naturalLength (s.regValue rs1) →
        t.obuf[j.val] = if c.padz then 0#8 else c.drawn.getD j.val 0#8) ∧
      (∀ j : Fin 128, 128 - naturalLength (s.regValue rs1) ≤ j.val →
        t.obuf[j.val].toNat = s.regValue rs1 / 256 ^ (127 - j.val) % 256) ∧
      (c.padz = true → beValue t.obuf.toList = s.regValue rs1) ∧
      t = { s with
        obuf := t.obuf
        obufLen := t.obufLen
        status := { s.status with busy := false, done := true }
        ctx := none }

/-! ### The cipher pipeline -/

/-- 43 R360, R362: ENCBLK with a key, 1 ≤ k ≤ 126, KN ≥ 1 and its bytes delivered computes c = m^KE mod KN of the chunk's
value m (m is not compared with KN) and puts the block of c into OBUF, the filler drawn before the pad; nothing else
changes but the completion flags. -/
def Obligations.EncblkMeaning : Prop :=
  ∀ (s : State) (x : Ctx) (k m c : Nat), s.ctx = some x → s.status.keyValid = true → k = s.ibufLen.toNat → 1 ≤ k →
    k ≤ 126 → s.kn ≠ 0#1024 → 126 - k ≤ x.drawn.length →
    m = beValue (BitVec.ofNat 8 k :: (s.ibuf.toList.take k ++ x.drawn.take (126 - k))) →
    c = m ^ s.ke.toNat % s.kn.toNat →
    x.padz = true ∨ (126 - k) + (128 - naturalLength c) ≤ x.drawn.length →
    ∃ t, exec .encblk s = .next t ∧ t.obufLen = 128#8 ∧
      (∀ j : Fin 128, j.val < 128 - naturalLength c →
        t.obuf[j.val] = if x.padz then 0#8 else x.drawn.getD (126 - k + j.val) 0#8) ∧
      (∀ j : Fin 128, 128 - naturalLength c ≤ j.val → t.obuf[j.val].toNat = c / 256 ^ (127 - j.val) % 256) ∧
      (x.padz = true → beValue t.obuf.toList = c) ∧
      t = { s with
        obuf := t.obuf
        obufLen := t.obufLen
        status := { s.status with busy := false, done := true }
        ctx := none }

/-- 43 R370, R372: DECBLK with a key, IBUF_LEN = 128 and KN ≥ 1 computes v^KD mod KN of the block's value v (not compared
with KN), and writes decode's data, their number and DSHORT; nothing else changes but the completion flags. -/
def Obligations.DecblkMeaning : Prop :=
  ∀ (s : State) (m : Nat), s.status.keyValid = true → s.ibufLen = 128#8 → s.kn ≠ 0#1024 →
    m = beValue s.ibuf.toList ^ s.kd.toNat % s.kn.toNat →
    ∃ t, exec .decblk s = .next t ∧ t.obufLen.toNat = (decodeChunk m).1.length ∧ (decodeChunk m).1.length ≤ 128 ∧
      t.obuf.toList = (decodeChunk m).1 ++ List.replicate (128 - (decodeChunk m).1.length) 0#8 ∧
      t = { s with
        obuf := t.obuf
        obufLen := t.obufLen
        status := { s.status with busy := false, done := true, dshort := (decodeChunk m).2 }
        ctx := none }

/-- 43 R374: ENCBLK gives the OBUF and OBUF_LEN of CHUNK, the host's copy of OBUF[0..127) into IBUF with IBUF_LEN = 127,
LDBUF, MODEXP with KE and KN in wide registers, and STBLK, on the same draws: the filler bytes given to CHUNK and the pad
bytes to STBLK. The intermediate states are those the completions give, with the bytes of their own draws. -/
def Obligations.EncblkIsTheCodecSequence : Prop :=
  ∀ (s a b c d e : State) (padz : Bool) (filler pad : List Byte) (wt we wn : WReg),
    s.status.keyValid = true → 1 ≤ s.ibufLen.toNat → s.ibufLen.toNat ≤ 126 → s.kn ≠ 0#1024 → we ≠ wt → wn ≠ wt →
    s.getW we = s.ke → s.getW wn = s.kn → filler.length = 126 - s.ibufLen.toNat →
    exec .chunk { s with ctx := some { padz := padz, drawn := filler } } = .next a →
    (∀ j : Fin 127, b.ibuf[j.val] = a.obuf[j.val]) → b.ibufLen = 127#8 → b.w = a.w →
    exec (.ldbuf wt) b = .next c →
    exec (.modexp wt wt we wn) c = .next d →
    padz = true ∨ 128 - naturalLength (d.regValue wt) ≤ pad.length →
    exec (.stblk wt) { d with ctx := some { padz := padz, drawn := pad } } = .next e →
    ∃ t, exec .encblk { s with ctx := some { padz := padz, drawn := filler ++ pad } } = .next t ∧
      t.obuf = e.obuf ∧ t.obufLen = e.obufLen

/-- 43 R374: DECBLK gives the OBUF, OBUF_LEN and DSHORT of LDBUF, MODEXP with KD and KN in wide registers, and
UNCHUNK. -/
def Obligations.DecblkIsTheCodecSequence : Prop :=
  ∀ (s c d e : State) (wt wd wn : WReg),
    s.status.keyValid = true → s.ibufLen = 128#8 → s.kn ≠ 0#1024 → wd ≠ wt → wn ≠ wt → s.getW wd = s.kd →
    s.getW wn = s.kn → exec (.ldbuf wt) s = .next c → exec (.modexp wt wt wd wn) c = .next d →
    exec (.unchunk wt) d = .next e →
    ∃ t, exec .decblk s = .next t ∧ t.obuf = e.obuf ∧ t.obufLen = e.obufLen ∧ t.status.dshort = e.status.dshort

/-- 43 R366, R365: with the triple KEYGEN installs from distinct primes p, q with p q > 2^1015, and PADZ = 1 as latched,
DECBLK of the block ENCBLK made of k data bytes recovers them: OBUF_LEN = k, the same k bytes, DSHORT = 0. -/
def Obligations.PipelineRoundTripWithZeroPad : Prop :=
  ∀ (g s t u v : State) (x : Ctx) (rs1 rs2 rs3 : WReg),
    g.status.keyValid = false → (g.regValue rs1).Prime → (g.regValue rs2).Prime → g.regValue rs1 ≠ g.regValue rs2 →
    2 ^ 1015 ≤ g.regValue rs1 * g.regValue rs2 → exec (.keygen rs1 rs2 rs3) g = .next s →
    s.status.keyValid = true → 1 ≤ s.ibufLen.toNat → s.ibufLen.toNat ≤ 126 → x.padz = true →
    126 - s.ibufLen.toNat ≤ x.drawn.length → exec .encblk { s with ctx := some x } = .next t →
    u.ibuf = t.obuf → u.ibufLen = 128#8 → u.kn = s.kn → u.kd = s.kd → u.status.keyValid = true →
    exec .decblk u = .next v →
    v.obufLen = s.ibufLen ∧ v.status.dshort = false ∧
      v.obuf.toList.take s.ibufLen.toNat = s.ibuf.toList.take s.ibufLen.toNat

/-! ### Frames -/

/-- 10 R33, R39, R41, R42, R51; 30 R161: what no command changes, and what each changes at most. IBUF, IBUF_LEN, CTRL,
CMD, CMDLOST, the pending events and the bus answer stay; a wide register that is no destination stays; the keys and
KEY_VALID stay but for the key commands; OBUF and OBUF_LEN but for the five that write them; XNEG and YNEG but for EGCD;
DSHORT but for UNCHUNK and DECBLK. FATAL stays too (60 R508). The pending events and the bus answer are the model's own
fields (log entries 1 and 5, DESIGN CHOICE). -/
def Obligations.CommandFrame : Prop :=
  ∀ (i : Instr) (s t : State), exec i s = .next t →
    t.ibuf = s.ibuf ∧ t.ibufLen = s.ibufLen ∧ t.ctrl = s.ctrl ∧ t.cmd = s.cmd ∧
    t.status.cmdLost = s.status.cmdLost ∧ t.status.fatal = s.status.fatal ∧
    t.inputs = s.inputs ∧ t.resp = s.resp ∧
    (∀ j, j ∉ wDests i → t.getW j = s.getW j) ∧
    (writesKeys i = false →
      t.kn = s.kn ∧ t.ke = s.ke ∧ t.kd = s.kd ∧ t.status.keyValid = s.status.keyValid) ∧
    (writesObuf i = false → t.obuf = s.obuf ∧ t.obufLen = s.obufLen) ∧
    (writesSigns i = false → t.status.xneg = s.status.xneg ∧ t.status.yneg = s.status.yneg) ∧
    (writesShort i = false → t.status.dshort = s.status.dshort)

/-- The same frame through the register window (10 R34): after a command's completion, every location reads as before,
but STATUS, ERR, the windows of its destination registers, the key windows for a key command, and OBUF and OBUF_LEN for a
command that writes them. -/
def Obligations.CommandFrameThroughTheWindow : Prop :=
  ∀ (i : Instr) (s t : State) (l : Loc), exec i s = .next t → l ≠ .status → l ≠ .err →
    (∀ r j, l = .w r j → r ∉ wDests i) →
    (writesKeys i = true → ∀ j, l ≠ .kn j ∧ l ≠ .ke j ∧ l ≠ .kd j) →
    (writesObuf i = true → l ≠ .obufLen ∧ ∀ j, l ≠ .obuf j) →
    readLoc t l = readLoc s l

/-- 60 R502, R503: a command that fails leaves the state before it, but for ERR, ERRF, DONE, BUSY and the context, with a
code of 60 R501 from 0x01 to 0x08: no destination is written and FATAL is not set. -/
def Obligations.FailuresArePrecise : Prop :=
  ∀ (i : Instr) (s t : State), s.status.errf = false → exec i s = .next t → t.status.errf = true →
    1 ≤ t.err.toNat ∧ t.err.toNat ≤ 8 ∧ t = s.failedWith t.err

/-! ### Invariants -/

/-- The reset state is legal (70 R600), and its drawn bytes were asked for. -/
def Obligations.ResetStateIsLegal : Prop := State.reset.Inv ∧ State.reset.drawsAskedFor

/-- Every step from a legal state leaves a legal state: the context is present exactly while BUSY = 1 (10 R57), a running
command has ERRF = DONE = 0 (44 R400), ERR holds a code below 0x09, 0 exactly while ERRF is 0 (10 R52), FATAL is never
set (60 R508), OBUF is zero at and above OBUF_LEN (10 R43), and the keys are 0 while KEY_VALID is 0. -/
def Obligations.StepKeepsLegalStates : Prop :=
  ∀ s t : State, s.Inv → step s = .next t → t.Inv

/-- 20 R120: every step keeps that each drawn byte was asked for, so the engine takes no byte a command does not need; a
command holds at most 253 = 125 + 128 drawn bytes. -/
def Obligations.StepTakesOnlyBytesAskedFor : Prop :=
  (∀ s t : State, s.drawsAskedFor → step s = .next t → t.drawsAskedFor) ∧
  ∀ (s : State) (c : Ctx), s.drawsAskedFor → s.ctx = some c → c.drawn.length ≤ 253

/-! ### The bus -/

/-- 20 R102, R103, R107: when a transaction answers BUSERR. A read does exactly when it is not a 32-bit access at a
multiple of 4, or reaches an unmapped range, or a busy-blocked location while BUSY = 1; a write also when it reaches a
read-only location. -/
def Obligations.BusErrorConditions : Prop :=
  ∀ (s : State) (a : BitVec 12) (size : Nat) (v : Word),
    ((busRead a size s).err = true ↔
      size ≠ 4 ∨ a.toNat % 4 ≠ 0 ∨ (0x020 ≤ a.toNat ∧ a.toNat < 0x100) ∨ (0x380 ≤ a.toNat ∧ a.toNat < 0x400) ∨
        0xC00 ≤ a.toNat ∨ (s.status.busy = true ∧ 0x014 ≤ a.toNat ∧ a.toNat ≠ 0x01C)) ∧
    ((writeStep a size v s).resp = some { err := true, rdata := none } ↔
      (busRead a size s).err = true ∨ a.toNat = 0x000 ∨ a.toNat = 0x00C ∨ a.toNat = 0x018 ∨ a.toNat = 0x01C ∨
        (0x180 ≤ a.toNat ∧ a.toNat < 0x380))

/-- 20 R108, R109, 10 R35: a read changes nothing but the bus answer, and a write answered BUSERR likewise; a read
answered BUSERR returns the word 0. -/
def Obligations.ReadsAndBusErrorsChangeNothing : Prop :=
  ∀ (s : State) (a : BitVec 12) (size : Nat) (v : Word) (rest : List Input),
    (s.inputs = .read a size :: rest →
      step s = .next { s with inputs := rest, resp := some (busRead a size s) } ∧
      ((busRead a size s).err = true → (busRead a size s).rdata = some 0#32)) ∧
    (s.inputs = .write a size v :: rest → ∀ t, step s = .next t →
      t.resp = some { err := true, rdata := none } → t = { s with inputs := rest, resp := t.resp })

/-- 10 R32, R34, R40, R44, R45, R49, R53; 20 R105: what each location reads as, at its address, while it may be
accessed. -/
def Obligations.ReadsFollowTheRegisterMap : Prop :=
  ∀ s : State,
    (busRead 0x000#12 4 s).rdata = some 0x52434501#32 ∧
    (busRead 0x01C#12 4 s).rdata = some 0x00100400#32 ∧
    (busRead 0x010#12 4 s).rdata = some s.cmd ∧
    (∃ x, (busRead 0x008#12 4 s).rdata = some x ∧ ∀ k : Fin 32, x.getLsbD k.val =
      [s.status.busy, s.status.done, s.status.errf, s.status.fatal, s.status.keyValid, s.status.xneg, s.status.yneg,
        s.status.dshort, s.status.cmdLost].getD k.val false) ∧
    (∃ x, (busRead 0x004#12 4 s).rdata = some x ∧ ∀ k : Fin 32,
      x.getLsbD k.val = [s.ctrl.ieDone, s.ctrl.ieErr, s.ctrl.padz].getD k.val false) ∧
    (∃ x, (busRead 0x00C#12 4 s).rdata = some x ∧ x.toNat = s.err.toNat) ∧
    (s.status.busy = false →
      (∃ x, (busRead 0x014#12 4 s).rdata = some x ∧ x.toNat = s.ibufLen.toNat) ∧
      (∃ x, (busRead 0x018#12 4 s).rdata = some x ∧ x.toNat = s.obufLen.toNat) ∧
      ∀ j : Fin 32,
        (∃ x, (busRead (BitVec.ofNat 12 (0x100 + 4 * j.val)) 4 s).rdata = some x ∧
          x.toNat = beValue ((s.ibuf.toList.drop (4 * j.val)).take 4)) ∧
        (∃ x, (busRead (BitVec.ofNat 12 (0x180 + 4 * j.val)) 4 s).rdata = some x ∧
          x.toNat = beValue ((s.obuf.toList.drop (4 * j.val)).take 4)) ∧
        (∃ x, (busRead (BitVec.ofNat 12 (0x200 + 4 * j.val)) 4 s).rdata = some x ∧
          x.toNat = s.kn.toNat / 2 ^ (992 - 32 * j.val) % 2 ^ 32) ∧
        (∃ x, (busRead (BitVec.ofNat 12 (0x280 + 4 * j.val)) 4 s).rdata = some x ∧
          x.toNat = s.ke.toNat / 2 ^ (992 - 32 * j.val) % 2 ^ 32) ∧
        (∃ x, (busRead (BitVec.ofNat 12 (0x300 + 4 * j.val)) 4 s).rdata = some x ∧
          x.toNat = s.kd.toNat / 2 ^ (992 - 32 * j.val) % 2 ^ 32) ∧
        ∀ i : WReg, ∃ x, (busRead (BitVec.ofNat 12 (0x400 + 0x80 * i.val + 4 * j.val)) 4 s).rdata = some x ∧
          x.toNat = s.regValue i / 2 ^ (992 - 32 * j.val) % 2 ^ 32)

/-- 10 R32: a host write of word j of W[i] while BUSY = 0 replaces those 32 bits, keeps the other 992 bits and every
other register, and changes nothing else. -/
def Obligations.WideRegisterWordWrite : Prop :=
  ∀ (s : State) (i : WReg) (j : Fin 32) (v : Word) (rest : List Input), s.status.busy = false →
    s.inputs = .write (BitVec.ofNat 12 (0x400 + 0x80 * i.val + 4 * j.val)) 4 v :: rest →
    ∃ t, step s = .next t ∧
      (∀ k : Nat, k < 1024 → (t.getW i).getLsbD k =
        if 992 - 32 * j.val ≤ k ∧ k < 1024 - 32 * j.val then v.getLsbD (k - (992 - 32 * j.val))
        else (s.getW i).getLsbD k) ∧
      (∀ r, r ≠ i → t.getW r = s.getW r) ∧
      t = { s with w := t.w, inputs := rest, resp := some { err := false, rdata := none } }

/-- 10 R40, R41: a host write of word j of IBUF while BUSY = 0 replaces its four bytes, the lowest index in bits 31:24;
one of IBUF_LEN stores bits 7:0; neither changes anything else. -/
def Obligations.InputBufferAndLengthWrite : Prop :=
  ∀ (s : State) (j : Fin 32) (v : Word) (rest : List Input), s.status.busy = false →
    (s.inputs = .write (BitVec.ofNat 12 (0x100 + 4 * j.val)) 4 v :: rest →
      ∃ t, step s = .next t ∧
        (∀ k : Fin 128, t.ibuf[k.val] =
          if k.val / 4 = j.val then v.extractLsb' (24 - 8 * (k.val % 4)) 8 else s.ibuf[k.val]) ∧
        t = { s with ibuf := t.ibuf, inputs := rest, resp := some { err := false, rdata := none } }) ∧
    (s.inputs = .write 0x014#12 4 v :: rest →
      ∃ t, step s = .next t ∧ t.ibufLen.toNat = v.toNat % 256 ∧
        t = { s with ibufLen := t.ibufLen, inputs := rest, resp := some { err := false, rdata := none } })

/-- 10 R50, 60 R505: a STATUS write, in any state, clears the W1C bits written 1; a 1 to ERRF also zeroes ERR, and does
neither while FATAL = 1; nothing else changes. -/
def Obligations.StatusWriteClearsOnes : Prop :=
  ∀ (s : State) (v : Word) (rest : List Input), s.inputs = .write 0x008#12 4 v :: rest →
    step s = .next { s with
      inputs := rest
      resp := some { err := false, rdata := none }
      err := if v.getLsbD 2 = true ∧ s.status.fatal = false then 0#8 else s.err
      status := { s.status with
        done := if v.getLsbD 1 then false else s.status.done
        errf := if v.getLsbD 2 = true ∧ s.status.fatal = false then false else s.status.errf
        cmdLost := if v.getLsbD 8 then false else s.status.cmdLost } }

/-- 60 R520, R521: irq is (DONE and IE_DONE) or (ERRF and IE_ERR); a completion raises it when IE_DONE is set, and a
write of 1 to DONE and ERRF with FATAL = 0 clears it. -/
def Obligations.InterruptLine : Prop :=
  (∀ s : State, s.irq = true ↔
    (s.status.done = true ∧ s.ctrl.ieDone = true) ∨ (s.status.errf = true ∧ s.ctrl.ieErr = true)) ∧
  (∀ (s : State) (rest : List Input), s.engineNext rest → s.status.busy = true → s.entReq = false →
    s.ctrl.ieDone = true → ∃ t, step s = .next t ∧ t.irq = true) ∧
  ∀ (s : State) (rest : List Input), s.inputs = .write 0x008#12 4 0x00000006#32 :: rest → s.status.fatal = false →
    ∃ t, step s = .next t ∧ t.irq = false

/-- 20 R106: read in ascending address order with the lanes of R104, the 128 bytes of a wide value's window are BE_128 of
it, and those of a buffer's window are its bytes in index order; a copy of the window of a wide value, word for word, into a
buffer's window makes the buffer BE_128 of the value. -/
def Obligations.WindowsAreBigEndianImages : Prop :=
  (∀ v : Wide, (List.finRange 32).flatMap (fun j => (List.finRange 4).map (fun n => lane (wideWord v j) n)) =
    beBytes 128 v.toNat) ∧
  (∀ b : Vector Byte 128, (List.finRange 32).flatMap (fun j => (List.finRange 4).map (fun n => lane (bufWord b j) n)) =
    b.toList) ∧
  ∀ (v : Wide) (b : Vector Byte 128),
    ((List.finRange 32).foldl (fun b j => setBufWord b j (wideWord v j)) b).toList = beBytes 128 v.toNat

/-! ### Host procedures -/

/-- 30 R174: on an engine with BUSY = 0, LOADW wi, V leaves V in W[i] and every other register as it was, READW wi
then returns V, and READK returns the key registers' values. -/
def Obligations.LoadThenReadWideRegister : Prop :=
  ∀ (r : Rig) (i : WReg) (v : Wide), r.engine.status.busy = false →
    (r.loadW i v).engine.getW i = v ∧ (∀ j, j ≠ i → (r.loadW i v).engine.getW j = r.engine.getW j) ∧
    ((r.loadW i v).readW i).1 = v.toNat ∧
    (r.readK .kn).1 = r.engine.kn.toNat ∧ (r.readK .ke).1 = r.engine.ke.toNat ∧ (r.readK .kd).1 = r.engine.kd.toNat

/-- 30 R175: on an engine with BUSY = 0, LOADBUF s of at most 128 bytes leaves s in IBUF[0..|s|) and |s| in IBUF_LEN. -/
def Obligations.LoadBufferFillsTheInputBuffer : Prop :=
  ∀ (r : Rig) (s : List Byte), r.engine.status.busy = false → s.length ≤ 128 →
    (r.loadBuf s).engine.ibuf.toList.take s.length = s ∧ (r.loadBuf s).engine.ibufLen.toNat = s.length

/-- 45 R433: a completed encrypt of a source of L bytes appends exactly 128 ceil(L/126) bytes, whatever the draws are. The
schedule of the host procedure and the form of its streams are the model's (log entries 14 and 15, DESIGN CHOICE). -/
def Obligations.EncryptSizeLaw : Prop :=
  ∀ (src : Source) (dst : Sink) (r : Rig), (encryptStream src dst r).how = .finished →
    (encryptStream src dst r).dst.bytes.length = dst.bytes.length + 128 * ((src.bytes.length + 125) / 126)

/-- 45 R456: for every triple the engine can hold, deserialize gives back what serialize wrote. -/
def Obligations.KeyFileRoundTrip : Prop :=
  ∀ n e d : Nat, n < 2 ^ 1024 → e < 2 ^ 1024 → d < 2 ^ 1024 → deserialize (serialize n e d) = some (n, e, d)

/-- 45 R452, R453: a key file with fewer than three fields, or one of the first three empty, holding a byte that is no
digit, or worth 2^1024 or more, is a FormatError, which loadCipher returns, and it then leaves the engine as it was. -/
def Obligations.FormatErrorTouchesNothing : Prop :=
  ∀ (text : List Byte) (r : Rig),
    ((splitLines text).length < 3 ∨
      (∃ f ∈ (splitLines text).take 3, f = [] ∨ (∃ b ∈ f, b.toNat < 0x30 ∨ 0x39 < b.toNat) ∨
        2 ^ 1024 ≤ f.foldl (fun acc b => acc * 10 + (b.toNat - 0x30)) 0)) →
    loadCipher (some text) r = { rig := r, how := .failed .formatError }

/-- 70 R622, with BUSY = 0 after POLL: CMDLOST = 1 means the command was not run, and the host's check clears CMDLOST and
changes nothing else of the engine; else a command with ERRF = 1 failed, and is reported with ERR and CMD, and one with
ERRF = 0 succeeded. The cause of a drop is told from STATUS as the check reads it, the model's choice (log entry 17,
DESIGN CHOICE). 45 R461: the code of an error is returned as its RSAC kind where it has one, and as it is where not. 45
R460: newCipher of p, q with an e that is not coprime to (p-1)(q-1) returns GenerationError, from an engine that can accept
a command, whether or not it holds a key. The schedule is the model's (log entry 15, DESIGN CHOICE). -/
def Obligations.HostCheckAndReport : Prop :=
  (∀ r : Rig, r.engine.status.busy = false → ∃ a : Option Response,
    (r.engine.status.cmdLost = true → ∃ cause : DropCause,
      r.check = (.dropped cause r.engine.err r.engine.cmd,
        { r with engine := { r.engine with status := { r.engine.status with cmdLost := false }, resp := a } }) ∧
      (cause = .fatal ↔ r.engine.status.fatal = true) ∧
      (cause = .error ↔ r.engine.status.fatal = false ∧ r.engine.status.errf = true)) ∧
    (r.engine.status.cmdLost = false → r.engine.status.errf = true →
      r.check = (.engineError r.engine.err r.engine.cmd, { r with engine := { r.engine with resp := a } })) ∧
    (r.engine.status.cmdLost = false → r.engine.status.errf = false →
      r.check = (.finished, { r with engine := { r.engine with resp := a } }))) ∧
  (∀ w : Word,
    (HostEnd.engineError 0x08#8 w).report = .failed .generationError ∧
    (HostEnd.engineError 0x07#8 w).report = .failed .noInverseError ∧
    (HostEnd.engineError 0x09#8 w).report = .failed .protocolInvariantViolation ∧
    ∀ c ∈ [0x01#8, 0x02#8, 0x03#8, 0x04#8, 0x05#8, 0x06#8],
      (HostEnd.engineError c w).report = .engineError c w) ∧
  ∀ (p q e : Wide) (r : Rig), r.engine.status.busy = false → r.engine.status.errf = false →
    r.engine.status.fatal = false → r.engine.status.cmdLost = false → 2 ≤ p.toNat → 2 ≤ q.toNat →
    p.toNat * q.toNat < 2 ^ 1024 → Nat.gcd e.toNat ((p.toNat - 1) * (q.toNat - 1)) ≠ 1 →
    (newCipher p q e r).how = .failed .generationError
end

