-- ==== Sys2Proof/Laws/Arith.lean ====
section
/-!
SUPPORT. What the integer functions compute: bitlen bounds (00 R10), modExp is the remainder of the power (40 R200),
egcd satisfies the recursion of 40 R210 and its Bézout identity (40 R211 (2)).
-/
namespace Sys2Proof.Machine

/-! ### bitlen -/

@[simp] theorem bitlen_zero : bitlen 0 = 0 := rfl

theorem bitlen_of_pos {v : Nat} (h : 0 < v) : bitlen v = Nat.log2 v + 1 := by
  simp [bitlen, Nat.pos_iff_ne_zero.mp h]

theorem lt_two_pow_bitlen (v : Nat) : v < 2 ^ bitlen v := by
  rcases Nat.eq_zero_or_pos v with rfl | h
  · decide
  · rw [bitlen_of_pos h]; exact Nat.lt_log2_self

theorem two_pow_le_of_bitlen {v : Nat} (h : 0 < v) : 2 ^ (bitlen v - 1) ≤ v := by
  rw [bitlen_of_pos h, Nat.add_sub_cancel]
  exact Nat.log2_self_le h.ne'

theorem bitlen_le_iff {v n : Nat} : bitlen v ≤ n ↔ v < 2 ^ n := by
  constructor
  · intro h
    exact (lt_two_pow_bitlen v).trans_le (Nat.pow_le_pow_right (by decide) h)
  · intro h
    rcases Nat.eq_zero_or_pos v with rfl | hv
    · simp
    · by_contra hc
      have h1 : 2 ^ n ≤ 2 ^ (bitlen v - 1) := Nat.pow_le_pow_right (by decide) (by omega)
      exact absurd (h1.trans (two_pow_le_of_bitlen hv)) (by omega)

/-- `bitlen v = b` says exactly `2^(b-1) ≤ v < 2^b` (00 R10). -/
theorem bitlen_eq_iff {v b : Nat} (hb : 0 < b) : bitlen v = b ↔ 2 ^ (b - 1) ≤ v ∧ v < 2 ^ b := by
  constructor
  · rintro rfl
    have hv : 0 < v := by
      rcases Nat.eq_zero_or_pos v with rfl | h
      · simp at hb
      · exact h
    exact ⟨two_pow_le_of_bitlen hv, lt_two_pow_bitlen v⟩
  · rintro ⟨h1, h2⟩
    have h3 := bitlen_le_iff.mpr h2
    have h4 : ¬ bitlen v ≤ b - 1 := fun h => absurd (bitlen_le_iff.mp h) (by omega)
    omega

theorem bitlen_div_two {v : Nat} (h : 0 < v) : bitlen v = bitlen (v / 2) + 1 := by
  refine (bitlen_eq_iff (by omega)).mpr ⟨?_, ?_⟩
  · rw [Nat.add_sub_cancel]
    rcases Nat.eq_zero_or_pos (v / 2) with h2 | h2
    · rw [h2]; simpa using Nat.succ_le_of_lt h
    · have := two_pow_le_of_bitlen h2
      have hb : bitlen (v / 2) = (bitlen (v / 2) - 1) + 1 := by rw [bitlen_of_pos h2]; omega
      rw [hb, pow_succ]; omega
  · have := lt_two_pow_bitlen (v / 2)
    rw [pow_succ]; omega

/-! ### Modular exponentiation -/

theorem modExpAux_eq (fuel : Nat) : ∀ b x m, bitlen x ≤ fuel → modExpAux fuel b x m = b ^ x % m := by
  induction fuel with
  | zero =>
    intro b x m h
    have hx : x = 0 := by have := bitlen_le_iff.mp h; omega
    simp [modExpAux, hx]
  | succ n ih =>
    intro b x m h
    rw [modExpAux]
    split
    · next hx => simp [hx]
    · next hx =>
      have hx0 : 0 < x := Nat.pos_of_ne_zero hx
      have hle : bitlen (x / 2) ≤ n := by rw [bitlen_div_two hx0] at h; omega
      have hsq : (b * b) ^ (x / 2) = b ^ (2 * (x / 2)) := by rw [pow_mul, sq]
      simp only [ih _ _ _ hle]
      rw [Nat.pow_mod (b * b % m), Nat.mod_mod, ← Nat.pow_mod, hsq]
      split
      · next ho =>
        have hxe : x = 2 * (x / 2) + 1 := by omega
        rw [Nat.mul_mod, Nat.mod_mod, ← Nat.mul_mod, ← pow_succ', ← hxe]
      · next ho =>
        have hxe : x = 2 * (x / 2) := by omega
        rw [← hxe]

/-- The value of modExp is the rule's (40 R200, R203). -/
theorem modExp_eq_pow_mod (b x m : Nat) : modExp b x m = b ^ x % m := modExpAux_eq _ _ _ _ le_rfl

theorem modExp_lt {b x m : Nat} (h : 0 < m) : modExp b x m < m := by
  rw [modExp_eq_pow_mod]; exact Nat.mod_lt _ h

/-! ### Extended Euclid -/

theorem egcdAux_fuel (n : Nat) : ∀ k a b, a < n → a < k → egcdAux n a b = egcdAux k a b := by
  induction n with
  | zero => intro k a b h; omega
  | succ n ih =>
    intro k a b hn hk
    cases k with
    | zero => omega
    | succ k =>
      rw [egcdAux, egcdAux]
      split
      · rfl
      · next ha =>
        have hlt : b % a < a := Nat.mod_lt _ (Nat.pos_of_ne_zero ha)
        rw [ih k (b % a) a (by omega) (by omega)]

@[simp] theorem egcd_zero (b : Nat) : egcd 0 b = (b, 0, 1) := by simp [egcd, egcdAux]

/-- The recursion of 40 R210. -/
theorem egcd_rec {a : Nat} (h : a ≠ 0) (b : Nat) :
    egcd a b =
      ((egcd (b % a) a).1, (egcd (b % a) a).2.2 - ((b / a : Nat) : Int) * (egcd (b % a) a).2.1,
        (egcd (b % a) a).2.1) := by
  have hlt : b % a < a := Nat.mod_lt _ (Nat.pos_of_ne_zero h)
  rw [egcd, egcdAux, if_neg h, egcd, egcdAux_fuel a (b % a + 1) (b % a) a hlt (by omega)]

theorem egcd_gcd (a : Nat) : ∀ b, (egcd a b).1 = Nat.gcd a b := by
  induction a using Nat.strong_induction_on with
  | _ a ih =>
    intro b
    by_cases h : a = 0
    · subst h; simp
    · rw [egcd_rec h, ih _ (Nat.mod_lt _ (Nat.pos_of_ne_zero h))]
      exact (Nat.gcd_rec a b).symm

theorem egcd_bezout (a : Nat) :
    ∀ b : Nat, (a : Int) * (egcd a b).2.1 + (b : Int) * (egcd a b).2.2 = ((egcd a b).1 : Int) := by
  induction a using Nat.strong_induction_on with
  | _ a ih =>
    intro b
    by_cases h : a = 0
    · subst h; simp
    · rw [egcd_rec h]
      have := ih _ (Nat.mod_lt b (Nat.pos_of_ne_zero h)) a
      have hd : ((b % a : Nat) : Int) + (a : Int) * ((b / a : Nat) : Int) = (b : Int) := by
        exact_mod_cast Nat.mod_add_div b a
      simp only
      rw [← this]
      linear_combination (-(egcd (b % a) a).2.1) * hd

/-- The coefficients are bounded by the cofactors of the gcd (40 R211 (4)). -/
theorem egcd_bounds (n : Nat) : ∀ a b : Nat, a ≤ n → 1 ≤ (egcd a b).1 →
      (egcd a b).2.1.natAbs ≤ max (b / (egcd a b).1) 1 ∧ (egcd a b).2.2.natAbs ≤ max (a / (egcd a b).1) 1 := by
  induction n with
  | zero =>
    intro a b ha _
    obtain rfl : a = 0 := by omega
    simp
  | succ n ih =>
    intro a b ha hg
    by_cases h0 : a = 0
    · subst h0; simp
    have hlt := Nat.mod_lt b (Nat.pos_of_ne_zero h0)
    rw [egcd_rec h0] at hg ⊢
    obtain ⟨h1, h2⟩ := ih (b % a) a (by omega) hg
    simp only at hg ⊢
    refine ⟨?_, h1⟩
    by_cases hr : b % a = 0
    · rw [hr]; simp
    have hgcd := egcd_gcd (b % a) a
    set g := (egcd (b % a) a).1
    have g1 : g ∣ b % a := hgcd ▸ Nat.gcd_dvd_left _ _
    have g2 : g ∣ a := hgcd ▸ Nat.gcd_dvd_right _ _
    have e1 : 1 ≤ b % a / g := Nat.div_pos (Nat.le_of_dvd (by omega) g1) hg
    have e2 : 1 ≤ a / g := Nat.div_pos (Nat.le_of_dvd (by omega) g2) hg
    rw [max_eq_left e1] at h2
    rw [max_eq_left e2] at h1
    refine le_trans (Int.natAbs_sub_le _ _) (le_trans ?_ (le_max_left _ _))
    rw [Int.natAbs_mul, Int.natAbs_natCast]
    calc _ ≤ b % a / g + b / a * (a / g) := by gcongr
      _ = b / g := by
        rw [← Nat.mul_div_assoc _ g2, ← Nat.add_div_of_dvd_right g1]
        congr 1
        have := Nat.mod_add_div b a
        rw [mul_comm]; exact this

/-- Every result of EGCD fits a wide register (40 R204, R211 (4)). -/
theorem egcd_small {a b : Nat} (ha : a < 2 ^ 1024) (hb : b < 2 ^ 1024) :
    (egcd a b).1 < 2 ^ 1024 ∧ (egcd a b).2.1.natAbs < 2 ^ 1024 ∧ (egcd a b).2.2.natAbs < 2 ^ 1024 := by
  have hp : 1 < 2 ^ 1024 := Nat.one_lt_two_pow (by norm_num)
  by_cases hg : 1 ≤ (egcd a b).1
  · obtain ⟨h1, h2⟩ := egcd_bounds a a b le_rfl hg
    refine ⟨?_, lt_of_le_of_lt h1 (max_lt (lt_of_le_of_lt (Nat.div_le_self _ _) hb) hp),
      lt_of_le_of_lt h2 (max_lt (lt_of_le_of_lt (Nat.div_le_self _ _) ha) hp)⟩
    rw [egcd_gcd]
    by_cases h : a = 0
    · subst h; simpa using hb
    · exact lt_of_le_of_lt (Nat.gcd_le_left _ (by omega)) ha
  · rw [egcd_gcd] at hg
    have : Nat.gcd a b = 0 := by omega
    rw [Nat.gcd_eq_zero_iff] at this
    obtain ⟨rfl, rfl⟩ := this
    simp [hp]

/-- With gcd 1 the inverse exists, lies in [0, m) and is an inverse (40 R220). -/
theorem modInverse_some {a m : Nat} (hm : m ≠ 0) (h : Nat.gcd a m = 1) :
    modInverse a m = some ((egcd a m).2.1 % (m : Int)).toNat ∧ ((egcd a m).2.1 % (m : Int)).toNat < m ∧
      a * ((egcd a m).2.1 % (m : Int)).toNat % m = 1 % m := by
  have hp : (0 : Int) < m := by omega
  have h0 := Int.emod_nonneg (egcd a m).2.1 (ne_of_gt hp)
  have h1 := Int.emod_lt_of_pos (egcd a m).2.1 hp
  refine ⟨?_, by omega, ?_⟩
  · simp [modInverse, egcd_gcd, h]
  · have hb := egcd_bezout a m
    rw [egcd_gcd, h] at hb
    zify
    rw [Int.toNat_of_nonneg h0, Int.mul_emod, Int.emod_emod_of_dvd _ (dvd_refl _), ← Int.mul_emod]
    have : (a : Int) * (egcd a m).2.1 = ((1:Nat):Int) + m * (-(egcd a m).2.2) := by linarith
    rw [this]; simp

end Sys2Proof.Machine
end

