-- ==== Sys2Proof/Laws/State.lean ====
section
/-!
SUPPORT. One lemma per field and update of State, true by rfl, so that no proof unfolds a record update.
-/
namespace Sys2Proof.Machine

/-! ### Wide registers -/

@[simp] theorem getW_setW_same (s : State) (i : WReg) (v : Wide) : (s.setW i v).getW i = v := by
  simp [State.getW, State.setW]

theorem getW_setW_ne (s : State) (i j : WReg) (v : Wide) (h : j ≠ i) : (s.setW i v).getW j = s.getW j := by
  have h' : i.val ≠ j.val := fun e => h (Fin.ext e.symm)
  simp [State.getW, State.setW, h']

theorem getW_setW (s : State) (i j : WReg) (v : Wide) : (s.setW i v).getW j = if j = i then v else s.getW j := by
  split
  · next h => rw [h, getW_setW_same]
  · next h => exact getW_setW_ne s i j v h

/-! ### setW -/

@[simp] theorem setW_w (s : State) (i : WReg) (v : Wide) : (s.setW i v).w = s.w.set i.val v i.isLt := rfl
@[simp] theorem setW_kn (s : State) (i : WReg) (v : Wide) : (s.setW i v).kn = s.kn := rfl
@[simp] theorem setW_ke (s : State) (i : WReg) (v : Wide) : (s.setW i v).ke = s.ke := rfl
@[simp] theorem setW_kd (s : State) (i : WReg) (v : Wide) : (s.setW i v).kd = s.kd := rfl
@[simp] theorem setW_ibuf (s : State) (i : WReg) (v : Wide) : (s.setW i v).ibuf = s.ibuf := rfl
@[simp] theorem setW_obuf (s : State) (i : WReg) (v : Wide) : (s.setW i v).obuf = s.obuf := rfl
@[simp] theorem setW_ibufLen (s : State) (i : WReg) (v : Wide) : (s.setW i v).ibufLen = s.ibufLen := rfl
@[simp] theorem setW_obufLen (s : State) (i : WReg) (v : Wide) : (s.setW i v).obufLen = s.obufLen := rfl
@[simp] theorem setW_ctrl (s : State) (i : WReg) (v : Wide) : (s.setW i v).ctrl = s.ctrl := rfl
@[simp] theorem setW_status (s : State) (i : WReg) (v : Wide) : (s.setW i v).status = s.status := rfl
@[simp] theorem setW_err (s : State) (i : WReg) (v : Wide) : (s.setW i v).err = s.err := rfl
@[simp] theorem setW_cmd (s : State) (i : WReg) (v : Wide) : (s.setW i v).cmd = s.cmd := rfl
@[simp] theorem setW_ctx (s : State) (i : WReg) (v : Wide) : (s.setW i v).ctx = s.ctx := rfl
@[simp] theorem setW_inputs (s : State) (i : WReg) (v : Wide) : (s.setW i v).inputs = s.inputs := rfl
@[simp] theorem setW_resp (s : State) (i : WReg) (v : Wide) : (s.setW i v).resp = s.resp := rfl

/-! ### mapStatus -/

@[simp] theorem mapStatus_w (s : State) (f : Status → Status) : (s.mapStatus f).w = s.w := rfl
@[simp] theorem mapStatus_kn (s : State) (f : Status → Status) : (s.mapStatus f).kn = s.kn := rfl
@[simp] theorem mapStatus_ke (s : State) (f : Status → Status) : (s.mapStatus f).ke = s.ke := rfl
@[simp] theorem mapStatus_kd (s : State) (f : Status → Status) : (s.mapStatus f).kd = s.kd := rfl
@[simp] theorem mapStatus_ibuf (s : State) (f : Status → Status) : (s.mapStatus f).ibuf = s.ibuf := rfl
@[simp] theorem mapStatus_obuf (s : State) (f : Status → Status) : (s.mapStatus f).obuf = s.obuf := rfl
@[simp] theorem mapStatus_ibufLen (s : State) (f : Status → Status) : (s.mapStatus f).ibufLen = s.ibufLen := rfl
@[simp] theorem mapStatus_obufLen (s : State) (f : Status → Status) : (s.mapStatus f).obufLen = s.obufLen := rfl
@[simp] theorem mapStatus_ctrl (s : State) (f : Status → Status) : (s.mapStatus f).ctrl = s.ctrl := rfl
@[simp] theorem mapStatus_status (s : State) (f : Status → Status) : (s.mapStatus f).status = f s.status := rfl
@[simp] theorem mapStatus_err (s : State) (f : Status → Status) : (s.mapStatus f).err = s.err := rfl
@[simp] theorem mapStatus_cmd (s : State) (f : Status → Status) : (s.mapStatus f).cmd = s.cmd := rfl
@[simp] theorem mapStatus_ctx (s : State) (f : Status → Status) : (s.mapStatus f).ctx = s.ctx := rfl
@[simp] theorem mapStatus_inputs (s : State) (f : Status → Status) : (s.mapStatus f).inputs = s.inputs := rfl
@[simp] theorem mapStatus_resp (s : State) (f : Status → Status) : (s.mapStatus f).resp = s.resp := rfl
@[simp] theorem mapStatus_getW (s : State) (f : Status → Status) (j : WReg) : (s.mapStatus f).getW j = s.getW j := rfl
@[simp] theorem mapStatus_regValue (s : State) (f : Status → Status) (j : WReg) : (s.mapStatus f).regValue j = s.regValue j := rfl

/-! ### answer -/

@[simp] theorem answer_w (s : State) (r : Response) : (s.answer r).w = s.w := rfl
@[simp] theorem answer_kn (s : State) (r : Response) : (s.answer r).kn = s.kn := rfl
@[simp] theorem answer_ke (s : State) (r : Response) : (s.answer r).ke = s.ke := rfl
@[simp] theorem answer_kd (s : State) (r : Response) : (s.answer r).kd = s.kd := rfl
@[simp] theorem answer_ibuf (s : State) (r : Response) : (s.answer r).ibuf = s.ibuf := rfl
@[simp] theorem answer_obuf (s : State) (r : Response) : (s.answer r).obuf = s.obuf := rfl
@[simp] theorem answer_ibufLen (s : State) (r : Response) : (s.answer r).ibufLen = s.ibufLen := rfl
@[simp] theorem answer_obufLen (s : State) (r : Response) : (s.answer r).obufLen = s.obufLen := rfl
@[simp] theorem answer_ctrl (s : State) (r : Response) : (s.answer r).ctrl = s.ctrl := rfl
@[simp] theorem answer_status (s : State) (r : Response) : (s.answer r).status = s.status := rfl
@[simp] theorem answer_err (s : State) (r : Response) : (s.answer r).err = s.err := rfl
@[simp] theorem answer_cmd (s : State) (r : Response) : (s.answer r).cmd = s.cmd := rfl
@[simp] theorem answer_ctx (s : State) (r : Response) : (s.answer r).ctx = s.ctx := rfl
@[simp] theorem answer_inputs (s : State) (r : Response) : (s.answer r).inputs = s.inputs := rfl
@[simp] theorem answer_resp (s : State) (r : Response) : (s.answer r).resp = some r := rfl
@[simp] theorem answer_getW (s : State) (r : Response) (j : WReg) : (s.answer r).getW j = s.getW j := rfl
@[simp] theorem answer_regValue (s : State) (r : Response) (j : WReg) : (s.answer r).regValue j = s.regValue j := rfl

/-! ### setKeys -/

@[simp] theorem setKeys_w (s : State) (n e d : Wide) (b : Bool) : (setKeys n e d b s).w = s.w := rfl
@[simp] theorem setKeys_kn (s : State) (n e d : Wide) (b : Bool) : (setKeys n e d b s).kn = n := rfl
@[simp] theorem setKeys_ke (s : State) (n e d : Wide) (b : Bool) : (setKeys n e d b s).ke = e := rfl
@[simp] theorem setKeys_kd (s : State) (n e d : Wide) (b : Bool) : (setKeys n e d b s).kd = d := rfl
@[simp] theorem setKeys_ibuf (s : State) (n e d : Wide) (b : Bool) : (setKeys n e d b s).ibuf = s.ibuf := rfl
@[simp] theorem setKeys_obuf (s : State) (n e d : Wide) (b : Bool) : (setKeys n e d b s).obuf = s.obuf := rfl
@[simp] theorem setKeys_ibufLen (s : State) (n e d : Wide) (b : Bool) : (setKeys n e d b s).ibufLen = s.ibufLen := rfl
@[simp] theorem setKeys_obufLen (s : State) (n e d : Wide) (b : Bool) : (setKeys n e d b s).obufLen = s.obufLen := rfl
@[simp] theorem setKeys_ctrl (s : State) (n e d : Wide) (b : Bool) : (setKeys n e d b s).ctrl = s.ctrl := rfl
@[simp] theorem setKeys_status (s : State) (n e d : Wide) (b : Bool) : (setKeys n e d b s).status = s.status.setKeyValid b := rfl
@[simp] theorem setKeys_err (s : State) (n e d : Wide) (b : Bool) : (setKeys n e d b s).err = s.err := rfl
@[simp] theorem setKeys_cmd (s : State) (n e d : Wide) (b : Bool) : (setKeys n e d b s).cmd = s.cmd := rfl
@[simp] theorem setKeys_ctx (s : State) (n e d : Wide) (b : Bool) : (setKeys n e d b s).ctx = s.ctx := rfl
@[simp] theorem setKeys_inputs (s : State) (n e d : Wide) (b : Bool) : (setKeys n e d b s).inputs = s.inputs := rfl
@[simp] theorem setKeys_resp (s : State) (n e d : Wide) (b : Bool) : (setKeys n e d b s).resp = s.resp := rfl
@[simp] theorem setKeys_getW (s : State) (n e d : Wide) (b : Bool) (j : WReg) : (setKeys n e d b s).getW j = s.getW j := rfl
@[simp] theorem setKeys_regValue (s : State) (n e d : Wide) (b : Bool) (j : WReg) : (setKeys n e d b s).regValue j = s.regValue j := rfl

/-! ### setObuf -/

@[simp] theorem setObuf_w (s : State) (l : List Byte) (n : Nat) : (setObuf l n s).w = s.w := rfl
@[simp] theorem setObuf_kn (s : State) (l : List Byte) (n : Nat) : (setObuf l n s).kn = s.kn := rfl
@[simp] theorem setObuf_ke (s : State) (l : List Byte) (n : Nat) : (setObuf l n s).ke = s.ke := rfl
@[simp] theorem setObuf_kd (s : State) (l : List Byte) (n : Nat) : (setObuf l n s).kd = s.kd := rfl
@[simp] theorem setObuf_ibuf (s : State) (l : List Byte) (n : Nat) : (setObuf l n s).ibuf = s.ibuf := rfl
@[simp] theorem setObuf_obuf (s : State) (l : List Byte) (n : Nat) : (setObuf l n s).obuf = bufferOf l := rfl
@[simp] theorem setObuf_ibufLen (s : State) (l : List Byte) (n : Nat) : (setObuf l n s).ibufLen = s.ibufLen := rfl
@[simp] theorem setObuf_obufLen (s : State) (l : List Byte) (n : Nat) : (setObuf l n s).obufLen = BitVec.ofNat 8 n := rfl
@[simp] theorem setObuf_ctrl (s : State) (l : List Byte) (n : Nat) : (setObuf l n s).ctrl = s.ctrl := rfl
@[simp] theorem setObuf_status (s : State) (l : List Byte) (n : Nat) : (setObuf l n s).status = s.status := rfl
@[simp] theorem setObuf_err (s : State) (l : List Byte) (n : Nat) : (setObuf l n s).err = s.err := rfl
@[simp] theorem setObuf_cmd (s : State) (l : List Byte) (n : Nat) : (setObuf l n s).cmd = s.cmd := rfl
@[simp] theorem setObuf_ctx (s : State) (l : List Byte) (n : Nat) : (setObuf l n s).ctx = s.ctx := rfl
@[simp] theorem setObuf_inputs (s : State) (l : List Byte) (n : Nat) : (setObuf l n s).inputs = s.inputs := rfl
@[simp] theorem setObuf_resp (s : State) (l : List Byte) (n : Nat) : (setObuf l n s).resp = s.resp := rfl
@[simp] theorem setObuf_getW (s : State) (l : List Byte) (n : Nat) (j : WReg) : (setObuf l n s).getW j = s.getW j := rfl
@[simp] theorem setObuf_regValue (s : State) (l : List Byte) (n : Nat) (j : WReg) : (setObuf l n s).regValue j = s.regValue j := rfl

/-! ### finish -/

@[simp] theorem finish_w (s : State) : (finish s).w = s.w := rfl
@[simp] theorem finish_kn (s : State) : (finish s).kn = s.kn := rfl
@[simp] theorem finish_ke (s : State) : (finish s).ke = s.ke := rfl
@[simp] theorem finish_kd (s : State) : (finish s).kd = s.kd := rfl
@[simp] theorem finish_ibuf (s : State) : (finish s).ibuf = s.ibuf := rfl
@[simp] theorem finish_obuf (s : State) : (finish s).obuf = s.obuf := rfl
@[simp] theorem finish_ibufLen (s : State) : (finish s).ibufLen = s.ibufLen := rfl
@[simp] theorem finish_obufLen (s : State) : (finish s).obufLen = s.obufLen := rfl
@[simp] theorem finish_ctrl (s : State) : (finish s).ctrl = s.ctrl := rfl
@[simp] theorem finish_status (s : State) : (finish s).status = s.status.completed := rfl
@[simp] theorem finish_err (s : State) : (finish s).err = s.err := rfl
@[simp] theorem finish_cmd (s : State) : (finish s).cmd = s.cmd := rfl
@[simp] theorem finish_ctx (s : State) : (finish s).ctx = none := rfl
@[simp] theorem finish_inputs (s : State) : (finish s).inputs = s.inputs := rfl
@[simp] theorem finish_resp (s : State) : (finish s).resp = s.resp := rfl
@[simp] theorem finish_getW (s : State) (j : WReg) : (finish s).getW j = s.getW j := rfl
@[simp] theorem finish_regValue (s : State) (j : WReg) : (finish s).regValue j = s.regValue j := rfl

/-! ### raiseError -/

@[simp] theorem raiseError_w (s : State) (c : ErrCode) : (raiseError c s).w = s.w := rfl
@[simp] theorem raiseError_kn (s : State) (c : ErrCode) : (raiseError c s).kn = s.kn := rfl
@[simp] theorem raiseError_ke (s : State) (c : ErrCode) : (raiseError c s).ke = s.ke := rfl
@[simp] theorem raiseError_kd (s : State) (c : ErrCode) : (raiseError c s).kd = s.kd := rfl
@[simp] theorem raiseError_ibuf (s : State) (c : ErrCode) : (raiseError c s).ibuf = s.ibuf := rfl
@[simp] theorem raiseError_obuf (s : State) (c : ErrCode) : (raiseError c s).obuf = s.obuf := rfl
@[simp] theorem raiseError_ibufLen (s : State) (c : ErrCode) : (raiseError c s).ibufLen = s.ibufLen := rfl
@[simp] theorem raiseError_obufLen (s : State) (c : ErrCode) : (raiseError c s).obufLen = s.obufLen := rfl
@[simp] theorem raiseError_ctrl (s : State) (c : ErrCode) : (raiseError c s).ctrl = s.ctrl := rfl
@[simp] theorem raiseError_status (s : State) (c : ErrCode) : (raiseError c s).status = s.status.failed c := rfl
@[simp] theorem raiseError_err (s : State) (c : ErrCode) : (raiseError c s).err = c.code := rfl
@[simp] theorem raiseError_cmd (s : State) (c : ErrCode) : (raiseError c s).cmd = s.cmd := rfl
@[simp] theorem raiseError_ctx (s : State) (c : ErrCode) : (raiseError c s).ctx = none := rfl
@[simp] theorem raiseError_inputs (s : State) (c : ErrCode) : (raiseError c s).inputs = s.inputs := rfl
@[simp] theorem raiseError_resp (s : State) (c : ErrCode) : (raiseError c s).resp = s.resp := rfl
@[simp] theorem raiseError_getW (s : State) (c : ErrCode) (j : WReg) : (raiseError c s).getW j = s.getW j := rfl
@[simp] theorem raiseError_regValue (s : State) (c : ErrCode) (j : WReg) : (raiseError c s).regValue j = s.regValue j := rfl

/-! ### accept -/

@[simp] theorem accept_w (s : State) (x : Word) : (accept x s).w = s.w := rfl
@[simp] theorem accept_kn (s : State) (x : Word) : (accept x s).kn = s.kn := rfl
@[simp] theorem accept_ke (s : State) (x : Word) : (accept x s).ke = s.ke := rfl
@[simp] theorem accept_kd (s : State) (x : Word) : (accept x s).kd = s.kd := rfl
@[simp] theorem accept_ibuf (s : State) (x : Word) : (accept x s).ibuf = s.ibuf := rfl
@[simp] theorem accept_obuf (s : State) (x : Word) : (accept x s).obuf = s.obuf := rfl
@[simp] theorem accept_ibufLen (s : State) (x : Word) : (accept x s).ibufLen = s.ibufLen := rfl
@[simp] theorem accept_obufLen (s : State) (x : Word) : (accept x s).obufLen = s.obufLen := rfl
@[simp] theorem accept_ctrl (s : State) (x : Word) : (accept x s).ctrl = s.ctrl := rfl
@[simp] theorem accept_status (s : State) (x : Word) : (accept x s).status = s.status.accepted := rfl
@[simp] theorem accept_err (s : State) (x : Word) : (accept x s).err = s.err := rfl
@[simp] theorem accept_cmd (s : State) (x : Word) : (accept x s).cmd = x := rfl
@[simp] theorem accept_ctx (s : State) (x : Word) : (accept x s).ctx = some ⟨s.ctrl.padz, []⟩ := rfl
@[simp] theorem accept_inputs (s : State) (x : Word) : (accept x s).inputs = s.inputs := rfl
@[simp] theorem accept_resp (s : State) (x : Word) : (accept x s).resp = s.resp := rfl
@[simp] theorem accept_getW (s : State) (x : Word) (j : WReg) : (accept x s).getW j = s.getW j := rfl
@[simp] theorem accept_regValue (s : State) (x : Word) (j : WReg) : (accept x s).regValue j = s.regValue j := rfl

/-! ### writeStatus -/

@[simp] theorem writeStatus_w (s : State) (v : Word) : (writeStatus v s).w = s.w := rfl
@[simp] theorem writeStatus_kn (s : State) (v : Word) : (writeStatus v s).kn = s.kn := rfl
@[simp] theorem writeStatus_ke (s : State) (v : Word) : (writeStatus v s).ke = s.ke := rfl
@[simp] theorem writeStatus_kd (s : State) (v : Word) : (writeStatus v s).kd = s.kd := rfl
@[simp] theorem writeStatus_ibuf (s : State) (v : Word) : (writeStatus v s).ibuf = s.ibuf := rfl
@[simp] theorem writeStatus_obuf (s : State) (v : Word) : (writeStatus v s).obuf = s.obuf := rfl
@[simp] theorem writeStatus_ibufLen (s : State) (v : Word) : (writeStatus v s).ibufLen = s.ibufLen := rfl
@[simp] theorem writeStatus_obufLen (s : State) (v : Word) : (writeStatus v s).obufLen = s.obufLen := rfl
@[simp] theorem writeStatus_ctrl (s : State) (v : Word) : (writeStatus v s).ctrl = s.ctrl := rfl
@[simp] theorem writeStatus_status (s : State) (v : Word) : (writeStatus v s).status = s.status.w1c v := rfl
@[simp] theorem writeStatus_err (s : State) (v : Word) : (writeStatus v s).err = if clearsErrf v s.status then 0#8 else s.err := rfl
@[simp] theorem writeStatus_cmd (s : State) (v : Word) : (writeStatus v s).cmd = s.cmd := rfl
@[simp] theorem writeStatus_ctx (s : State) (v : Word) : (writeStatus v s).ctx = s.ctx := rfl
@[simp] theorem writeStatus_inputs (s : State) (v : Word) : (writeStatus v s).inputs = s.inputs := rfl
@[simp] theorem writeStatus_resp (s : State) (v : Word) : (writeStatus v s).resp = s.resp := rfl
@[simp] theorem writeStatus_getW (s : State) (v : Word) (j : WReg) : (writeStatus v s).getW j = s.getW j := rfl
@[simp] theorem writeStatus_regValue (s : State) (v : Word) (j : WReg) : (writeStatus v s).regValue j = s.regValue j := rfl

/-! ### resetStep -/

@[simp] theorem resetStep_w (s : State) : (resetStep s).w = Vector.replicate 16 0#1024 := rfl
@[simp] theorem resetStep_kn (s : State) : (resetStep s).kn = 0#1024 := rfl
@[simp] theorem resetStep_ke (s : State) : (resetStep s).ke = 0#1024 := rfl
@[simp] theorem resetStep_kd (s : State) : (resetStep s).kd = 0#1024 := rfl
@[simp] theorem resetStep_ibuf (s : State) : (resetStep s).ibuf = Vector.replicate 128 0#8 := rfl
@[simp] theorem resetStep_obuf (s : State) : (resetStep s).obuf = Vector.replicate 128 0#8 := rfl
@[simp] theorem resetStep_ibufLen (s : State) : (resetStep s).ibufLen = 0#8 := rfl
@[simp] theorem resetStep_obufLen (s : State) : (resetStep s).obufLen = 0#8 := rfl
@[simp] theorem resetStep_ctrl (s : State) : (resetStep s).ctrl = Ctrl.reset := rfl
@[simp] theorem resetStep_status (s : State) : (resetStep s).status = Status.reset := rfl
@[simp] theorem resetStep_err (s : State) : (resetStep s).err = 0#8 := rfl
@[simp] theorem resetStep_cmd (s : State) : (resetStep s).cmd = 0#32 := rfl
@[simp] theorem resetStep_ctx (s : State) : (resetStep s).ctx = none := rfl
@[simp] theorem resetStep_inputs (s : State) : (resetStep s).inputs = s.inputs := rfl
@[simp] theorem resetStep_resp (s : State) : (resetStep s).resp = s.resp := rfl

/-! ### STATUS updates -/

@[simp] theorem Status.accepted_busy (f : Status) : f.accepted.busy = true := rfl
@[simp] theorem Status.accepted_done (f : Status) : f.accepted.done = false := rfl
@[simp] theorem Status.accepted_errf (f : Status) : f.accepted.errf = f.errf := rfl
@[simp] theorem Status.accepted_fatal (f : Status) : f.accepted.fatal = f.fatal := rfl
@[simp] theorem Status.accepted_keyValid (f : Status) : f.accepted.keyValid = f.keyValid := rfl
@[simp] theorem Status.accepted_xneg (f : Status) : f.accepted.xneg = f.xneg := rfl
@[simp] theorem Status.accepted_yneg (f : Status) : f.accepted.yneg = f.yneg := rfl
@[simp] theorem Status.accepted_dshort (f : Status) : f.accepted.dshort = f.dshort := rfl
@[simp] theorem Status.accepted_cmdLost (f : Status) : f.accepted.cmdLost = f.cmdLost := rfl

@[simp] theorem Status.completed_busy (f : Status) : f.completed.busy = false := rfl
@[simp] theorem Status.completed_done (f : Status) : f.completed.done = true := rfl
@[simp] theorem Status.completed_errf (f : Status) : f.completed.errf = f.errf := rfl
@[simp] theorem Status.completed_fatal (f : Status) : f.completed.fatal = f.fatal := rfl
@[simp] theorem Status.completed_keyValid (f : Status) : f.completed.keyValid = f.keyValid := rfl
@[simp] theorem Status.completed_xneg (f : Status) : f.completed.xneg = f.xneg := rfl
@[simp] theorem Status.completed_yneg (f : Status) : f.completed.yneg = f.yneg := rfl
@[simp] theorem Status.completed_dshort (f : Status) : f.completed.dshort = f.dshort := rfl
@[simp] theorem Status.completed_cmdLost (f : Status) : f.completed.cmdLost = f.cmdLost := rfl

@[simp] theorem Status.failed_busy (f : Status) (c : ErrCode) : (f.failed c).busy = false := rfl
@[simp] theorem Status.failed_done (f : Status) (c : ErrCode) : (f.failed c).done = true := rfl
@[simp] theorem Status.failed_errf (f : Status) (c : ErrCode) : (f.failed c).errf = true := rfl
@[simp] theorem Status.failed_fatal (f : Status) (c : ErrCode) : (f.failed c).fatal = (f.fatal || decide (c = .protocol)) := rfl
@[simp] theorem Status.failed_keyValid (f : Status) (c : ErrCode) : (f.failed c).keyValid = f.keyValid := rfl
@[simp] theorem Status.failed_xneg (f : Status) (c : ErrCode) : (f.failed c).xneg = f.xneg := rfl
@[simp] theorem Status.failed_yneg (f : Status) (c : ErrCode) : (f.failed c).yneg = f.yneg := rfl
@[simp] theorem Status.failed_dshort (f : Status) (c : ErrCode) : (f.failed c).dshort = f.dshort := rfl
@[simp] theorem Status.failed_cmdLost (f : Status) (c : ErrCode) : (f.failed c).cmdLost = f.cmdLost := rfl

@[simp] theorem Status.setSigns_busy (f : Status) (x y : Int) : (f.setSigns x y).busy = f.busy := rfl
@[simp] theorem Status.setSigns_done (f : Status) (x y : Int) : (f.setSigns x y).done = f.done := rfl
@[simp] theorem Status.setSigns_errf (f : Status) (x y : Int) : (f.setSigns x y).errf = f.errf := rfl
@[simp] theorem Status.setSigns_fatal (f : Status) (x y : Int) : (f.setSigns x y).fatal = f.fatal := rfl
@[simp] theorem Status.setSigns_keyValid (f : Status) (x y : Int) : (f.setSigns x y).keyValid = f.keyValid := rfl
@[simp] theorem Status.setSigns_xneg (f : Status) (x y : Int) : (f.setSigns x y).xneg = decide (x < 0) := rfl
@[simp] theorem Status.setSigns_yneg (f : Status) (x y : Int) : (f.setSigns x y).yneg = decide (y < 0) := rfl
@[simp] theorem Status.setSigns_dshort (f : Status) (x y : Int) : (f.setSigns x y).dshort = f.dshort := rfl
@[simp] theorem Status.setSigns_cmdLost (f : Status) (x y : Int) : (f.setSigns x y).cmdLost = f.cmdLost := rfl

@[simp] theorem Status.setShort_busy (f : Status) (b : Bool) : (f.setShort b).busy = f.busy := rfl
@[simp] theorem Status.setShort_done (f : Status) (b : Bool) : (f.setShort b).done = f.done := rfl
@[simp] theorem Status.setShort_errf (f : Status) (b : Bool) : (f.setShort b).errf = f.errf := rfl
@[simp] theorem Status.setShort_fatal (f : Status) (b : Bool) : (f.setShort b).fatal = f.fatal := rfl
@[simp] theorem Status.setShort_keyValid (f : Status) (b : Bool) : (f.setShort b).keyValid = f.keyValid := rfl
@[simp] theorem Status.setShort_xneg (f : Status) (b : Bool) : (f.setShort b).xneg = f.xneg := rfl
@[simp] theorem Status.setShort_yneg (f : Status) (b : Bool) : (f.setShort b).yneg = f.yneg := rfl
@[simp] theorem Status.setShort_dshort (f : Status) (b : Bool) : (f.setShort b).dshort = b := rfl
@[simp] theorem Status.setShort_cmdLost (f : Status) (b : Bool) : (f.setShort b).cmdLost = f.cmdLost := rfl

@[simp] theorem Status.setKeyValid_busy (f : Status) (b : Bool) : (f.setKeyValid b).busy = f.busy := rfl
@[simp] theorem Status.setKeyValid_done (f : Status) (b : Bool) : (f.setKeyValid b).done = f.done := rfl
@[simp] theorem Status.setKeyValid_errf (f : Status) (b : Bool) : (f.setKeyValid b).errf = f.errf := rfl
@[simp] theorem Status.setKeyValid_fatal (f : Status) (b : Bool) : (f.setKeyValid b).fatal = f.fatal := rfl
@[simp] theorem Status.setKeyValid_keyValid (f : Status) (b : Bool) : (f.setKeyValid b).keyValid = b := rfl
@[simp] theorem Status.setKeyValid_xneg (f : Status) (b : Bool) : (f.setKeyValid b).xneg = f.xneg := rfl
@[simp] theorem Status.setKeyValid_yneg (f : Status) (b : Bool) : (f.setKeyValid b).yneg = f.yneg := rfl
@[simp] theorem Status.setKeyValid_dshort (f : Status) (b : Bool) : (f.setKeyValid b).dshort = f.dshort := rfl
@[simp] theorem Status.setKeyValid_cmdLost (f : Status) (b : Bool) : (f.setKeyValid b).cmdLost = f.cmdLost := rfl

@[simp] theorem Status.w1c_busy (f : Status) (v : Word) : (f.w1c v).busy = f.busy := rfl
@[simp] theorem Status.w1c_done (f : Status) (v : Word) : (f.w1c v).done = (f.done && !v.getLsbD 1) := rfl
@[simp] theorem Status.w1c_errf (f : Status) (v : Word) : (f.w1c v).errf = (f.errf && !clearsErrf v f) := rfl
@[simp] theorem Status.w1c_fatal (f : Status) (v : Word) : (f.w1c v).fatal = f.fatal := rfl
@[simp] theorem Status.w1c_keyValid (f : Status) (v : Word) : (f.w1c v).keyValid = f.keyValid := rfl
@[simp] theorem Status.w1c_xneg (f : Status) (v : Word) : (f.w1c v).xneg = f.xneg := rfl
@[simp] theorem Status.w1c_yneg (f : Status) (v : Word) : (f.w1c v).yneg = f.yneg := rfl
@[simp] theorem Status.w1c_dshort (f : Status) (v : Word) : (f.w1c v).dshort = f.dshort := rfl
@[simp] theorem Status.w1c_cmdLost (f : Status) (v : Word) : (f.w1c v).cmdLost = (f.cmdLost && !v.getLsbD 8) := rfl

end Sys2Proof.Machine
end

