-- ==== Sys2Proof/Laws/Bus.lean ====
section
/-!
SUPPORT. The register window: each location is reached at its own address and at no other (10 R34), the words of a wide
value and of a buffer (10 R32, R40), and the two things a transaction can do (20 R100, R103).
-/
namespace Sys2Proof.Machine

/-! ### Addresses -/

/-- A location is reached at its address (10 R34). -/
theorem locate_addr (l : Loc) : locate l.addr 4 = some l := by
  cases l with
  | ibuf j => revert j; decide
  | obuf j => revert j; decide
  | kn j => revert j; decide
  | ke j => revert j; decide
  | kd j => revert j; decide
  | w i j => revert i j; decide
  | _ => decide

/-- What one index of the window holds stands at that index (10 R34). -/
theorem addr_of_locOfIndex {n : Nat} {l : Loc} (hn : n < 1024) (h : locOfIndex n = some l) : l.addr.toNat = 4 * n := by
  have key : ∀ n : Fin 1024, (locOfIndex n.val).all (fun l => l.addr.toNat == 4 * n.val) = true := by decide +kernel
  simpa [h] using key ⟨n, hn⟩

/-- A location is reached by a 32-bit access at its address only (20 R102, R103). -/
theorem locate_eq_some_iff {a : BitVec 12} {size : Nat} {l : Loc} : locate a size = some l ↔ size = 4 ∧ a = l.addr := by
  constructor
  · intro h
    unfold locate at h
    split at h
    · next hc =>
      refine ⟨hc.1, BitVec.eq_of_toNat_eq ?_⟩
      have := addr_of_locOfIndex (by have := a.isLt; omega) h
      omega
    · cases h
  · rintro ⟨rfl, rfl⟩; exact locate_addr l

/-! ### Words -/

/-- The bits of word `j` of a wide value (10 R32). -/
theorem getLsbD_wideWord (v : Wide) (j : Fin 32) {k : Nat} (hk : k < 32) :
    (wideWord v j).getLsbD k = v.getLsbD (992 - 32 * j.val + k) := by
  simp [wideWord, wideWordLow, hk]

/-- The bits of a wide value with word `j` replaced (10 R32). -/
theorem getLsbD_setWideWord (v : Wide) (j : Fin 32) (x : Word) {k : Nat} (hk : k < 1024) :
    (setWideWord v j x).getLsbD k =
      if 992 - 32 * j.val ≤ k ∧ k < 1024 - 32 * j.val then x.getLsbD (k - (992 - 32 * j.val)) else v.getLsbD k := by
  have hone : ∀ m, (0xFFFFFFFF#32).getLsbD m = decide (m < 32) := fun m => by
    rw [show (0xFFFFFFFF#32) = BitVec.allOnes 32 by decide, BitVec.getLsbD_allOnes]
  simp only [setWideWord, wideWordLow, BitVec.getLsbD_or, BitVec.getLsbD_and, BitVec.getLsbD_not,
    BitVec.getLsbD_shiftLeft, BitVec.zeroExtend, BitVec.getLsbD_setWidth, hone, hk]
  by_cases h1 : k < 992 - 32 * j.val
  · rw [if_neg (by omega)]; simp [h1]
  · by_cases h2 : k < 1024 - 32 * j.val
    · rw [if_pos (by omega)]
      have a1 : k - (992 - 32 * j.val) < 32 := by omega
      have a2 : k - (992 - 32 * j.val) < 1024 := by omega
      simp [h1, a1, a2]
    · rw [if_neg (by omega)]
      have a1 : ¬ k - (992 - 32 * j.val) < 32 := by omega
      simp [a1, BitVec.getLsbD_of_ge x (k - (992 - 32 * j.val)) (by omega)]

/-- A word written is the word read back (10 R32). -/
theorem wideWord_setWideWord_same (v : Wide) (j : Fin 32) (x : Word) : wideWord (setWideWord v j x) j = x := by
  apply BitVec.eq_of_getLsbD_eq
  intro k hk
  rw [getLsbD_wideWord _ _ hk, getLsbD_setWideWord _ _ _ (by omega), if_pos (by omega)]
  congr 1; omega

/-- Writing one word keeps the others (10 R32). -/
theorem wideWord_setWideWord_ne (v : Wide) {i j : Fin 32} (x : Word) (h : i ≠ j) :
    wideWord (setWideWord v j x) i = wideWord v i := by
  have h' : i.val ≠ j.val := fun e => h (Fin.ext e)
  apply BitVec.eq_of_getLsbD_eq
  intro k hk
  rw [getLsbD_wideWord _ _ hk, getLsbD_setWideWord _ _ _ (by omega), if_neg (by omega), getLsbD_wideWord _ _ hk]

/-- A wide value is its 32 words (20 R105). -/
theorem wide_ext {v u : Wide} (h : ∀ j, wideWord v j = wideWord u j) : v = u := by
  apply BitVec.eq_of_getLsbD_eq
  intro k hk
  have hj : (992 - 32 * (31 - k / 32) + k % 32) = k := by omega
  have := congrArg (fun w : Word => w.getLsbD (k % 32)) (h ⟨31 - k / 32, by omega⟩)
  simpa only [getLsbD_wideWord _ _ (show k % 32 < 32 by omega), hj] using this

/-- The bytes of a buffer with word `j` replaced: the lower index is the more significant lane (10 R40). -/
theorem setBufWord_get (b : Vector Byte 128) (j : Fin 32) (x : Word) (k : Fin 128) :
    (setBufWord b j x)[k.val] = if k.val / 4 = j.val then x.extractLsb' (24 - 8 * (k.val % 4)) 8 else b[k.val] := by
  simp only [setBufWord, laneIndex, lane, Vector.getElem_set]
  by_cases h : k.val / 4 = j.val
  · have hk : k.val % 4 = 0 ∨ k.val % 4 = 1 ∨ k.val % 4 = 2 ∨ k.val % 4 = 3 := by omega
    have hn : k.val = 4 * j.val + k.val % 4 := by omega
    rcases hk with hk | hk | hk | hk <;> rw [hk] at hn <;> simp [h, hn] <;>
      exact fun hc => absurd (by omega) hc
  · have h0 : ∀ n < 4, ¬ 4 * j.val + n = k.val := by intro n hn e; omega
    simp [h, h0 1 (by norm_num), h0 2 (by norm_num), h0 3 (by norm_num)]
    intro e; exact absurd e (h0 0 (by norm_num))

/-! ### Transactions -/

/-- A write is answered OK with its effect, or BUSERR with none (20 R103, R108). -/
theorem writeStep_cases (a : BitVec 12) (size : Nat) (v : Word) (s : State) :
    (∃ l, locate a size = some l ∧ l.accessible s = true ∧ l.writable = true ∧
      writeStep a size v s = (writeLoc v s l).answer { err := false, rdata := none }) ∨
    writeStep a size v s = s.answer { err := true, rdata := none } := by
  unfold writeStep writeTarget
  cases hl : locate a size with
  | none => exact .inr rfl
  | some l =>
    cases ha : l.accessible s <;> cases hw : l.writable <;> simp [ha, hw]

/-- A write to a location that may be written now (20 R100). -/
theorem writeStep_addr {l : Loc} {s : State} (ha : l.accessible s = true) (hw : l.writable = true) (v : Word) :
    writeStep l.addr 4 v s = (writeLoc v s l).answer { err := false, rdata := none } := by
  simp [writeStep, writeTarget, locate_addr, ha, hw]

/-- A read of a location that may be read now (20 R100). -/
theorem busRead_addr {l : Loc} {s : State} (ha : l.accessible s = true) :
    busRead l.addr 4 s = { err := false, rdata := some (readLoc s l) } := by
  simp [busRead, locate_addr, ha]

/-- While BUSY = 0 every location may be accessed (20 R107). -/
theorem accessible_of_idle {s : State} (h : s.status.busy = false) (l : Loc) : l.accessible s = true := by
  simp [Loc.accessible, h]

end Sys2Proof.Machine
end

