-- ==== Sys2Proof/Laws/Bytes.lean ====
section
/-!
SUPPORT. Byte strings and their big-endian values (00 R9): BE of an append, BE_L and BE are inverse, the byte lengths
(00 R12, R13), and the bytes of a buffer.
-/
namespace Sys2Proof.Machine

/-! ### BE -/

@[simp] theorem beValue_nil : beValue [] = 0 := rfl

theorem beValue_append_singleton (s : List Byte) (b : Byte) : beValue (s ++ [b]) = beValue s * 256 + b.toNat := by
  simp [beValue, List.foldl_append]

theorem beValue_append (s t : List Byte) : beValue (s ++ t) = beValue s * 256 ^ t.length + beValue t := by
  induction t using List.reverseRecOn with
  | nil => simp
  | append_singleton t b ih =>
    rw [← List.append_assoc, beValue_append_singleton, ih, beValue_append_singleton, List.length_append,
      List.length_singleton, pow_succ]
    ring

theorem beValue_cons (b : Byte) (s : List Byte) : beValue (b :: s) = b.toNat * 256 ^ s.length + beValue s := by
  have := beValue_append [b] s
  simpa [beValue] using this

theorem beValue_lt (s : List Byte) : beValue s < 256 ^ s.length := by
  induction s using List.reverseRecOn with
  | nil => simp
  | append_singleton s b ih =>
    rw [beValue_append_singleton, List.length_append, List.length_singleton, pow_succ]
    have := b.isLt
    omega

/-! ### BE_L -/

@[simp] theorem beBytes_zero (v : Nat) : beBytes 0 v = [] := rfl

theorem beBytes_succ (L v : Nat) : beBytes (L + 1) v = beBytes L (v / 256) ++ [BitVec.ofNat 8 v] := rfl

@[simp] theorem beBytes_length (L : Nat) : ∀ v, (beBytes L v).length = L := by
  induction L with
  | zero => simp
  | succ L ih => intro v; rw [beBytes_succ, List.length_append, ih]; rfl

/-- BE(BE_L(v)) = v for v < 256^L (00 R9). -/
theorem beValue_beBytes (L : Nat) : ∀ v, v < 256 ^ L → beValue (beBytes L v) = v := by
  induction L with
  | zero => intro v h; simp at h; simp [h]
  | succ L ih =>
    intro v h
    rw [beBytes_succ, beValue_append_singleton, ih _ (by rw [pow_succ] at h; omega), BitVec.toNat_ofNat]
    omega

/-- BE_L is the unique string: BE_|s|(BE(s)) = s (00 R9). -/
theorem beBytes_beValue (s : List Byte) : beBytes s.length (beValue s) = s := by
  induction s using List.reverseRecOn with
  | nil => rfl
  | append_singleton s b ih =>
    have hb := b.isLt
    rw [List.length_append, List.length_singleton, beBytes_succ, beValue_append_singleton]
    have h1 : (beValue s * 256 + b.toNat) / 256 = beValue s := by omega
    rw [h1, ih]
    congr 2
    apply BitVec.eq_of_toNat_eq
    rw [BitVec.toNat_ofNat]; omega

theorem beBytes_getElem (L : Nat) : ∀ (v i : Nat) (h : i < (beBytes L v).length),
    ((beBytes L v)[i]).toNat = v / 256 ^ (L - 1 - i) % 256 := by
  induction L with
  | zero => intro v i h; simp at h
  | succ L ih =>
    intro v i h
    rw [beBytes_length] at h
    simp only [beBytes_succ]
    by_cases hi : i < L
    · rw [List.getElem_append_left (by simpa using hi), ih, Nat.div_div_eq_div_mul]
      congr 2
      have : L + 1 - 1 - i = (L - 1 - i) + 1 := by omega
      rw [this, pow_succ, mul_comm]
    · have hi' : i = L := by omega
      subst hi'
      rw [List.getElem_append_right (by simp)]
      simp

theorem beBytes_append_zeros (n L v : Nat) (h : v < 256 ^ L) : beBytes (n + L) v = zeroBytes n ++ beBytes L v := by
  have hz : ∀ n, beValue (zeroBytes n) = 0 := by
    intro n
    induction n with
    | zero => rfl
    | succ n ih => rw [zeroBytes, List.replicate_succ, beValue_cons]; simpa [zeroBytes] using ih
  have hl : (zeroBytes n ++ beBytes L v).length = n + L := by simp [zeroBytes]
  have := beBytes_beValue (zeroBytes n ++ beBytes L v)
  rw [hl, beValue_append, hz, zero_mul, zero_add, beValue_beBytes L v h] at this
  exact this

/-! ### Byte lengths -/

@[simp] theorem naturalLength_zero : naturalLength 0 = 0 := rfl

theorem lt_pow_naturalLength (v : Nat) : v < 256 ^ naturalLength v := by
  have h : (256 : Nat) ^ naturalLength v = 2 ^ (8 * naturalLength v) := by
    rw [pow_mul]; norm_num
  rw [h]
  exact bitlen_le_iff.mp (by unfold naturalLength; omega)

theorem naturalLength_le_iff {v n : Nat} : naturalLength v ≤ n ↔ v < 256 ^ n := by
  have h : (256 : Nat) ^ n = 2 ^ (8 * n) := by
    rw [pow_mul]; norm_num
  rw [h, ← bitlen_le_iff, naturalLength]; omega

theorem lt_pow_decodeCount (v : Nat) : v < 256 ^ decodeCount v := by
  have h : (256 : Nat) ^ decodeCount v = 2 ^ (8 * decodeCount v) := by
    rw [pow_mul]; norm_num
  rw [h]
  exact bitlen_le_iff.mp (by unfold decodeCount; omega)

theorem decodeCount_le {v n : Nat} (h : v < 2 ^ (8 * n + 7)) : decodeCount v ≤ n + 1 := by
  have := bitlen_le_iff.mpr h
  unfold decodeCount; omega

/-! ### decode -/

/-- The first byte of BE_L and the rest. -/
theorem beBytes_cons (L v : Nat) (_ : v < 256 ^ (L + 1)) :
    beBytes (L + 1) v = BitVec.ofNat 8 (v / 256 ^ L) :: beBytes L (v % 256 ^ L) := by
  apply List.ext_getElem
  · simp
  · intro i h1 h2
    apply BitVec.eq_of_toNat_eq
    rw [beBytes_getElem]
    cases i with
    | zero => simp
    | succ i =>
      simp only [List.getElem_cons_succ]
      rw [beBytes_getElem]
      simp at h1
      have e : L + 1 - 1 - (i + 1) = L - 1 - i := by omega
      rw [e]
      have : (256:Nat) ^ L = 256 ^ (L - 1 - i) * 256 ^ (i + 1) := by rw [← pow_add]; congr 1; omega
      rw [this, Nat.mod_mul_right_div_self, Nat.mod_mod_of_dvd _ (dvd_pow_self _ (by omega))]

/-- What decode gives, in numbers (42 R310-R313). -/
theorem decodeChunk_eq (v : Nat) : decodeChunk v =
    ((beBytes (decodeCount v - 1) (v % 256 ^ (decodeCount v - 1))).take
      (v / 256 ^ (decodeCount v - 1)), decide (decodeCount v - 1 < v / 256 ^ (decodeCount v - 1))) := by
  have hb : decodeCount v = (decodeCount v - 1) + 1 := by simp [decodeCount]
  have hlt := lt_pow_decodeCount v
  unfold decodeChunk
  rw [hb, beBytes_cons _ _ (by rw [← hb]; exact hlt)]
  simp only [Nat.add_sub_cancel, beBytes_length, BitVec.toNat_ofNat]
  have : v / 256 ^ (decodeCount v - 1) < 2 ^ 8 := by
    rw [Nat.div_lt_iff_lt_mul (by positivity)]
    calc v < 256 ^ decodeCount v := hlt
      _ = 2 ^ 8 * 256 ^ (decodeCount v - 1) := by
        conv_lhs => rw [hb, pow_succ, mul_comm]
        rfl
  rw [Nat.mod_eq_of_lt this]

theorem decodeChunk_length (v : Nat) :
    (decodeChunk v).1.length = min (v / 256 ^ (decodeCount v - 1)) (decodeCount v - 1) := by
  rw [decodeChunk_eq]; simp

/-- A wide value decodes at most 128 data bytes (42 R316). -/
theorem decodeCount_wide {v : Nat} (h : v < 2 ^ 1024) : decodeCount v ≤ 129 := by
  have := bitlen_le_iff.mpr h
  unfold decodeCount; omega

theorem decodeChunk_length_le {v : Nat} (h : v < 2 ^ 1024) : (decodeChunk v).1.length ≤ 128 := by
  rw [decodeChunk_length]; have := decodeCount_wide h; omega

/-! ### Buffers -/

@[simp] theorem bufferOf_get (s : List Byte) (i : Nat) (h : i < 128) : (bufferOf s)[i] = s.getD i 0#8 := by
  unfold bufferOf; simp

theorem bufferOf_toList (s : List Byte) (h : s.length ≤ 128) :
    (bufferOf s).toList = s ++ zeroBytes (128 - s.length) := by
  apply List.ext_getElem
  · simp [zeroBytes]; omega
  · intro i h1 h2
    have hi : i < 128 := by simpa using h1
    rw [Vector.getElem_toList, bufferOf_get s i hi]
    by_cases hs : i < s.length
    · rw [List.getElem_append_left hs, List.getD_eq_getElem s 0#8 hs]
    · rw [List.getElem_append_right (by omega), List.getD_eq_default s 0#8 (by omega)]
      simp [zeroBytes]

end Sys2Proof.Machine
end

