-- ==== Sys2Proof/Laws/Results.lean ====
section
/-!
SUPPORT. What executing a command can give, said once: every meaning is the completion of one result (44 R403), PROTOCOL
never results (42 R333, R343; 43 R363), a success keeps what the command does not write, and a command waits exactly when
it asks for a byte.
-/
namespace Sys2Proof.Machine

/-! ### Draws, chunks and blocks -/

theorem draw_eq_none_iff {n : Nat} {l : List Byte} : draw n l = none ↔ l.length < n := by
  unfold draw; split <;> simp_all

theorem draw_of_le {n : Nat} {l : List Byte} (h : n ≤ l.length) : draw n l = some (l.take n, l.drop n) := by
  simp [draw, h]

theorem draw_length {n : Nat} {l f r : List Byte} (h : draw n l = some (f, r)) : f.length = n := by
  unfold draw at h
  split at h
  · cases h; simpa
  · cases h

theorem ibufData_length (s : State) {k : Nat} (h : k ≤ 128) : (s.ibufData k).length = k := by
  simp [State.ibufData, h]

theorem buildChunk_length (k : Nat) (d f : List Byte) : (buildChunk k d f).length = 1 + d.length + f.length := by
  simp [buildChunk]; omega

/-- A chunk of k data bytes and 126 - k drawn ones has 127 bytes (42 R333). -/
theorem chunk_length {s : State} {f r : List Byte} (h : ¬ 126 < s.ibufCount)
    (hf : draw (126 - s.ibufCount) s.runningCtx.drawn = some (f, r)) :
    (buildChunk s.ibufCount (s.ibufData s.ibufCount) f).length = 127 := by
  rw [buildChunk_length, ibufData_length s (by omega), draw_length hf]; omega

theorem naturalLength_le_of_lt {c : Nat} (h : c < 2 ^ 1024) : naturalLength c ≤ 128 :=
  naturalLength_le_iff.mpr (by rw [show (256 : Nat) ^ 128 = 2 ^ 1024 by rw [show (256 : Nat) = 2 ^ 8 by rfl, ← pow_mul]]; exact h)

theorem toWide_toNat {v : Nat} (h : v < 2 ^ 1024) : (toWide v).toNat = v := Nat.mod_eq_of_lt h

theorem regValue_setW (s : State) (i j : WReg) (v : Wide) :
    (s.setW i v).regValue j = if j = i then v.toNat else s.regValue j := by
  unfold State.regValue; rw [getW_setW]; split <;> rfl

theorem regValue_lt (s : State) (i : WReg) : s.regValue i < 2 ^ 1024 := (s.getW i).isLt

theorem modExp_lt_wide {b x : Nat} {m : Wide} (h : ¬ m.toNat = 0) : modExp b x m.toNat < 2 ^ 1024 :=
  (modExp_lt (Nat.pos_of_ne_zero h)).trans m.isLt

/-- A value of a wide register never fails to fit a block (42 R343). -/
theorem storeBlock_of_lt {c : Nat} (h : c < 2 ^ 1024) (padz : Bool) (l : List Byte) (s : State) :
    storeBlock padz c l s =
      match blockPad padz c l with
      | none => .waiting
      | some pad => .success (setObuf (buildBlock pad c) 128 s) := by
  unfold storeBlock
  exact if_neg (by have := naturalLength_le_of_lt h; omega)

/-! ### One result per command -/

/-- The result each meaning completes (44 R403). -/
def resultOf : Instr → State → CmdResult
  | .nop, s => nopResult s
  | .modexp rd rs1 rs2 rs3, s => modexpResult rd rs1 rs2 rs3 s
  | .egcd rd rs1 rs2, s => egcdResult rd rs1 rs2 s
  | .modinv rd rs1 rs2, s => modinvResult rd rs1 rs2 s
  | .keygen rs1 rs2 rs3, s => keygenResult rs1 rs2 rs3 s
  | .keyload rs1 rs2 rs3, s => keyloadResult rs1 rs2 rs3 s
  | .keyclr, s => keyclrResult s
  | .chunk, s => chunkResult s
  | .unchunk rs1, s => unchunkResult rs1 s
  | .ldbuf rd, s => ldbufResult rd s
  | .stblk rs1, s => stblkResult rs1 s
  | .encblk, s => encblkResult s
  | .decblk, s => decblkResult s

theorem exec_eq (i : Instr) (s : State) : exec i s = complete s (resultOf i s) := by
  cases i <;> rfl

/-- The internal checks never fail: no command results in PROTOCOL (42 R333, R343; 43 R363). -/
theorem resultOf_ne_protocol (i : Instr) (s : State) : resultOf i s ≠ .failure .protocol := by
  intro h
  cases i <;>
    simp only [resultOf, nopResult, modexpResult, egcdResult, modinvResult, keygenResult, keyloadResult, keyclrResult,
      chunkResult, unchunkResult, ldbufResult, stblkResult, encblkResult, decblkResult] at h
  case chunk =>
    repeat' split at h
    all_goals try cases h
    next hk _ _ _ hd hc => exact hc (chunk_length hk hd)
  case stblk rs1 =>
    rw [storeBlock_of_lt (regValue_lt s rs1)] at h
    split at h <;> cases h
  case encblk =>
    repeat' split at h
    all_goals try cases h
    · next hk _ _ _ _ hd hc => exact hc (chunk_length hk hd)
    · next hn _ _ _ _ _ =>
      rw [storeBlock_of_lt (modExp_lt_wide hn)] at h
      split at h <;> cases h
  all_goals repeat' split at h
  all_goals cases h

/-- Only a command that asks for a byte waits (44 R405). -/
theorem wantsByte_eq_isWaiting (i : Instr) (s : State) : wantsByte i s = (resultOf i s).isWaiting := by
  cases i <;>
    simp only [wantsByte, resultOf, nopResult, modexpResult, egcdResult, modinvResult, keygenResult, keyloadResult,
      keyclrResult, unchunkResult, ldbufResult, decblkResult] <;>
    (repeat' split) <;> rfl

/-- The three ways a completion can go (44 R403). -/
theorem exec_cases {i : Instr} {s t : State} (h : exec i s = .next t) :
    (resultOf i s = .waiting ∧ t = s) ∨ (∃ c, c ≠ .protocol ∧ resultOf i s = .failure c ∧ t = raiseError c s) ∨
      ∃ u, resultOf i s = .success u ∧ t = finish u := by
  rw [exec_eq] at h
  cases hr : resultOf i s with
  | success u => rw [hr] at h; cases h; exact .inr (.inr ⟨u, rfl, rfl⟩)
  | failure c =>
    rw [hr] at h; cases h
    exact .inr (.inl ⟨c, fun e => resultOf_ne_protocol i s (e ▸ hr), rfl, rfl⟩)
  | waiting => rw [hr] at h; cases h; exact .inl ⟨rfl, rfl⟩

/-- A failure other than PROTOCOL leaves `failedWith` of its code (60 R502). -/
theorem raiseError_eq_failedWith {c : ErrCode} (h : c ≠ .protocol) (s : State) :
    raiseError c s = s.failedWith c.code := by
  simp [raiseError, State.failedWith, Status.failed, Status.completed, h]

/-- The completion of a success (44 R403). -/
theorem exec_of_success {i : Instr} {s t : State} (h : resultOf i s = .success t) : exec i s = .next (finish t) := by
  rw [exec_eq, h]; rfl

/-- The completion of a failure (60 R502). -/
theorem exec_of_failure {i : Instr} {s : State} {c : ErrCode} (h : resultOf i s = .failure c) :
    exec i s = .next (s.failedWith c.code) := by
  rw [exec_eq, h, complete, raiseError_eq_failedWith (fun e => resultOf_ne_protocol i s (e ▸ h))]

/-- A command that waits leaves the state as it is (44 R405). -/
theorem exec_of_waiting {i : Instr} {s : State} (h : resultOf i s = .waiting) : exec i s = .next s := by
  rw [exec_eq, h]; rfl

/-- What a success keeps, whatever the command (10 R39, R41; 30 R161). -/
theorem success_keeps {i : Instr} {s t : State} (h : resultOf i s = .success t) :
    t.ibuf = s.ibuf ∧ t.ibufLen = s.ibufLen ∧ t.ctrl = s.ctrl ∧ t.err = s.err ∧ t.cmd = s.cmd ∧ t.ctx = s.ctx ∧
      t.inputs = s.inputs ∧ t.resp = s.resp ∧ t.status.busy = s.status.busy ∧ t.status.done = s.status.done ∧
      t.status.errf = s.status.errf ∧ t.status.fatal = s.status.fatal ∧ t.status.cmdLost = s.status.cmdLost := by
  cases i <;>
    simp only [resultOf, nopResult, modexpResult, egcdResult, modinvResult, keygenResult, keyloadResult, keyclrResult,
      chunkResult, unchunkResult, ldbufResult, stblkResult, encblkResult, decblkResult, storeBlock] at h <;>
    (repeat' split at h) <;> cases h <;> simp [writeEgcd, storeDecoded]

/-- A success keeps every wide register that is no destination (10 R33). -/
theorem success_keeps_w {i : Instr} {s t : State} (h : resultOf i s = .success t) {j : WReg} (hj : j ∉ wDests i) :
    t.getW j = s.getW j := by
  cases i <;>
    simp only [resultOf, nopResult, modexpResult, egcdResult, modinvResult, keygenResult, keyloadResult, keyclrResult,
      chunkResult, unchunkResult, ldbufResult, stblkResult, encblkResult, decblkResult, storeBlock] at h <;>
    (repeat' split at h) <;> cases h <;> simp_all [writeEgcd, egcdDests, storeDecoded, wDests, getW_setW]

/-- A success of a command without key destinations keeps the triple and KEY_VALID (10 R37, R38). -/
theorem success_keeps_keys {i : Instr} {s t : State} (h : resultOf i s = .success t) (hk : writesKeys i = false) :
    t.kn = s.kn ∧ t.ke = s.ke ∧ t.kd = s.kd ∧ t.status.keyValid = s.status.keyValid := by
  cases i <;>
    simp only [resultOf, nopResult, modexpResult, egcdResult, modinvResult, keygenResult, keyloadResult, keyclrResult,
      chunkResult, unchunkResult, ldbufResult, stblkResult, encblkResult, decblkResult, storeBlock] at h <;>
    (repeat' split at h) <;> cases h <;> simp_all [writeEgcd, storeDecoded, writesKeys]

/-- A success of a command that does not write OBUF keeps it and OBUF_LEN (10 R42). -/
theorem success_keeps_obuf {i : Instr} {s t : State} (h : resultOf i s = .success t) (hk : writesObuf i = false) :
    t.obuf = s.obuf ∧ t.obufLen = s.obufLen := by
  cases i <;>
    simp only [resultOf, nopResult, modexpResult, egcdResult, modinvResult, keygenResult, keyloadResult, keyclrResult,
      chunkResult, unchunkResult, ldbufResult, stblkResult, encblkResult, decblkResult, storeBlock] at h <;>
    (repeat' split at h) <;> cases h <;> simp_all [writeEgcd, writesObuf]

/-- Only EGCD writes XNEG and YNEG, only UNCHUNK and DECBLK DSHORT (10 R51). -/
theorem success_keeps_flags {i : Instr} {s t : State} (h : resultOf i s = .success t) :
    (writesSigns i = false → t.status.xneg = s.status.xneg ∧ t.status.yneg = s.status.yneg) ∧
      (writesShort i = false → t.status.dshort = s.status.dshort) := by
  cases i <;>
    simp only [resultOf, nopResult, modexpResult, egcdResult, modinvResult, keygenResult, keyloadResult, keyclrResult,
      chunkResult, unchunkResult, ldbufResult, stblkResult, encblkResult, decblkResult, storeBlock] at h <;>
    (repeat' split at h) <;> cases h <;> simp [writeEgcd, storeDecoded, writesSigns, writesShort]

/-- A key command's success needs KEY_VALID = 0, or is KEYCLR's (41 R251, R270). -/
theorem success_key_state {i : Instr} {s t : State} (h : resultOf i s = .success t) (hk : writesKeys i = true) :
    (i = .keyclr ∧ t.kn = 0#1024 ∧ t.ke = 0#1024 ∧ t.kd = 0#1024 ∧ t.status.keyValid = false) ∨
      (((∃ a b c, i = .keygen a b c) ∨ ∃ a b c, i = .keyload a b c) ∧ s.status.keyValid = false ∧
        t.status.keyValid = true) := by
  cases i <;> simp only [writesKeys, Bool.false_eq_true] at hk <;>
    simp only [resultOf, keygenResult, keyloadResult, keyclrResult] at h <;>
    (repeat' split at h) <;> cases h <;> simp_all

end Sys2Proof.Machine
end

