-- ==== Sys2Proof/Laws/Driver.lean ====
section
/-!
SUPPORT. What the host's single operations do: the three registers it reads at any time (20 R107), the write that clears
CMDLOST (70 R622), the bits of STATUS, the error codes (60 R501), and what an API call on a path that cannot be opened
leaves (45 R465).
-/
namespace Sys2Proof.Machine

/-! ### Reads and writes -/

@[simp] theorem rd_entropy (r : Rig) (a : BitVec 12) : (r.rd a).2.entropy = r.entropy := rfl

@[simp] theorem rd_engine (r : Rig) (a : BitVec 12) : (r.rd a).2.engine = r.engine.answer (busRead a 4 r.engine) := rfl

@[simp] theorem wr_entropy (r : Rig) (a : BitVec 12) (v : Word) : (r.wr a v).entropy = r.entropy := rfl

@[simp] theorem wr_engine (r : Rig) (a : BitVec 12) (v : Word) : (r.wr a v).engine = writeStep a 4 v r.engine := rfl

/-- A read of a location that may be read now returns what it holds (20 R100). -/
theorem rd_word {r : Rig} {l : Loc} (h : l.accessible r.engine = true) : (r.rd l.addr).1 = readLoc r.engine l := by
  simp [Rig.rd, busRead_addr h, Response.word]

/-- STATUS, ERR and CMD may be read at any time (20 R107). -/
theorem rd_status (r : Rig) : (r.rd Loc.status.addr).1 = r.engine.status.toWord :=
  rd_word (by simp [Loc.accessible, Loc.busyBlocked])

theorem rd_err (r : Rig) : (r.rd Loc.err.addr).1 = r.engine.err.zeroExtend 32 :=
  rd_word (by simp [Loc.accessible, Loc.busyBlocked])

theorem rd_cmd (r : Rig) : (r.rd Loc.cmd.addr).1 = r.engine.cmd :=
  rd_word (by simp [Loc.accessible, Loc.busyBlocked])

/-- The host's clear of CMDLOST changes nothing else (10 R50, 70 R622). -/
theorem clrLost_engine (r : Rig) : r.clrLost.engine =
    { r.engine with
      status := { r.engine.status with cmdLost := false }
      resp := some { err := false, rdata := none } } := by
  have h : (Loc.status).accessible r.engine = true := by simp [Loc.accessible, Loc.busyBlocked]
  rw [Rig.clrLost, wr_engine, writeStep_addr h rfl]
  simp [writeLoc, writeStatus, Status.w1c, clearsErrf, State.answer]

/-! ### The bits of STATUS (10 R49) -/

/-- The bits a host procedure tests. -/
theorem status_bits (f : Status) : f.toWord.getLsbD 0 = f.busy ∧ f.toWord.getLsbD 1 = f.done ∧
    f.toWord.getLsbD 2 = f.errf ∧ f.toWord.getLsbD 3 = f.fatal ∧ f.toWord.getLsbD 4 = f.keyValid ∧
    f.toWord.getLsbD 8 = f.cmdLost := by
  obtain ⟨a, b, c, d, e, g, h, i, j⟩ := f
  revert a b c d e g h i j
  decide

/-! ### Error codes -/

/-- The code of an error names that error and no other (60 R501). -/
theorem ofCode_code (c : ErrCode) : ErrCode.ofCode c.code = some c := by cases c <;> rfl

/-- What the caller of the API is told of a failure (45 R461). -/
theorem report_engineError (c : ErrCode) (w : Word) : (HostEnd.engineError c.code w).report =
    match c.rsacKind with
    | some k => .failed k
    | none => .engineError c.code w := by
  cases c <;> rfl

/-! ### Paths -/

/-- A path that cannot be opened: IOError, the rig as it was and, the model's choice (log entry 18), the destination too
(45 R460, R465). -/
theorem onPaths_unopened (proc : Source → Sink → Rig → StreamResult) {src : Option Source} {dst : Option Sink} (r : Rig)
    (h : src = none ∨ dst = none) :
    onPaths proc src dst r = { rig := r, dst := dst, how := HostEnd.ioError.report } := by
  rcases h with rfl | rfl
  · rfl
  · cases src <;> rfl

end Sys2Proof.Machine
end

