-- ==== Sys2Proof/Laws/Encoding.lean ====
section
/-!
SUPPORT. The fields of a word (30 R151), and when a row of the opcode map fits it (30 R156, R158).
-/
namespace Sys2Proof

/-! ### The fields of a word -/

/-- A word put together from its six fields, as bits (30 R151). -/
def joinFields (op : Byte) (rd rs1 rs2 rs3 : BitVec 4) (low : Byte) : Word := op ++ rd ++ rs1 ++ rs2 ++ rs3 ++ low

/-- Every word is the join of its fields. -/
theorem joinFields_self (w : Word) : joinFields (opcodeField w) (w.extractLsb' 20 4) (w.extractLsb' 16 4)
    (w.extractLsb' 12 4) (w.extractLsb' 8 4) (w.extractLsb' 0 8) = w := by
  apply BitVec.eq_of_getLsbD_eq
  intro i hi
  simp only [joinFields, opcodeField, BitVec.getLsbD_append, BitVec.getLsbD_extractLsb']
  interval_cases i <;> simp

/-- Appends of equal widths are equal part by part. -/
theorem append_eq_iff {m n : Nat} {a b : BitVec m} {c d : BitVec n} : a ++ c = b ++ d ↔ a = b ∧ c = d := by
  constructor
  · intro h
    constructor
    · ext i hi
      have := congrArg (fun x => x.getLsbD (n + i)) h
      simpa [BitVec.getLsbD_append, BitVec.getLsbD_eq_getElem hi] using this
    · ext i hi
      have := congrArg (fun x => x.getLsbD i) h
      simpa [BitVec.getLsbD_append, hi, BitVec.getLsbD_eq_getElem hi] using this
  · rintro ⟨rfl, rfl⟩; rfl

theorem joinFields_inj {a b : Byte} {c d e f g h i j : BitVec 4} {k l : Byte} :
    joinFields a c e g i k = joinFields b d f h j l ↔ a = b ∧ c = d ∧ e = f ∧ g = h ∧ i = j ∧ k = l := by
  constructor
  · intro h
    obtain ⟨h, h6⟩ := append_eq_iff.mp h
    obtain ⟨h, h5⟩ := append_eq_iff.mp h
    obtain ⟨h, h4⟩ := append_eq_iff.mp h
    obtain ⟨h, h3⟩ := append_eq_iff.mp h
    obtain ⟨h1, h2⟩ := append_eq_iff.mp h
    exact ⟨h1, h2, h3, h4, h5, h6⟩
  · rintro ⟨rfl, rfl, rfl, rfl, rfl, rfl⟩; rfl

theorem joinFields_and (a b : Byte) (c d e f g h i j : BitVec 4) (k l : Byte) :
    joinFields a c e g i k &&& joinFields b d f h j l =
      joinFields (a &&& b) (c &&& d) (e &&& f) (g &&& h) (i &&& j) (k &&& l) := by
  apply BitVec.eq_of_getLsbD_eq
  intro n _
  simp only [joinFields, BitVec.getLsbD_and, BitVec.getLsbD_append]
  grind

/-- The fields of a join. -/
theorem joinFields_fields (a : Byte) (c e g i : BitVec 4) (k : Byte) :
    opcodeField (joinFields a c e g i k) = a ∧ (joinFields a c e g i k).extractLsb' 20 4 = c ∧
      (joinFields a c e g i k).extractLsb' 16 4 = e ∧ (joinFields a c e g i k).extractLsb' 12 4 = g ∧
      (joinFields a c e g i k).extractLsb' 8 4 = i ∧ (joinFields a c e g i k).extractLsb' 0 8 = k := by
  have h := joinFields_self (joinFields a c e g i k)
  rwa [joinFields_inj] at h

theorem packWord_eq (op : Byte) (rd rs1 rs2 rs3 : WReg) :
    packWord op rd rs1 rs2 rs3 = joinFields op (.ofFin rd) (.ofFin rs1) (.ofFin rs2) (.ofFin rs3) 0#8 := rfl

/-- The fields of a packed word (30 R171). -/
theorem packWord_fields (op : Byte) (rd rs1 rs2 rs3 : WReg) :
    opcodeField (packWord op rd rs1 rs2 rs3) = op ∧ rdField (packWord op rd rs1 rs2 rs3) = rd ∧
      rs1Field (packWord op rd rs1 rs2 rs3) = rs1 ∧ rs2Field (packWord op rd rs1 rs2 rs3) = rs2 ∧
      rs3Field (packWord op rd rs1 rs2 rs3) = rs3 ∧ (packWord op rd rs1 rs2 rs3).extractLsb' 0 8 = 0#8 := by
  obtain ⟨h0, h1, h2, h3, h4, h5⟩ := joinFields_fields op (.ofFin rd) (.ofFin rs1) (.ofFin rs2) (.ofFin rs3) 0#8
  simp only [packWord_eq, rdField, rs1Field, rs2Field, rs3Field, regField, h0, h1, h2, h3, h4, h5, and_self]

/-! ### The rows of the opcode map -/

/-- The mask of a row with the given used fields: bits 31:24 and 7:0, and every field it does not use (30 R156). -/
def fixedMask (rd rs1 rs2 rs3 : Bool) : Word :=
  joinFields 0xFF#8 (if rd then 0#4 else 0xF#4) (if rs1 then 0#4 else 0xF#4) (if rs2 then 0#4 else 0xF#4)
    (if rs3 then 0#4 else 0xF#4) 0xFF#8

theorem and_ones4 (x : BitVec 4) : x &&& 0xF#4 = x := BitVec.and_allOnes

theorem and_ones8 (x : BitVec 8) : x &&& 0xFF#8 = x := BitVec.and_allOnes

/-- A row fits a word of its own opcode whose unused fields and bits 7:0 are 0 (30 R156, R158). -/
theorem fits_iff {r : Row} {op : Byte} {u1 u2 u3 u4 : Bool} (hm : r.mask = fixedMask u1 u2 u3 u4)
    (hw : r.word = joinFields op 0#4 0#4 0#4 0#4 0#8) (w : Word) : r.fits w = true ↔
      opcodeField w = op ∧ (u1 = false → w.extractLsb' 20 4 = 0#4) ∧ (u2 = false → w.extractLsb' 16 4 = 0#4) ∧
      (u3 = false → w.extractLsb' 12 4 = 0#4) ∧ (u4 = false → w.extractLsb' 8 4 = 0#4) ∧ w.extractLsb' 0 8 = 0#8 := by
  conv_lhs => rw [← joinFields_self w]
  rw [Row.fits, hm, hw, fixedMask, joinFields_and, beq_iff_eq, joinFields_inj]
  cases u1 <;> cases u2 <;> cases u3 <;> cases u4 <;> simp [and_ones4, and_ones8]

/-- The commands with their opcodes and the fields they use: rd, rs1, rs2, rs3 (30 R153). -/
def fieldTable : List (Op × Byte × Bool × Bool × Bool × Bool) :=
  [(.nop, 0x00#8, false, false, false, false), (.modexp, 0x01#8, true, true, true, true),
   (.egcd, 0x02#8, true, true, true, false), (.modinv, 0x03#8, true, true, true, false),
   (.keygen, 0x04#8, false, true, true, true), (.keyload, 0x05#8, false, true, true, true),
   (.keyclr, 0x06#8, false, false, false, false), (.chunk, 0x10#8, false, false, false, false),
   (.unchunk, 0x11#8, false, true, false, false), (.ldbuf, 0x12#8, true, false, false, false),
   (.stblk, 0x13#8, false, true, false, false), (.encblk, 0x20#8, false, false, false, false),
   (.decblk, 0x21#8, false, false, false, false)]

/-- The row of a command with the given opcode and used fields. -/
def rowOfFields (x : Op × Byte × Bool × Bool × Bool × Bool) : Row :=
  ⟨x.1, joinFields x.2.1 0#4 0#4 0#4 0#4 0#8, fixedMask x.2.2.1 x.2.2.2.1 x.2.2.2.2.1 x.2.2.2.2.2⟩

/-- The opcode map's words and masks are those of its used fields (30 R153, R155). -/
theorem opcodeMap_eq : opcodeMap = fieldTable.map rowOfFields := by decide

/-- No two rows of the opcode map share an opcode byte. -/
theorem opcodeMap_unambiguous : opcodeMap.Pairwise (fun a b => opcodeField a.word ≠ opcodeField b.word) := by decide

/-- A row that fits a word has its opcode. -/
theorem opcodeField_of_fits {r : Row} (hr : r ∈ opcodeMap) {w : Word} (h : r.fits w = true) :
    opcodeField w = opcodeField r.word := by
  rw [opcodeMap_eq, List.mem_map] at hr
  obtain ⟨x, hx, rfl⟩ := hr
  rw [fits_iff rfl rfl] at h
  exact h.1.trans (joinFields_fields _ _ _ _ _ _).1.symm

/-- The row found for a word is the one row that fits it. -/
theorem find_eq_of_fits {r : Row} (hr : r ∈ opcodeMap) {w : Word} (h : r.fits w = true) :
    opcodeMap.find? (fun r => r.fits w) = some r := by
  cases hf : opcodeMap.find? (fun r => r.fits w) with
  | none => exact absurd h (List.find?_eq_none.mp hf r hr)
  | some r' =>
    have hr' := List.mem_of_find?_eq_some hf
    have h1 := opcodeField_of_fits hr' (by simpa using List.find?_some hf)
    have h2 := opcodeField_of_fits hr h
    have key : ∀ a ∈ opcodeMap, ∀ b ∈ opcodeMap, opcodeField a.word = opcodeField b.word → a = b := by decide
    rw [key _ hr' _ hr (h1.symm.trans h2)]

/-- What a word decodes to once a row is known to fit it (30 R158). -/
theorem decodeWord_of_fits {r : Row} (hr : r ∈ opcodeMap) {w : Word} (h : r.fits w = true) :
    decodeWord w = (let i := buildInstr r.op (rdField w) (rs1Field w) (rs2Field w) (rs3Field w)
      if i.wf then .command i else .illegal .egcdDestination) := by
  rw [decodeWord, find_eq_of_fits hr h]

/-- What a word decodes to when no row fits it (30 R156, R157). -/
theorem decodeWord_of_none {w : Word} (h : ∀ r ∈ opcodeMap, r.fits w = false) :
    decodeWord w = .illegal (illegalReason w) := by
  rw [decodeWord, List.find?_eq_none.mpr (by simpa using h)]

end Sys2Proof
end

