-- ==== Sys2Proof/Laws/PerInstr.lean ====
section
/-!
SUPPORT. What holds of the encoding of each command, one lemma per constructor (30 R153, R155, R156).
-/

/-- The command's word fits one row of the opcode map, and that row with the word's fields is the command (30 R155,
R171); its bits 7:0 are 0 (30 R151). -/
def Sys2Proof.Laws.EncodingShape.Statement (i : Sys2Proof.Instr) : Prop :=
  (∃ r ∈ Sys2Proof.opcodeMap, r.fits (Sys2Proof.encode i) = true ∧
    Sys2Proof.buildInstr r.op (Sys2Proof.rdField (Sys2Proof.encode i)) (Sys2Proof.rs1Field (Sys2Proof.encode i))
      (Sys2Proof.rs2Field (Sys2Proof.encode i)) (Sys2Proof.rs3Field (Sys2Proof.encode i)) = i) ∧
  (Sys2Proof.encode i).extractLsb' 0 8 = 0#8

namespace Sys2Proof.Laws.EncodingShape

open Sys2Proof

/-- A word packed with 0 in every field its row does not use has the shape. -/
theorem ofPack {x : Op × Byte × Bool × Bool × Bool × Bool} (hx : x ∈ fieldTable) (rd rs1 rs2 rs3 : WReg)
    (h1 : x.2.2.1 = false → rd = 0) (h2 : x.2.2.2.1 = false → rs1 = 0) (h3 : x.2.2.2.2.1 = false → rs2 = 0)
    (h4 : x.2.2.2.2.2 = false → rs3 = 0) {i : Instr} (he : encode i = packWord x.2.1 rd rs1 rs2 rs3)
    (hb : buildInstr x.1 rd rs1 rs2 rs3 = i) : Statement i := by
  have hm : rowOfFields x ∈ opcodeMap := by rw [opcodeMap_eq]; exact List.mem_map_of_mem hx
  obtain ⟨f0, f1, f2, f3, f4, f5⟩ := packWord_fields x.2.1 rd rs1 rs2 rs3
  rw [Statement, he]
  refine ⟨⟨rowOfFields x, hm, ?_, ?_⟩, f5⟩
  · obtain ⟨g0, g1, g2, g3, g4, g5⟩ := joinFields_fields x.2.1 (.ofFin rd) (.ofFin rs1) (.ofFin rs2) (.ofFin rs3) 0#8
    rw [fits_iff rfl rfl, packWord_eq, g0, g1, g2, g3, g4, g5]
    refine ⟨rfl, ?_, ?_, ?_, ?_, rfl⟩ <;> intro h
    · rw [h1 h]; rfl
    · rw [h2 h]; rfl
    · rw [h3 h]; rfl
    · rw [h4 h]; rfl
  · rw [f1, f2, f3, f4]; exact hb

theorem nop : Statement .nop :=
  ofPack (x := (.nop, 0x00#8, false, false, false, false)) (by decide) 0 0 0 0
    (by simp) (by simp) (by simp) (by simp) rfl rfl

theorem modexp (rd rs1 rs2 rs3 : WReg) : Statement (.modexp rd rs1 rs2 rs3) :=
  ofPack (x := (.modexp, 0x01#8, true, true, true, true)) (by decide) rd rs1 rs2 rs3
    (by simp) (by simp) (by simp) (by simp) rfl rfl

theorem egcd (rd rs1 rs2 : WReg) : Statement (.egcd rd rs1 rs2) :=
  ofPack (x := (.egcd, 0x02#8, true, true, true, false)) (by decide) rd rs1 rs2 0
    (by simp) (by simp) (by simp) (by simp) rfl rfl

theorem modinv (rd rs1 rs2 : WReg) : Statement (.modinv rd rs1 rs2) :=
  ofPack (x := (.modinv, 0x03#8, true, true, true, false)) (by decide) rd rs1 rs2 0
    (by simp) (by simp) (by simp) (by simp) rfl rfl

theorem keygen (rs1 rs2 rs3 : WReg) : Statement (.keygen rs1 rs2 rs3) :=
  ofPack (x := (.keygen, 0x04#8, false, true, true, true)) (by decide) 0 rs1 rs2 rs3
    (by simp) (by simp) (by simp) (by simp) rfl rfl

theorem keyload (rs1 rs2 rs3 : WReg) : Statement (.keyload rs1 rs2 rs3) :=
  ofPack (x := (.keyload, 0x05#8, false, true, true, true)) (by decide) 0 rs1 rs2 rs3
    (by simp) (by simp) (by simp) (by simp) rfl rfl

theorem keyclr : Statement .keyclr :=
  ofPack (x := (.keyclr, 0x06#8, false, false, false, false)) (by decide) 0 0 0 0
    (by simp) (by simp) (by simp) (by simp) rfl rfl

theorem chunk : Statement .chunk :=
  ofPack (x := (.chunk, 0x10#8, false, false, false, false)) (by decide) 0 0 0 0
    (by simp) (by simp) (by simp) (by simp) rfl rfl

theorem unchunk (rs1 : WReg) : Statement (.unchunk rs1) :=
  ofPack (x := (.unchunk, 0x11#8, false, true, false, false)) (by decide) 0 rs1 0 0
    (by simp) (by simp) (by simp) (by simp) rfl rfl

theorem ldbuf (rd : WReg) : Statement (.ldbuf rd) :=
  ofPack (x := (.ldbuf, 0x12#8, true, false, false, false)) (by decide) rd 0 0 0
    (by simp) (by simp) (by simp) (by simp) rfl rfl

theorem stblk (rs1 : WReg) : Statement (.stblk rs1) :=
  ofPack (x := (.stblk, 0x13#8, false, true, false, false)) (by decide) 0 rs1 0 0
    (by simp) (by simp) (by simp) (by simp) rfl rfl

theorem encblk : Statement .encblk :=
  ofPack (x := (.encblk, 0x20#8, false, false, false, false)) (by decide) 0 0 0 0
    (by simp) (by simp) (by simp) (by simp) rfl rfl

theorem decblk : Statement .decblk :=
  ofPack (x := (.decblk, 0x21#8, false, false, false, false)) (by decide) 0 0 0 0
    (by simp) (by simp) (by simp) (by simp) rfl rfl

end Sys2Proof.Laws.EncodingShape
end

