-- ==== Sys2Proof/Laws/Steps.lean ====
section
/-!
SUPPORT. When a command waits for a byte (44 R405), what ent_req reads, and what one step is: the oldest pending event, or
the engine's turn (44 R420).
-/
namespace Sys2Proof.Machine

/-- CHUNK waits exactly while its checks pass and a filler byte is missing (42 R330, 44 R405). -/
theorem chunkResult_isWaiting (s : State) : (chunkResult s).isWaiting =
    decide (1 ≤ s.ibufCount ∧ s.ibufCount ≤ 126 ∧ s.runningCtx.drawn.length < 126 - s.ibufCount) := by
  unfold chunkResult
  simp only []
  split
  · next h => simp [CmdResult.isWaiting, h]
  · split
    · next h => rw [eq_comm, decide_eq_false]; rfl; omega
    · split
      · next hd => rw [draw_eq_none_iff] at hd; rw [eq_comm, decide_eq_true]; rfl; omega
      · next f r hd =>
        have := mt draw_eq_none_iff.mpr (by rw [hd]; exact Option.some_ne_none _)
        rw [eq_comm, decide_eq_false (by omega)]
        split <;> rfl

/-- A block waits exactly while PADZ is 0 and a pad byte is missing (42 R341). -/
theorem storeBlock_isWaiting {c : Nat} (h : c < 2 ^ 1024) (padz : Bool) (l : List Byte) (s : State) :
    (storeBlock padz c l s).isWaiting = decide (padz = false ∧ l.length < 128 - naturalLength c) := by
  rw [storeBlock_of_lt h]
  cases padz with
  | true => simp [blockPad, CmdResult.isWaiting]
  | false =>
    simp only [blockPad, Bool.false_eq_true, if_false, true_and]
    cases hd : draw (128 - naturalLength c) l with
    | none => rw [draw_eq_none_iff] at hd; simp [hd, CmdResult.isWaiting]
    | some x =>
      have := mt draw_eq_none_iff.mpr (by rw [hd]; exact Option.some_ne_none _)
      simp only [Option.map_some, CmdResult.isWaiting]
      rw [eq_comm, decide_eq_false]; omega

/-- ENCBLK waits exactly while its checks pass and a filler or a pad byte is missing (43 R360, 44 R405). -/
theorem encblkResult_isWaiting (s : State) : (encblkResult s).isWaiting =
    decide (s.status.keyValid = true ∧ 1 ≤ s.ibufCount ∧ s.ibufCount ≤ 126 ∧ s.kn.toNat ≠ 0 ∧
      (s.runningCtx.drawn.length < 126 - s.ibufCount ∨
        (s.runningCtx.padz = false ∧ s.runningCtx.drawn.length - (126 - s.ibufCount) < 128 - naturalLength
          (beValue (buildChunk s.ibufCount (s.ibufData s.ibufCount) (s.runningCtx.drawn.take (126 - s.ibufCount))) ^
            s.ke.toNat % s.kn.toNat)))) := by
  unfold encblkResult
  simp only []
  split
  · next h => rw [eq_comm, decide_eq_false]; rfl; simp_all
  · next hk =>
    split
    · next h => rw [eq_comm, decide_eq_false]; rfl; omega
    · split
      · next h => rw [eq_comm, decide_eq_false]; rfl; omega
      · split
        · next h => rw [eq_comm, decide_eq_false]; rfl; simp [h]
        · next h1 h2 h3 =>
          have hk' : s.status.keyValid = true := by simpa using hk
          split
          · next hd =>
            rw [draw_eq_none_iff] at hd; rw [eq_comm, decide_eq_true]; rfl
            exact ⟨hk', by omega, by omega, h3, .inl hd⟩
          · next f r hd =>
            have hl : 126 - s.ibufCount ≤ s.runningCtx.drawn.length := by
              have := mt draw_eq_none_iff.mpr (by rw [hd]; exact Option.some_ne_none _); omega
            have hc := chunk_length h2 hd
            rw [draw_of_le hl] at hd
            simp only [Option.some.injEq, Prod.mk.injEq] at hd
            obtain ⟨rfl, rfl⟩ := hd
            rw [if_neg (by simpa using hc), storeBlock_isWaiting (modExp_lt_wide h3), modExp_eq_pow_mod]
            simp only [List.length_drop, hk', ne_eq, h3, not_false_eq_true, true_and]
            congr 1
            apply propext
            constructor
            · rintro h; exact ⟨by omega, by omega, .inr h⟩
            · rintro ⟨-, -, h | h⟩
              · omega
              · exact h

/-- ent_req as a function of what the waiting command reads (20 R120). -/
theorem entReq_eq (s : State) : s.entReq = (s.status.busy && match decodeWord s.cmd with
    | .command i => (resultOf i s).isWaiting
    | .illegal _ => false) := by
  unfold State.entReq
  congr 1
  cases decodeWord s.cmd <;> simp [wantsByte_eq_isWaiting]

/-- STBLK waits exactly while a pad byte is missing (42 R341, 44 R405). -/
theorem stblkResult_isWaiting (rs1 : WReg) (s : State) : (stblkResult rs1 s).isWaiting =
    decide (s.runningCtx.padz = false ∧ s.runningCtx.drawn.length < 128 - naturalLength (s.regValue rs1)) := by
  rw [stblkResult, storeBlock_isWaiting (regValue_lt s rs1)]

/-- ent_req reads neither the events to come nor the bus answer. -/
theorem entReq_congr {s t : State} (h : t = { s with inputs := t.inputs, resp := t.resp }) : t.entReq = s.entReq := by
  rw [h]
  unfold State.entReq
  congr 1
  cases decodeWord s.cmd with
  | illegal _ => rfl
  | command i =>
    cases i <;> simp only [wantsByte, chunkResult_isWaiting, stblkResult_isWaiting, encblkResult_isWaiting] <;> rfl

@[simp] theorem entReq_inputs (s : State) (l : List Input) : State.entReq { s with inputs := l } = s.entReq :=
  entReq_congr rfl

/-- The completion of a command that asks for no byte (44 R403). -/
theorem engineTurn_not_waiting {s t : State} (hb : s.status.busy = true) (hr : s.entReq = false)
    (h : engineTurn s = .next t) : (∃ c, c ≠ .protocol ∧ t = raiseError c s) ∨
      ∃ i u, decodeWord s.cmd = .command i ∧ resultOf i s = .success u ∧ t = finish u := by
  unfold engineTurn at h
  rw [if_pos hb] at h
  rw [entReq_eq, hb, Bool.true_and] at hr
  cases hd : decodeWord s.cmd with
  | illegal w => rw [hd] at h; cases h; exact .inl ⟨.illegal, by simp, rfl⟩
  | command i =>
    rw [hd] at h hr
    rcases exec_cases h with ⟨hw, _⟩ | ⟨c, hc, _, rfl⟩ | ⟨u, hu, rfl⟩
    · simp [hw, CmdResult.isWaiting] at hr
    · exact .inl ⟨c, hc, rfl⟩
    · exact .inr ⟨i, u, rfl, hu, rfl⟩

/-- While a byte is missing the engine's turn changes nothing (44 R406). -/
theorem engineTurn_waiting {s : State} (hr : s.entReq = true) : engineTurn s = .next s := by
  rw [entReq_eq, Bool.and_eq_true] at hr
  obtain ⟨hb, hr⟩ := hr
  unfold engineTurn
  rw [if_pos hb]
  cases hd : decodeWord s.cmd with
  | illegal w => simp [hd] at hr
  | command i =>
    rw [hd] at hr
    simp only [exec_eq]
    cases hx : resultOf i s <;> simp_all [CmdResult.isWaiting, complete]

/-- The engine's turn always answers a next state. -/
theorem engineTurn_next (s : State) : ∃ t, engineTurn s = .next t := by
  unfold engineTurn
  split
  · split
    · rw [exec_eq]; cases resultOf _ _ <;> exact ⟨_, rfl⟩
    · exact ⟨_, rfl⟩
  · exact ⟨_, rfl⟩

/-- The step when the engine is next (log entry 2). -/
theorem step_engineNext {s : State} {rest : List Input} (h : s.engineNext rest) :
    step s = engineTurn { s with inputs := rest } := by
  rcases h with ⟨h, rfl⟩ | h
  · have : ({ s with inputs := [] } : State) = s := by rw [← h]
    simp [step, stepMachine, h, this]
  · simp [step, stepMachine, h, perform]

/-- The step when an event is pending: that event (log entry 1). -/
theorem step_cons {s : State} {e : Input} {rest : List Input} (h : s.inputs = e :: rest) :
    step s = perform e { s with inputs := rest } := by
  simp [step, stepMachine, h]

end Sys2Proof.Machine
end

