-- ==== Sys2Proof/Tests/Slice0.lean ====
section
/-!
SUPPORT. The model's own tests. Expected results are those of spec/95_test_vectors.md, or words written out from the
encodings of spec/30_encoding.md; and for each statement with hypotheses, a state and operands that meet them.
-/
namespace Sys2Proof.Tests

set_option Elab.async false

open Sys2Proof.Machine

/-! ### Helpers -/

/-- A running command: BUSY = 1, PADZ = `z` as latched, the given bytes delivered. -/
def running (z : Bool) (drawn : List Byte) : State :=
  { State.reset with
    status := { State.reset.status with busy := true }
    ctx := some { padz := z, drawn := drawn } }

/-- A running command with the given wide registers. -/
def withW (l : List (WReg × Nat)) (s : State) : State := l.foldl (fun s x => s.setW x.1 (toWide x.2)) s

/-- A state that holds the key triple. -/
def withKey (n e d : Nat) (s : State) : State := setKeys (toWide n) (toWide e) (toWide d) true s

/-- A state whose IBUF begins with the bytes, and whose IBUF_LEN is their number. -/
def withIbuf (l : List Byte) (s : State) : State := { s with ibuf := bufferOf l, ibufLen := BitVec.ofNat 8 l.length }

/-- The state after a command. -/
def after (i : Instr) (s : State) : State :=
  match exec i s with
  | .next t => t
  | .fault _ => s
  | .refused _ => s

/-- The state after one step. -/
def stepped (s : State) : State :=
  match step s with
  | .next t => t
  | .fault _ => s
  | .refused _ => s

theorem exec_after (i : Instr) (s : State) : exec i s = .next (after i s) := by
  unfold after
  rw [exec_eq]
  cases resultOf i s <;> rfl

theorem step_stepped (s : State) : step s = .next (stepped s) := by
  have hx : ∀ u, ∃ t, engineTurn u = .next t := by
    intro u
    unfold engineTurn
    split
    · split
      · exact ⟨_, exec_after _ _⟩
      · exact ⟨_, rfl⟩
    · exact ⟨_, rfl⟩
  have h : ∃ t, step s = .next t := by
    unfold step stepMachine
    split
    · exact hx _
    · next e _ _ => cases e <;> first | exact hx _ | exact ⟨_, rfl⟩
  obtain ⟨t, ht⟩ := h
  unfold stepped
  rw [ht]

/-! ### Well-formedness: EGCD's rd (30 R154) -/

theorem test_wf_egcd_13 : (Instr.egcd 13 0 1).wf = true := by decide

theorem test_wf_egcd_14 : (Instr.egcd 14 0 1).wf = false := by decide

theorem test_wf_egcd_15 : (Instr.egcd 15 0 1).wf = false := by decide

/-! ### Decoding: words written out from 30 R151-R155, in the fields op rd rs1 rs2 rs3 low -/

theorem test_decode_nop : decodeWord 0b00000000_0000_0000_0000_0000_00000000#32 = .command .nop := by decide

theorem test_decode_modexp :
    decodeWord 0b00000001_0011_0000_0001_0010_00000000#32 = .command (.modexp 3 0 1 2) := by decide

theorem test_decode_egcd :
    decodeWord 0b00000010_1101_0000_0001_0000_00000000#32 = .command (.egcd 13 0 1) := by decide

theorem test_decode_modinv :
    decodeWord 0b00000011_0010_0000_0001_0000_00000000#32 = .command (.modinv 2 0 1) := by decide

theorem test_decode_keygen :
    decodeWord 0b00000100_0000_0000_0001_0010_00000000#32 = .command (.keygen 0 1 2) := by decide

theorem test_decode_keyload :
    decodeWord 0b00000101_0000_1111_1110_1101_00000000#32 = .command (.keyload 15 14 13) := by decide

theorem test_decode_keyclr : decodeWord 0b00000110_0000_0000_0000_0000_00000000#32 = .command .keyclr := by decide

theorem test_decode_chunk : decodeWord 0b00010000_0000_0000_0000_0000_00000000#32 = .command .chunk := by decide

theorem test_decode_unchunk :
    decodeWord 0b00010001_0000_0111_0000_0000_00000000#32 = .command (.unchunk 7) := by decide

theorem test_decode_ldbuf : decodeWord 0b00010010_0101_0000_0000_0000_00000000#32 = .command (.ldbuf 5) := by decide

theorem test_decode_stblk : decodeWord 0b00010011_0000_1010_0000_0000_00000000#32 = .command (.stblk 10) := by decide

theorem test_decode_encblk : decodeWord 0b00100000_0000_0000_0000_0000_00000000#32 = .command .encblk := by decide

theorem test_decode_decblk : decodeWord 0b00100001_0000_0000_0000_0000_00000000#32 = .command .decblk := by decide

/-- 95 §2.1, §2.2, §2.5: words that are ILLEGAL. -/
theorem test_decode_illegal :
    ([0x01301201#32, 0x02E01000#32, 0x02F01000#32, 0x02401100#32, 0x03201100#32, 0x04101200#32, 0x11100000#32,
      0x11001000#32, 0x13100000#32, 0x20000001#32, 0x00000100#32, 0x07000000#32, 0x14000000#32, 0x22000000#32,
      0xFF000000#32].all fun w => (decodeWord w).toOption.isNone) = true := by decide

/-! ### The step, and how a word is fetched -/

/-- The first step after reset runs the table's word: MODEXP w3, w0, w1, w2 with a zero modulus fails with ARG (40 R201). -/
theorem test_fetch_modexp :
    (stepped (State.reset.withFetchWord 32 0x01301200)).status.toWord = 0x00000006#32 ∧
      (stepped (State.reset.withFetchWord 32 0x01301200)).err = 0x06#8 := by decide +kernel

/-- STBLK of 0 with PADZ = 0 draws 128 bytes, which withFetchWord delivers (42 R341). -/
theorem test_fetch_stblk : (stepped (State.reset.withFetchWord 32 0x13000000)).obufLen = 128#8 := by decide +kernel

/-- 95 §2.5: from reset, two events and a turn: the CMD write of NOP is accepted, then NOP completes. -/
theorem test_step_nop :
    (stepped (stepped { State.reset with inputs := [.write 0x010#12 4 0#32, .engine] })).status.toWord = 0x00000002#32 := by
  decide +kernel

/-- 95 §2.5: SRST from a state with W0 = 5 and CTRL = 7 is the whole reset state. -/
theorem test_step_srst :
    (stepped { withW [(0, 5)] State.reset with
      ctrl := { ieDone := true, ieErr := true, padz := true }
      inputs := [.write 0x004#12 4 0x80000007#32] }) =
    { State.reset with resp := some { err := false, rdata := none } } := by decide +kernel

/-! ### Meanings, on the vectors of 95 §2 -/

theorem test_nop : (after .nop (running false [])).status.toWord = 0x00000002#32 := by decide +kernel

theorem test_modexp :
    (after (.modexp 0 0 1 2) (withW [(0, 4), (1, 13), (2, 497)] (running false []))).regValue 0 = 445 := by
  decide +kernel

theorem test_modexp_zero_exponent :
    (after (.modexp 3 0 1 2) (withW [(0, 0), (1, 0), (2, 1)] (running false []))).regValue 3 = 0 ∧
    (after (.modexp 3 0 1 2) (withW [(0, 0), (1, 0), (2, 7)] (running false []))).regValue 3 = 1 := by decide +kernel

theorem test_egcd :
    let t := after (.egcd 4 0 1) (withW [(0, 240), (1, 46)] (running false []))
    t.regValue 4 = 2 ∧ t.regValue 5 = 9 ∧ t.regValue 6 = 47 ∧ t.status.toWord = 0x00000022#32 := by decide +kernel

theorem test_egcd_zero :
    let t := after (.egcd 13 0 1) (running false [])
    t.regValue 13 = 0 ∧ t.regValue 14 = 0 ∧ t.regValue 15 = 1 ∧ t.status.toWord = 0x00000002#32 := by decide +kernel

theorem test_modinv :
    (after (.modinv 2 0 1) (withW [(0, 17), (1, 3120)] (running false []))).regValue 2 = 2753 := by decide +kernel

theorem test_modinv_none :
    (after (.modinv 2 0 1) (withW [(0, 4), (1, 8)] (running false []))).err = 0x07#8 := by decide +kernel

theorem test_keygen :
    let t := after (.keygen 0 1 2) (withW [(0, 61), (1, 53), (2, 17)] (running false []))
    t.kn.toNat = 3233 ∧ t.ke.toNat = 17 ∧ t.kd.toNat = 2753 ∧ t.status.toWord = 0x00000012#32 := by decide +kernel

/-- p = 1 with a key held: KEY_LOCKED comes before ARG. -/
theorem test_keygen_locked :
    (after (.keygen 0 1 2) (withKey 3233 17 2753 (withW [(0, 1), (1, 53), (2, 17)] (running false [])))).err = 0x03#8 := by
  decide +kernel

theorem test_keyload :
    let t := after (.keyload 0 1 2) (withW [(0, 0), (1, 17), (2, 0)] (running false []))
    t.kn.toNat = 0 ∧ t.ke.toNat = 17 ∧ t.kd.toNat = 0 ∧ t.status.toWord = 0x00000012#32 := by decide +kernel

theorem test_keyclr :
    let t := after .keyclr (withKey 3233 17 2753 (running false []))
    t.kn = 0#1024 ∧ t.ke = 0#1024 ∧ t.kd = 0#1024 ∧ t.status.toWord = 0x00000002#32 := by decide +kernel

theorem test_chunk :
    let t := after .chunk (withIbuf [0x68#8, 0x65#8, 0x6C#8, 0x6C#8, 0x6F#8] (running false (List.replicate 121 0x5A#8)))
    t.obuf.toList = [0x05#8, 0x68#8, 0x65#8, 0x6C#8, 0x6C#8, 0x6F#8] ++ List.replicate 121 0x5A#8 ++ [0x00#8] ∧
      t.obufLen = 127#8 := by decide +kernel

theorem test_chunk_empty : (after .chunk (running false [])).err = 0x04#8 := by decide +kernel

theorem test_unchunk :
    let t := after (.unchunk 0) (withW [(0, 0x024142)] (running false []))
    t.obuf.toList = [0x41#8, 0x42#8] ++ List.replicate 126 0x00#8 ∧ t.obufLen = 2#8 ∧
      t.status.toWord = 0x00000002#32 := by decide +kernel

/-- The leading-zero case, and a value with fewer bytes than its length byte says. -/
theorem test_unchunk_corners :
    (after (.unchunk 0) (withW [(0, 0x8041)] (running false []))).obufLen = 0#8 ∧
    (after (.unchunk 0) (withW [(0, 0x0341)] (running false []))).status.toWord = 0x00000082#32 := by decide +kernel

theorem test_ldbuf :
    (after (.ldbuf 5) (withIbuf [0x00#8, 0x00#8, 0x01#8, 0x02#8] (running false []))).regValue 5 = 0x0102 := by
  decide +kernel

theorem test_ldbuf_full :
    (after (.ldbuf 5) (withIbuf (List.replicate 128 0xFF#8) (running false []))).regValue 5 = 2 ^ 1024 - 1 := by
  decide +kernel

theorem test_stblk :
    (after (.stblk 0) (withW [(0, 0x0102)] (running false (List.replicate 126 0xAB#8)))).obuf.toList =
      List.replicate 126 0xAB#8 ++ [0x01#8, 0x02#8] := by decide +kernel

theorem test_stblk_padz :
    (after (.stblk 0) (withW [(0, 0x0102)] (running true []))).obuf.toList =
      List.replicate 126 0x00#8 ++ [0x01#8, 0x02#8] := by decide +kernel

/-- The key K_f of 95 §1.2, the chunk and the block of vector V1. -/
theorem test_encblk_v1 :
    beValue (after .encblk (withKey
      0x0900000000000000000000000000300000000000000000000000000000000000000000000000000000000000000000000000000000000000000000000000007d40000000000000000000000001a3000000000000000000000000000000000000000000000000000000000000000000000000000000000000000000000001978b
      0x400000000000000000000000000000000000000000000000000000000000004f
      0x038218cf86c08aa77cf384bf8b4c44f45b7ad9840b6bf5b0fe902bfdb40e608a7e1a34ceada0bc4fa58f324015dce25f145b8101e6bcb985c609b2d5be40d53d04bf104f5d1b6195560fda91c534a588ed876583a1c1c061a8f96caa0a5ebbb392bbd685c70ccf3b2de37100f9c3aafaccdeb18454d687736c1dde1b3310ec2f
      (withIbuf [0x68#8, 0x65#8, 0x6C#8, 0x6C#8, 0x6F#8] (running false (List.replicate 121 0x5A#8))))).obuf.toList =
      0x01eae478a9c37ae2d3dcc5a42acb06600c66136c60978411e157797dcf4309d17d5ef2f575b6575316a880b8d77e9b7048a19161f226f7807cd745222cb2ade6cdd17093b3edbe11056fc6f2b1398018e8860a32b17a2b847ce7ab8e742d0eb8fd475efca479181b6c318a9f8b213fac08c7be80d42a8c6d5d4d5a35de568269 := by
  decide +kernel

/-- The small-key vector: a chunk value above KN, 125 filler draws, then 126 pad draws. -/
theorem test_encblk_small :
    (after .encblk (withKey 3233 17 2753 (withIbuf [0x41#8]
      (running false (List.replicate 125 0x00#8 ++ List.replicate 126 0xEE#8))))).obuf.toList =
      List.replicate 126 0xEE#8 ++ [0x01#8, 0xF7#8] := by decide +kernel

theorem test_decblk_small :
    let t := after .decblk (withKey 3233 17 2753 (withIbuf (List.replicate 126 0x00#8 ++ [0x01#8, 0xF7#8])
      (running false [])))
    t.obuf.toList = [0x02#8] ++ List.replicate 127 0x00#8 ∧ t.obufLen = 1#8 ∧ t.status.toWord = 0x00000092#32 := by
  decide +kernel

theorem test_decblk_len :
    (after .decblk (withKey 3233 17 2753 (withIbuf [0x41#8] (running false [])))).err = 0x05#8 := by decide +kernel

/-! ### Host procedures, on the vectors of 95 -/

/-- 95 §2.6: the first word of IBUF is its first four bytes, the lowest index in bits 31:24. -/
theorem test_ibuf_word :
    (busRead 0x100#12 4 (withIbuf [0x11#8, 0x22#8, 0x33#8, 0x44#8] State.reset)).rdata = some 0x11223344#32 := by
  decide +kernel

/-- 45 R450: the key file of K_s. -/
theorem test_serialize :
    serialize 3233 17 2753 =
      [0x33#8, 0x32#8, 0x33#8, 0x33#8, 0x0A#8, 0x31#8, 0x37#8, 0x0A#8, 0x32#8, 0x37#8, 0x35#8, 0x33#8, 0x0A#8] := by
  decide +kernel

/-- 30 R171: the assembler form of MODEXP w3, w0, w1, w2. -/
theorem test_asm : readAsm (writeAsm (.modexp 3 0 1 2)) = some (.modexp 3 0 1 2) := by decide +kernel

/-! ### Witnesses: every statement's hypotheses are met -/

/-- An idle state whose next event is `e`. -/
def idle (e : Input) : State := { State.reset with inputs := [e] }

/-- A running state with the command `w` and no event pending. -/
def runningCmd (w : Word) (z : Bool) (drawn : List Byte) : State := { running z drawn with cmd := w }

theorem witness_DecodeOfEncodeIsTheCommand : ∃ i : Instr, i.wf = true := ⟨.egcd 13 15 0, by decide⟩

theorem witness_DecodedWordIsItsEncoding : ∃ (w : Word) (i : Instr), decodeWord w = .command i :=
  ⟨0x02D01000#32, .egcd 13 0 1, by decide⟩

/-- One word for each kind of nonzero field: bits 7:0, rd, rs1, rs2, rs3. -/
theorem witness_NonzeroUnusedFieldIsIllegal :
    (opcodeField 0x01000001#32 = 0x01#8 ∧ (0x01000001#32).extractLsb' 0 8 ≠ 0#8) ∧
    (opcodeField 0x04100000#32 = 0x04#8 ∧ rdField 0x04100000#32 ≠ 0) ∧
    (opcodeField 0x12010000#32 = 0x12#8 ∧ rs1Field 0x12010000#32 ≠ 0) ∧
    (opcodeField 0x11001000#32 = 0x11#8 ∧ rs2Field 0x11001000#32 ≠ 0) ∧
    (opcodeField 0x02000F00#32 = 0x02#8 ∧ rs3Field 0x02000F00#32 ≠ 0) := by decide

/-- The ends of the three ranges of reserved opcodes, and the word of NOP. -/
theorem witness_ReservedOpcodeIsIllegal :
    ([0x07000000#32, 0x0F000000#32, 0x14000000#32, 0x1F000000#32, 0x22000000#32, 0xFF000000#32].map
      fun w => (opcodeField w).toNat) = [0x07, 0x0F, 0x14, 0x1F, 0x22, 0xFF] ∧
    decodeWord 0x00000000#32 = .command .nop := by decide

theorem witness_AssemblerFormReadsBack : ∃ i : Instr, i.wf = true := ⟨.modexp 15 0 9 10, by decide⟩

/-- Both forms of the engine's turn. -/
theorem witness_StepRunsTheDecodedCommand : ∃ (s u : State) (i : Instr),
    (s.engineNext [] ∧ s.inputs = [] ∧ s.status.busy = true ∧ decodeWord s.cmd = .command i) ∧
    (u.engineNext [.hardReset] ∧ u.status.busy = true ∧ decodeWord u.cmd = .command i) :=
  ⟨runningCmd 0x06000000#32 false [], { runningCmd 0x06000000#32 false [] with inputs := [.engine, .hardReset] }, .keyclr,
    ⟨.inl ⟨rfl, rfl⟩, rfl, rfl, by decide⟩, .inr rfl, rfl, by decide⟩

theorem witness_StepFailsAnIllegalWord : ∃ (s : State) (why : Illegal),
    s.engineNext [] ∧ s.status.busy = true ∧ decodeWord s.cmd = .illegal why :=
  ⟨runningCmd 0x02E01000#32 false [], .egcdDestination, .inl ⟨rfl, rfl⟩, rfl, by decide⟩

theorem witness_CommandAcceptance : ∃ (s : State) (w : Word), s.inputs = [.write 0x010#12 4 w] ∧
    s.status.busy = false ∧ s.status.errf = false ∧ s.status.fatal = false :=
  ⟨idle (.write 0x010#12 4 0xFFFFFFFF#32), _, rfl, rfl, rfl, rfl⟩

/-- A write dropped for BUSY, one dropped for ERRF. -/
theorem witness_CommandDropped : ∃ (s u : State) (w : Word),
    (s.inputs = [.write 0x010#12 4 w] ∧ s.status.busy = true) ∧
    (u.inputs = [.write 0x010#12 4 w] ∧ u.status.errf = true) :=
  ⟨{ running false [] with inputs := [.write 0x010#12 4 0#32] },
    { State.reset.failedWith 0x01#8 with inputs := [.write 0x010#12 4 0#32] }, 0#32, ⟨rfl, rfl⟩, rfl, rfl⟩

/-- A command that asks for no byte, one that asks for one. -/
theorem witness_EngineTurnCompletesWhenNoByteIsAwaited : ∃ s u : State,
    (s.engineNext [] ∧ s.status.busy = true ∧ s.entReq = false) ∧
    (u.engineNext [] ∧ u.status.busy = true ∧ u.entReq = true) :=
  ⟨runningCmd 0x00000000#32 false [], runningCmd 0x13000000#32 false [], ⟨.inl ⟨rfl, rfl⟩, rfl, by decide +kernel⟩,
    .inl ⟨rfl, rfl⟩, rfl, by decide +kernel⟩

theorem witness_EntropyDelivery : ∃ (s u : State) (b : Byte) (c : Ctx),
    (s.inputs = [.entropy b] ∧ s.ctx = some c ∧ s.entReq = true) ∧
    (u.inputs = [.entropy b] ∧ u.ctx = some c ∧ u.entReq = false) :=
  ⟨{ runningCmd 0x13000000#32 false [] with inputs := [.entropy 0x5A#8] },
    { runningCmd 0x00000000#32 false [] with inputs := [.entropy 0x5A#8] }, 0x5A#8, { padz := false, drawn := [] },
    ⟨rfl, rfl, by decide +kernel⟩, rfl, rfl, by decide +kernel⟩

/-- One state for each clause, at the ends of its range: CHUNK with k = 1, 126, 0, 127; STBLK; ENCBLK with k = 1, 126 and
KN nonzero; ENCBLK without a key; a command that draws nothing. -/
theorem witness_BytesACommandAsksFor :
    let ck (k : Nat) : State := { runningCmd 0x10000000#32 false [] with ibufLen := BitVec.ofNat 8 k }
    let en (k : Nat) : State := { withKey 3233 17 2753 (runningCmd 0x20000000#32 false []) with ibufLen := BitVec.ofNat 8 k }
    (∀ k ∈ [0, 1, 126, 127], (ck k).status.busy = true ∧ (ck k).ctx.isSome = true ∧
      decodeWord (ck k).cmd = .command .chunk ∧ (ck k).ibufLen.toNat = k) ∧
    (∀ k ∈ [1, 126], (en k).status.busy = true ∧ (en k).ctx.isSome = true ∧ (en k).status.keyValid = true ∧
      decodeWord (en k).cmd = .command .encblk ∧ (en k).ibufLen.toNat = k ∧ (en k).kn ≠ 0#1024) ∧
    (let s := runningCmd 0x13000000#32 false []
     s.status.busy = true ∧ s.ctx.isSome = true ∧ decodeWord s.cmd = .command (.stblk 0)) ∧
    (let s := runningCmd 0x20000000#32 false []
     s.status.busy = true ∧ s.ctx.isSome = true ∧ decodeWord s.cmd = .command .encblk ∧ s.status.keyValid = false) ∧
    (let s := runningCmd 0x21000000#32 false []
     s.status.busy = true ∧ s.ctx.isSome = true ∧ decodeWord s.cmd = .command .decblk) := by decide +kernel

theorem witness_HardResetLeavesTheResetValues : ∃ s : State, s.inputs = [.hardReset] ∧ s ≠ State.reset :=
  ⟨{ withKey 3233 17 2753 (running true []) with inputs := [.hardReset] }, rfl, by decide +kernel⟩

/-- A soft reset of a running engine, and an ordinary write. -/
theorem witness_ControlWriteResetsOrStores : ∃ s u : State,
    (s.inputs = [.write 0x004#12 4 0x80000007#32] ∧ (0x80000007#32).getLsbD 31 = true ∧ s.status.busy = true) ∧
    (u.inputs = [.write 0x004#12 4 0x7FFFFFFF#32] ∧ (0x7FFFFFFF#32).getLsbD 31 = false) :=
  ⟨{ running true [] with inputs := [.write 0x004#12 4 0x80000007#32] }, idle (.write 0x004#12 4 0x7FFFFFFF#32),
    ⟨rfl, by decide, rfl⟩, rfl, by decide⟩

theorem witness_ModexpMeaning : ∃ s u : State, s.regValue 2 ≠ 0 ∧ u.regValue 2 = 0 :=
  ⟨withW [(2, 1)] (running false []), running false [], by decide +kernel⟩

/-- A pair for each clause: a = 0, a nonzero with g at least 1, both 0, both below 2^1024 at the upper end. -/
theorem witness_EgcdRecursionIdentityAndBounds :
    (1 ≤ (egcd 240 46).1 ∧ (240 : Nat) ≠ 0) ∧ (1 ≤ (egcd 0 5).1) ∧ 2 ^ 1024 - 1 < 2 ^ 1024 := by decide +kernel

theorem witness_EgcdMeaning : ∃ rd : WReg, rd ≤ 13 := ⟨13, by decide⟩

/-- gcd 1 with modulus 1 and with modulus 3120; gcd 4; modulus 0. -/
theorem witness_ModinvMeaning :
    let s (a m : Nat) := withW [(0, a), (1, m)] (running false [])
    ((s 5 1).regValue 1 ≠ 0 ∧ Nat.gcd ((s 5 1).regValue 0) ((s 5 1).regValue 1) = 1) ∧
    ((s 17 3120).regValue 1 ≠ 0 ∧ Nat.gcd ((s 17 3120).regValue 0) ((s 17 3120).regValue 1) = 1) ∧
    ((s 4 8).regValue 1 ≠ 0 ∧ Nat.gcd ((s 4 8).regValue 0) ((s 4 8).regValue 1) ≠ 1) ∧
    (s 5 0).regValue 1 = 0 := by decide +kernel

/-- The least primes (2, 2, with e = 5), and the key of 95 §1.1. -/
theorem witness_KeygenInstallsTheTriple :
    let s (p q e : Nat) := withW [(0, p), (1, q), (2, e)] (running false [])
    ∀ x ∈ [(2, 2, 5), (61, 53, 17)], let s := s x.1 x.2.1 x.2.2
      s.status.keyValid = false ∧ 2 ≤ s.regValue 0 ∧ 2 ≤ s.regValue 1 ∧ s.regValue 0 * s.regValue 1 < 2 ^ 1024 ∧
        Nat.gcd (s.regValue 2) ((s.regValue 0 - 1) * (s.regValue 1 - 1)) = 1 := by decide +kernel

theorem witness_RsaIdentityAfterKeygen : ∃ (s t : State) (m : Nat), s.status.keyValid = false ∧
    (s.regValue 0).Prime ∧ (s.regValue 1).Prime ∧ s.regValue 0 ≠ s.regValue 1 ∧ exec (.keygen 0 1 2) s = .next t ∧
    t.status.keyValid = true ∧ m < t.kn.toNat := by
  refine ⟨withW [(0, 61), (1, 53), (2, 17)] (running false []), _, 3232, by decide +kernel, ?_, ?_, by decide +kernel,
    exec_after _ _, by decide +kernel, by decide +kernel⟩
  · rw [show State.regValue (withW [(0, 61), (1, 53), (2, 17)] (running false [])) 0 = 61 by decide +kernel]
    norm_num
  · rw [show State.regValue (withW [(0, 61), (1, 53), (2, 17)] (running false [])) 1 = 53 by decide +kernel]
    norm_num

/-- A key held; p = 1; a product of exactly 2^1024; an e that is not coprime (95 §2.2). -/
theorem witness_KeygenFailures :
    let s (p q e : Nat) := withW [(0, p), (1, q), (2, e)] (running false [])
    (withKey 3233 17 2753 (s 1 53 17)).status.keyValid = true ∧
    ((s 1 53 17).status.keyValid = false ∧ (s 1 53 17).regValue 0 < 2) ∧
    2 ^ 1024 ≤ (s (2 ^ 512) (2 ^ 512) 17).regValue 0 * (s (2 ^ 512) (2 ^ 512) 17).regValue 1 ∧
    ((s 7 11 3).regValue 0 * (s 7 11 3).regValue 1 < 2 ^ 1024 ∧
      Nat.gcd ((s 7 11 3).regValue 2) (((s 7 11 3).regValue 0 - 1) * ((s 7 11 3).regValue 1 - 1)) ≠ 1) := by
  decide +kernel

theorem witness_KeyloadMeaning : ∃ s u : State, s.status.keyValid = false ∧ u.status.keyValid = true :=
  ⟨running false [], withKey 0 0 0 (running false []), rfl, rfl⟩

/-- A completion that sets KEY_VALID, one that clears it, and a reset that clears it. -/
theorem witness_KeyValidChangesOnlyByKeyCommandsAndReset : ∃ s u v : State,
    (step s = .next (stepped s) ∧ (stepped s).status.keyValid ≠ s.status.keyValid) ∧
    (step u = .next (stepped u) ∧ (stepped u).status.keyValid ≠ u.status.keyValid) ∧
    (step v = .next (stepped v) ∧ (stepped v).status.keyValid ≠ v.status.keyValid) :=
  ⟨runningCmd 0x05001200#32 false [], withKey 3233 17 2753 (runningCmd 0x06000000#32 false []),
    { withKey 3233 17 2753 State.reset with inputs := [.hardReset] },
    ⟨step_stepped _, by decide +kernel⟩, ⟨step_stepped _, by decide +kernel⟩, step_stepped _, by decide +kernel⟩

/-- A step that keeps KEY_VALID at 1, one that clears it. -/
theorem witness_KeyTripleIsImmutableWhileHeld : ∃ s u : State,
    (step s = .next (stepped s) ∧ s.status.keyValid = true ∧ (stepped s).status.keyValid = true) ∧
    (step u = .next (stepped u) ∧ u.status.keyValid = true ∧ (stepped u).status.keyValid = false) :=
  ⟨withKey 3233 17 2753 (runningCmd 0x05001200#32 false []), withKey 3233 17 2753 (runningCmd 0x06000000#32 false []),
    ⟨step_stepped _, rfl, by decide +kernel⟩, step_stepped _, rfl, by decide +kernel⟩

/-- k = 1 with 125 bytes, k = 126 with none. -/
theorem witness_ChunkMeaning :
    ∀ x ∈ [(1, 125), (126, 0)],
      let s : State := { running false (List.replicate x.2 0x5A#8) with ibufLen := BitVec.ofNat 8 x.1 }
      s.ctx.isSome = true ∧ 1 ≤ s.ibufLen.toNat ∧ s.ibufLen.toNat ≤ 126 ∧ 126 - s.ibufLen.toNat ≤ s.runningCtx.drawn.length := by
  decide +kernel

/-- IBUF_LEN = 0, 127, 129 and, with a key, 0, 127 and 127 for DECBLK. -/
theorem witness_LengthFailures :
    let s (k : Nat) : State := { withKey 3233 17 2753 (running false []) with ibufLen := BitVec.ofNat 8 k }
    (s 0).ibufLen.toNat = 0 ∧ 126 < (s 127).ibufLen.toNat ∧ 128 < (s 129).ibufLen.toNat ∧
      (s 0).status.keyValid = true ∧ (s 127).status.keyValid = true ∧ (s 127).ibufLen.toNat ≠ 128 := by decide +kernel

/-- No key; a key with KN = 0 and a legal length for ENCBLK and for DECBLK. -/
theorem witness_PipelineKeyAndModulusFailures :
    let s (k : Nat) : State := { withKey 0 17 0 (running false []) with ibufLen := BitVec.ofNat 8 k }
    (running false []).status.keyValid = false ∧
    ((s 5).status.keyValid = true ∧ (s 5).kn = 0#1024 ∧ 1 ≤ (s 5).ibufLen.toNat ∧ (s 5).ibufLen.toNat ≤ 126) ∧
    ((s 128).status.keyValid = true ∧ (s 128).kn = 0#1024 ∧ (s 128).ibufLen.toNat = 128) := by decide +kernel

theorem witness_UnchunkMeaning : ∃ (s : State) (v B k : Nat),
    v = s.regValue 0 ∧ B = bitlen v / 8 + 1 ∧ k = v / 256 ^ (B - 1) ∧ min k (B - 1) = 1 :=
  ⟨withW [(0, 0x0341)] (running false []), 0x0341, 2, 3, by decide +kernel⟩

/-- One data byte, and 126. -/
theorem witness_DecodeRecoversTheChunkData :
    ∀ k ∈ [1, 126], 1 ≤ (List.replicate k 0x41#8).length ∧
      (List.replicate k 0x41#8).length + (List.replicate (126 - k) 0xFF#8).length = 126 := by simp

theorem witness_ChunkValueBounds :
    ∀ k ∈ [1, 126], 1 ≤ (List.replicate k 0xFF#8).length ∧
      (List.replicate k 0xFF#8).length + (List.replicate (126 - k) 0xFF#8).length = 126 := by simp

theorem witness_LdbufMeaning : ∃ s u : State, s.ibufLen.toNat = 0 ∧ u.ibufLen.toNat = 128 :=
  ⟨running false [], { running false [] with ibufLen := 128#8 }, by decide⟩

/-- PADZ = 1 with no bytes; PADZ = 0 with the 128 bytes the value 0 needs; PADZ = 0 with none for 2^1024 - 1. -/
theorem witness_StblkMeaning :
    (running true []).runningCtx.padz = true ∧
    128 - naturalLength ((running false (List.replicate 128 0x11#8)).regValue 0) ≤
      (running false (List.replicate 128 0x11#8)).runningCtx.drawn.length ∧
    128 - naturalLength ((withW [(0, 2 ^ 1024 - 1)] (running false [])).regValue 0) ≤
      (withW [(0, 2 ^ 1024 - 1)] (running false [])).runningCtx.drawn.length := by decide +kernel

/-- The small-key vector of 95 §2.4, with PADZ = 0 and 251 bytes, and with PADZ = 1 and 125. -/
theorem witness_EncblkMeaning :
    ∀ x ∈ [(false, List.replicate 125 0x00#8 ++ List.replicate 126 0xEE#8), (true, List.replicate 125 0x00#8)],
      let s := withKey 3233 17 2753 (withIbuf [0x41#8] (running x.1 x.2))
      s.ctx = some { padz := x.1, drawn := x.2 } ∧ s.status.keyValid = true ∧ s.ibufLen.toNat = 1 ∧ s.kn ≠ 0#1024 ∧
        126 - 1 ≤ x.2.length ∧
        beValue (BitVec.ofNat 8 1 :: (s.ibuf.toList.take 1 ++ x.2.take (126 - 1))) ^ s.ke.toNat % s.kn.toNat = 503 ∧
        (x.1 = true ∨ (126 - 1) + (128 - naturalLength 503) ≤ x.2.length) := by decide +kernel

theorem witness_DecblkMeaning : ∃ s : State, s.status.keyValid = true ∧ s.ibufLen = 128#8 ∧ s.kn ≠ 0#1024 :=
  ⟨{ withKey 3233 17 2753 (running false []) with ibufLen := 128#8 }, by decide +kernel⟩

/-- The small-key vector with its codec sequence: W1 = KE, W2 = KN, the value in W0. -/
theorem witness_EncblkIsTheCodecSequence : ∃ (s a b c d e : State) (padz : Bool) (filler pad : List Byte),
    s.status.keyValid = true ∧ 1 ≤ s.ibufLen.toNat ∧ s.ibufLen.toNat ≤ 126 ∧ s.kn ≠ 0#1024 ∧ (1 : WReg) ≠ 0 ∧
    (2 : WReg) ≠ 0 ∧ s.getW 1 = s.ke ∧ s.getW 2 = s.kn ∧ filler.length = 126 - s.ibufLen.toNat ∧
    exec .chunk { s with ctx := some { padz := padz, drawn := filler } } = .next a ∧
    (∀ j : Fin 127, b.ibuf[j.val] = a.obuf[j.val]) ∧ b.ibufLen = 127#8 ∧ b.w = a.w ∧ exec (.ldbuf 0) b = .next c ∧
    exec (.modexp 0 0 1 2) c = .next d ∧ (padz = true ∨ 128 - naturalLength (d.regValue 0) ≤ pad.length) ∧
    exec (.stblk 0) { d with ctx := some { padz := padz, drawn := pad } } = .next e := by
  let s := withKey 3233 17 2753 (withW [(1, 17), (2, 3233)] (withIbuf [0x41#8] (running false [])))
  have gen : ∀ a : State, ∃ b c d e : State, (∀ j : Fin 127, b.ibuf[j.val] = a.obuf[j.val]) ∧ b.ibufLen = 127#8 ∧
      b.w = a.w ∧ exec (.ldbuf 0) b = .next c ∧ exec (.modexp 0 0 1 2) c = .next d ∧
      exec (.stblk 0) { d with ctx := some { padz := true, drawn := [] } } = .next e := fun a =>
    ⟨{ a with ibuf := a.obuf, ibufLen := 127#8 }, _, _, _, fun _ => rfl, rfl, rfl, exec_after _ _, exec_after _ _,
      exec_after _ _⟩
  obtain ⟨b, c, d, e, h1, h2, h3, h4, h5, h6⟩ :=
    gen (after .chunk { s with ctx := some { padz := true, drawn := List.replicate 125 0x00#8 } })
  exact ⟨s, _, b, c, d, e, true, List.replicate 125 0x00#8, [], rfl, by decide +kernel, by decide +kernel,
    by decide +kernel, by decide, by decide, by decide +kernel, by decide +kernel, by decide +kernel, exec_after _ _,
    h1, h2, h3, h4, h5, .inl rfl, h6⟩

theorem witness_DecblkIsTheCodecSequence : ∃ s c d e : State,
    s.status.keyValid = true ∧ s.ibufLen = 128#8 ∧ s.kn ≠ 0#1024 ∧ (1 : WReg) ≠ 0 ∧ (2 : WReg) ≠ 0 ∧ s.getW 1 = s.kd ∧
    s.getW 2 = s.kn ∧ exec (.ldbuf 0) s = .next c ∧ exec (.modexp 0 0 1 2) c = .next d ∧ exec (.unchunk 0) d = .next e := by
  let s : State :=
    { withKey 3233 17 2753 (withW [(1, 2753), (2, 3233)] (withIbuf [0x41#8] (running false []))) with ibufLen := 128#8 }
  exact ⟨s, _, _, _, rfl, rfl, by decide +kernel, by decide, by decide, by decide +kernel, by decide +kernel,
    exec_after _ _, exec_after _ _, exec_after _ _⟩

/-- 171 * 2^1007 + 1, a prime. -/
def bigPrime : Nat :=
  0x55800000000000000000000000000000000000000000000000000000000000000000000000000000000000000000000000000000000000000000000000000000000000000000000000000000000000000000000000000000000000000000000000000000000000000000000000000000000000000000000000000000000001

theorem bigPrime_pred : bigPrime - 1 = 171 * 2 ^ 1007 := by decide +kernel

theorem bigPrime_prime : Nat.Prime bigPrime := by
  have hpow : ∀ x, ((7 : Nat) : ZMod bigPrime) ^ x = 1 ↔ modExp 7 x bigPrime = 1 := by
    intro x
    have h1 : (1 : Nat) % bigPrime = 1 := by decide +kernel
    rw [modExp_eq_pow_mod, ← Nat.cast_pow, ← Nat.cast_one, ZMod.natCast_eq_natCast_iff', h1]
  refine lucas_primality bigPrime ((7 : Nat) : ZMod bigPrime) ?_ ?_
  · rw [hpow]; decide +kernel
  · intro r hr hd
    rw [bigPrime_pred] at hd
    have hr' : r = 3 ∨ r = 19 ∨ r = 2 := by
      rcases (Nat.Prime.dvd_mul hr).mp hd with h | h
      · rw [show 171 = 3 ^ 2 * 19 by norm_num] at h
        rcases (Nat.Prime.dvd_mul hr).mp h with h | h
        · exact .inl ((Nat.prime_dvd_prime_iff_eq hr Nat.prime_three).mp (hr.dvd_of_dvd_pow h))
        · exact .inr (.inl ((Nat.prime_dvd_prime_iff_eq hr (by norm_num)).mp h))
      · exact .inr (.inr ((Nat.prime_dvd_prime_iff_eq hr Nat.prime_two).mp (hr.dvd_of_dvd_pow h)))
    rw [ne_eq, hpow]
    rcases hr' with rfl | rfl | rfl <;> decide +kernel

/-- p = 3, q = 171 * 2^1007 + 1, e = 5, one data byte, zero pad. -/
theorem witness_PipelineRoundTripWithZeroPad : ∃ (g s t u v : State) (x : Ctx),
    g.status.keyValid = false ∧ (g.regValue 0).Prime ∧ (g.regValue 1).Prime ∧ g.regValue 0 ≠ g.regValue 1 ∧
    2 ^ 1015 ≤ g.regValue 0 * g.regValue 1 ∧ exec (.keygen 0 1 2) g = .next s ∧ s.status.keyValid = true ∧
    1 ≤ s.ibufLen.toNat ∧ s.ibufLen.toNat ≤ 126 ∧ x.padz = true ∧ 126 - s.ibufLen.toNat ≤ x.drawn.length ∧
    exec .encblk { s with ctx := some x } = .next t ∧ u.ibuf = t.obuf ∧ u.ibufLen = 128#8 ∧ u.kn = s.kn ∧ u.kd = s.kd ∧
    u.status.keyValid = true ∧ exec .decblk u = .next v := by
  let g := withW [(0, 3), (1, bigPrime), (2, 5)] (withIbuf [0x41#8] (running true []))
  let s := after (.keygen 0 1 2) g
  have gen : ∀ (s : State) (x : Ctx), s.status.keyValid = true → ∃ t u v : State,
      exec .encblk { s with ctx := some x } = .next t ∧ u.ibuf = t.obuf ∧ u.ibufLen = 128#8 ∧ u.kn = s.kn ∧
      u.kd = s.kd ∧ u.status.keyValid = true ∧ exec .decblk u = .next v := fun s x hk =>
    ⟨_, { s with ibuf := (after .encblk { s with ctx := some x }).obuf, ibufLen := 128#8 }, _, exec_after _ _, rfl, rfl,
      rfl, rfl, hk, exec_after _ _⟩
  have h0 : g.regValue 0 = 3 := by decide +kernel
  have h1 : g.regValue 1 = bigPrime := by decide +kernel
  have hk : s.status.keyValid = true := by decide +kernel
  obtain ⟨t, u, v, hx⟩ := gen s { padz := true, drawn := List.replicate 125 0x5A#8 } hk
  exact ⟨g, s, t, u, v, _, by decide +kernel, h0 ▸ Nat.prime_three, h1 ▸ bigPrime_prime, by decide +kernel,
    by decide +kernel, exec_after _ _, hk, by decide +kernel, by decide +kernel, rfl, by decide +kernel, hx⟩

theorem witness_CommandFrame : ∃ (i : Instr) (s t : State), exec i s = .next t :=
  ⟨.egcd 4 0 1, _, _, exec_after _ (withW [(0, 240), (1, 46)] (running false []))⟩

/-- A location outside what KEYCLR and EGCD w4 may change. -/
theorem witness_CommandFrameThroughTheWindow : ∃ (i : Instr) (s t : State) (l : Loc), exec i s = .next t ∧ l ≠ .status ∧
    l ≠ .err ∧ (∀ r j, l = .w r j → r ∉ wDests i) ∧ (writesKeys i = true → ∀ j, l ≠ .kn j ∧ l ≠ .ke j ∧ l ≠ .kd j) ∧
    (writesObuf i = true → l ≠ .obufLen ∧ ∀ j, l ≠ .obuf j) :=
  ⟨.egcd 4 0 1, _, _, .w 7 0, exec_after _ (withW [(0, 240), (1, 46)] (running false [])), by decide, by decide,
    by intro r j h; cases h; decide, by decide, by decide⟩

theorem witness_FailuresArePrecise : ∃ (i : Instr) (s t : State),
    s.status.errf = false ∧ exec i s = .next t ∧ t.status.errf = true :=
  ⟨.chunk, running false [], _, rfl, exec_after _ _, by decide +kernel⟩

theorem reset_inv : State.reset.Inv := by decide +kernel

theorem witness_StepKeepsLegalStates : ∃ s t : State, s.Inv ∧ step s = .next t :=
  ⟨State.reset, _, reset_inv, step_stepped _⟩

/-- A legal running state with one drawn byte that was asked for. -/
theorem witness_StepTakesOnlyBytesAskedFor : ∃ (s t : State) (c : Ctx),
    s.drawsAskedFor ∧ step s = .next t ∧ s.ctx = some c ∧ c.drawn.length = 1 := by
  refine ⟨runningCmd 0x13000000#32 false [0x5A#8], _, { padz := false, drawn := [0x5A#8] }, ?_, step_stepped _, rfl, rfl⟩
  intro c hc n hn
  cases hc
  obtain rfl : n = 0 := by simpa using hn
  decide +kernel

/-- A read, a write that is refused (ID is read-only), and a read answered BUSERR (an unmapped word). -/
theorem witness_ReadsAndBusErrorsChangeNothing :
    ((idle (.read 0x020#12 4)).inputs = [.read 0x020#12 4] ∧ (busRead 0x020#12 4 (idle (.read 0x020#12 4))).err = true) ∧
    ((idle (.write 0x000#12 4 0#32)).inputs = [.write 0x000#12 4 0#32] ∧
      step (idle (.write 0x000#12 4 0#32)) = .next (stepped (idle (.write 0x000#12 4 0#32))) ∧
      (stepped (idle (.write 0x000#12 4 0#32))).resp = some { err := true, rdata := none }) :=
  ⟨⟨rfl, by decide +kernel⟩, rfl, step_stepped _, by decide +kernel⟩

/-- With BUSY = 0 every location answers a word. -/
theorem witness_ReadsFollowTheRegisterMap :
    State.reset.status.busy = false ∧
    ([0x000#12, 0x004#12, 0x008#12, 0x00C#12, 0x010#12, 0x014#12, 0x018#12, 0x01C#12, 0x100#12, 0x17C#12, 0x180#12,
      0x1FC#12, 0x200#12, 0x27C#12, 0x280#12, 0x2FC#12, 0x300#12, 0x37C#12, 0x400#12, 0xBFC#12].all
      fun a => (busRead a 4 State.reset).rdata.isSome && !(busRead a 4 State.reset).err) = true := by decide +kernel

/-- Word 0 of W0 and word 31 of W15. -/
theorem witness_WideRegisterWordWrite : ∃ s u : State,
    (s.status.busy = false ∧ s.inputs = [.write (BitVec.ofNat 12 (0x400 + 0x80 * (0 : WReg).val + 4 * (0 : Fin 32).val)) 4 5#32]) ∧
    (u.status.busy = false ∧ u.inputs = [.write (BitVec.ofNat 12 (0x400 + 0x80 * (15 : WReg).val + 4 * (31 : Fin 32).val)) 4 5#32]) :=
  ⟨idle (.write 0x400#12 4 5#32), idle (.write 0xBFC#12 4 5#32), by decide, by decide⟩

theorem witness_InputBufferAndLengthWrite : ∃ s u : State,
    (s.status.busy = false ∧ s.inputs = [.write (BitVec.ofNat 12 (0x100 + 4 * (31 : Fin 32).val)) 4 5#32]) ∧
    (u.status.busy = false ∧ u.inputs = [.write 0x014#12 4 0xFFFFFFFF#32]) :=
  ⟨idle (.write 0x17C#12 4 5#32), idle (.write 0x014#12 4 0xFFFFFFFF#32), by decide, by decide⟩

theorem witness_StatusWriteClearsOnes : ∃ (s : State) (v : Word), s.inputs = [.write 0x008#12 4 v] ∧
    v.getLsbD 2 = true ∧ s.status.errf = true ∧ s.status.fatal = false :=
  ⟨{ State.reset.failedWith 0x01#8 with inputs := [.write 0x008#12 4 0x00000004#32] }, _, rfl, by decide, rfl, rfl⟩

theorem witness_InterruptLine : ∃ s u : State,
    (s.engineNext [] ∧ s.status.busy = true ∧ s.entReq = false ∧ s.ctrl.ieDone = true) ∧
    (u.inputs = [.write 0x008#12 4 0x00000006#32] ∧ u.status.fatal = false ∧ u.irq = true) :=
  ⟨{ runningCmd 0x00000000#32 false [] with ctrl := { ieDone := true, ieErr := false, padz := false } },
    { State.reset.failedWith 0x01#8 with
      ctrl := { ieDone := false, ieErr := true, padz := false }
      inputs := [.write 0x008#12 4 0x00000006#32] },
    ⟨.inl ⟨rfl, rfl⟩, rfl, by decide +kernel, rfl⟩, rfl, rfl, by decide⟩

theorem witness_LoadThenReadWideRegister : ∃ r : Rig, r.engine.status.busy = false :=
  ⟨{ engine := State.reset, entropy := [] }, rfl⟩

theorem witness_LoadBufferFillsTheInputBuffer : ∃ (r : Rig) (s : List Byte),
    r.engine.status.busy = false ∧ s.length = 128 :=
  ⟨{ engine := State.reset, entropy := [] }, List.replicate 128 0x5A#8, rfl, List.length_replicate⟩

/-- A source of one byte, encrypted under the small key with PADZ = 1 and 125 filler bytes. -/
theorem witness_EncryptSizeLaw : ∃ (src : Source) (dst : Sink) (r : Rig), src.bytes.length = 1 ∧
    (encryptStream src dst r).how = .finished :=
  ⟨{ bytes := [0x41#8], broken := false }, { bytes := [], room := none },
    { engine := { withKey 3233 17 2753 State.reset with ctrl := { ieDone := false, ieErr := false, padz := true } }
      entropy := List.replicate 125 0x00#8 }, rfl, by decide +kernel⟩

theorem witness_KeyFileRoundTrip : ∃ n e d : Nat, n < 2 ^ 1024 ∧ e < 2 ^ 1024 ∧ d < 2 ^ 1024 ∧ n = 2 ^ 1024 - 1 ∧ e = 0 :=
  ⟨2 ^ 1024 - 1, 0, 1, by decide +kernel⟩

/-- Two fields; an empty field; a field with a letter; the number 2^1024. -/
theorem witness_FormatErrorTouchesNothing :
    (splitLines [0x31#8, 0x0A#8]).length < 3 ∧
    (∃ f ∈ (splitLines [0x0A#8, 0x0A#8]).take 3, f = []) ∧
    (∃ f ∈ (splitLines [0x78#8, 0x0A#8, 0x31#8, 0x0A#8, 0x31#8]).take 3, ∃ b ∈ f, b.toNat < 0x30 ∨ 0x39 < b.toNat) ∧
    (∃ f ∈ (splitLines (serialize (2 ^ 1024) 1 1)).take 3,
      2 ^ 1024 ≤ f.foldl (fun acc b => acc * 10 + (b.toNat - 0x30)) 0) := by decide +kernel

/-- A drop found by the check, a failure, a success; an engine without and one with a key for newCipher, and an e that
is not coprime to (7-1)(11-1) = 60. -/
theorem witness_HostCheckAndReport :
    let lost : State := { State.reset with status := { State.reset.status with cmdLost := true } }
    (lost.status.busy = false ∧ lost.status.cmdLost = true) ∧
    (let s := State.reset.failedWith 0x01#8
     s.status.busy = false ∧ s.status.cmdLost = false ∧ s.status.errf = true) ∧
    (∀ s ∈ [State.reset, withKey 3233 17 2753 State.reset],
      s.status.busy = false ∧ s.status.cmdLost = false ∧ s.status.errf = false ∧ s.status.fatal = false) ∧
    7 * 11 < 2 ^ 1024 ∧ Nat.gcd 3 ((7 - 1) * (11 - 1)) ≠ 1 := by decide +kernel

/-- 95 §2.2: p = 7, q = 11, e = 3 is GENERATION, which newCipher returns as GenerationError (45 R460). -/
theorem test_newCipher_generation :
    (newCipher 7#1024 11#1024 3#1024 { engine := State.reset, entropy := [] }).how = .failed .generationError := by
  decide +kernel

/-- 95 §2.5: a drop while ERRF = 1 (STATUS 0x106, CMD 0x20000000); the check clears CMDLOST and leaves STATUS 0x006. -/
theorem test_check_dropped :
    let s : State := { State.reset.failedWith 0x02#8 with cmd := 0x20000000#32 }
    let x := (({ engine := s, entropy := [] } : Rig).wr 0x010#12 0#32).check
    x.1 = .dropped .error 0x02#8 0x20000000#32 ∧ x.2.engine.status.toWord = 0x00000006#32 := by decide +kernel

end Sys2Proof.Tests
end

/-!
PROOFS of the statements about the state (10_state.md): the cases of one step, the legal states every step keeps, the
key triple, the frames of the commands, and the reads and writes of the register window.
-/
namespace Sys2Proof.Machine

/-! ### One step -/

/-- What a legal 32-bit write to a location does in one step (20 R100). -/
theorem step_write {s : State} {l : Loc} {v : Word} {rest : List Input} (hin : s.inputs = .write l.addr 4 v :: rest)
    (ha : l.accessible s = true) (hw : l.writable = true) :
    step s = .next ((writeLoc v { s with inputs := rest } l).answer { err := false, rdata := none }) := by
  have ha' : l.accessible { s with inputs := rest } = true := ha
  rw [step_cons hin, perform, writeStep_addr ha' hw]

/-- What one step can leave: nothing new but the pending events and the bus answer, or the effect of one legal write, one
entropy byte taken, a hard reset, or a completion (44 R420). -/
inductive StepEnd (s : State) : State → Prop
  /-- A read, a refused write, a discarded byte, or the turn of an idle or starved engine. -/
  | quiet (l : List Input) (r : Option Response) : StepEnd s { s with inputs := l, resp := r }
  /-- A write answered OK (20 R100). -/
  | wrote {l : Loc} {v : Word} {rest : List Input} (hin : s.inputs = .write l.addr 4 v :: rest)
      (hacc : l.accessible s = true) (hwritable : l.writable = true) :
      StepEnd s ((writeLoc v { s with inputs := rest } l).answer { err := false, rdata := none })
  /-- An entropy byte taken while ent_req = 1 (20 R120). -/
  | took {b : Byte} {rest : List Input} (hin : s.inputs = .entropy b :: rest) (hreq : s.entReq = true) :
      StepEnd s { s with
        inputs := rest
        ctx := some { padz := s.runningCtx.padz, drawn := s.runningCtx.drawn ++ [b] } }
  /-- The reset pin (70 R600). -/
  | reset {rest : List Input} (hin : s.inputs = .hardReset :: rest) : StepEnd s (resetStep { s with inputs := rest })
  /-- A failing completion (60 R502). -/
  | failed {rest : List Input} {c : ErrCode} (hnext : s.engineNext rest) (hbusy : s.status.busy = true)
      (hc : c ≠ .protocol) : StepEnd s (raiseError c { s with inputs := rest })
  /-- A successful completion of the command in CMD (44 R403). -/
  | succeeded {rest : List Input} {i : Instr} {u : State} (hnext : s.engineNext rest) (hbusy : s.status.busy = true)
      (hcmd : decodeWord s.cmd = .command i) (hu : resultOf i { s with inputs := rest } = .success u) :
      StepEnd s (finish u)

/-- The engine's turn changes nothing, or is a completion. -/
theorem stepEnd_of_engineTurn {s t : State} {rest : List Input} (hnext : s.engineNext rest)
    (h : engineTurn { s with inputs := rest } = .next t) : StepEnd s t := by
  cases hbusy : s.status.busy with
  | false =>
    rw [engineTurn, if_neg (by simp [hbusy])] at h
    cases h
    exact .quiet rest s.resp
  | true =>
    cases hreq : s.entReq with
    | true =>
      rw [engineTurn_waiting ((entReq_inputs s rest).trans hreq)] at h
      cases h
      exact .quiet rest s.resp
    | false =>
      rcases engineTurn_not_waiting (s := { s with inputs := rest }) hbusy ((entReq_inputs s rest).trans hreq) h with
        ⟨c, hc, rfl⟩ | ⟨i, u, hcmd, hu, rfl⟩
      · exact .failed hnext hbusy hc
      · exact .succeeded hnext hbusy hcmd hu

/-- Every step is one of the cases of `StepEnd` (44 R420). -/
theorem stepEnd_of_step {s t : State} (h : step s = .next t) : StepEnd s t := by
  cases hin : s.inputs with
  | nil =>
    have hnext : s.engineNext [] := .inl ⟨hin, rfl⟩
    exact stepEnd_of_engineTurn hnext (by rw [← step_engineNext hnext, h])
  | cons e rest =>
    rw [step_cons hin] at h
    cases e with
    | read a size => cases h; exact .quiet rest _
    | write a size v =>
      cases h
      rcases writeStep_cases a size v { s with inputs := rest } with ⟨l, hl, hacc, hwritable, ht⟩ | ht
      · obtain ⟨rfl, rfl⟩ := locate_eq_some_iff.mp hl
        rw [ht]
        exact .wrote hin hacc hwritable
      · rw [ht]
        exact .quiet rest _
    | entropy b =>
      cases h
      rw [deliver, entReq_inputs]
      split
      · next hreq => exact .took hin hreq
      · exact .quiet rest s.resp
    | engine => exact stepEnd_of_engineTurn (.inr hin) h
    | hardReset => cases h; exact .reset hin

/-! ### Legal states -/

/-- A reset leaves a legal state (70 R600). -/
theorem inv_resetStep (s : State) : (resetStep s).Inv := by
  refine ⟨⟨rfl, by simp [Status.reset]⟩, ⟨by simp, by simp [Status.reset], rfl⟩, ⟨by simp, ?_⟩,
    fun _ => ⟨rfl, rfl, rfl⟩⟩
  intro j _
  simp

/-- The codes of 60 R501 that a command fails with are 0x01 to 0x08. -/
theorem code_range {c : ErrCode} (hc : c ≠ .protocol) : c.code.toNat ≤ 8 ∧ c.code ≠ 0#8 := by
  cases c with
  | protocol => exact absurd rfl hc
  | _ => decide

/-- A failing completion leaves a legal state (60 R502). -/
theorem inv_raiseError {s : State} {c : ErrCode} (hc : c ≠ .protocol) (h : s.Inv) : (raiseError c s).Inv := by
  obtain ⟨-, ⟨-, -, hfatal⟩, hobuf, hkey⟩ := h
  obtain ⟨hle, hne⟩ := code_range hc
  exact ⟨⟨rfl, by simp⟩, ⟨hle, by simp [hne], by simp [hfatal, hc]⟩, hobuf, hkey⟩

/-- Acceptance leaves a legal state (44 R400). -/
theorem inv_accept {s : State} (hacc : s.acceptable = true) (w : Word) (h : s.Inv) : (accept w s).Inv := by
  obtain ⟨-, herr, hobuf, hkey⟩ := h
  have herrf : s.status.errf = false := by simp_all [State.acceptable]
  exact ⟨⟨rfl, by simp [herrf]⟩, herr, hobuf, hkey⟩

/-- A CMD write leaves a legal state, whether it is accepted or dropped (44 R400, R401). -/
theorem inv_issueCommand {s : State} (w : Word) (h : s.Inv) : (issueCommand w s).Inv := by
  unfold issueCommand
  split
  · next hacc => exact inv_accept hacc w h
  · exact h

/-- A STATUS write leaves a legal state: ERRF and ERR are cleared together (10 R50). -/
theorem inv_writeStatus {s : State} (v : Word) (h : s.Inv) : (writeStatus v s).Inv := by
  obtain ⟨⟨hctx, hrun⟩, ⟨hle, hiff, hfatal⟩, hobuf, hkey⟩ := h
  have hrun' : s.status.busy = true → (s.status.w1c v).errf = false ∧ (s.status.w1c v).done = false := by
    intro hb
    obtain ⟨herrf, hdone⟩ := hrun hb
    simp [herrf, hdone]
  refine ⟨⟨hctx, hrun'⟩, ?_, hobuf, hkey⟩
  by_cases hclr : clearsErrf v s.status = true <;> simp [State.errLegal, hclr, hle, hiff, hfatal]

/-- A CTRL write leaves a legal state (10 R48). -/
theorem inv_writeCtrl {s : State} (v : Word) (h : s.Inv) : (writeCtrl v s).Inv := by
  unfold writeCtrl
  split
  · exact inv_resetStep s
  · exact h

/-- Every legal write leaves a legal state. -/
theorem inv_writeLoc {s : State} (v : Word) (l : Loc) (h : s.Inv) : (writeLoc v s l).Inv := by
  cases l with
  | ctrl => exact inv_writeCtrl v h
  | status => exact inv_writeStatus v h
  | cmd => exact inv_issueCommand v h
  | _ => exact h

/-- OBUF with zeros above OBUF_LEN (10 R43), when the bytes that fit the buffer are no more than the length. -/
theorem obufLegal_of_bufferOf {t : State} {bytes : List Byte} {n : Nat} (hobuf : t.obuf = bufferOf bytes)
    (hlen : t.obufLen = BitVec.ofNat 8 n) (hb : min bytes.length 128 ≤ n) (hn : n ≤ 128) : t.obufLegal := by
  have hlen' : t.obufLen.toNat = n := by rw [hlen, BitVec.toNat_ofNat]; omega
  refine ⟨by omega, fun j hj => ?_⟩
  simp only [hobuf, bufferOf_get]
  exact List.getD_eq_default _ _ (by have := j.isLt; omega)

/-- A stored block is legal output: it fills the buffer (42 R340). -/
theorem obufLegal_storeBlock {padz : Bool} {c : Nat} {bytes : List Byte} {s u : State}
    (h : storeBlock padz c bytes s = .success u) : u.obufLegal := by
  unfold storeBlock at h
  repeat' split at h
  all_goals cases h
  exact obufLegal_of_bufferOf rfl rfl (min_le_right _ _) le_rfl

/-- The decoded data of a wide value is legal output (42 R315, R316). -/
theorem obufLegal_storeDecoded {v : Nat} (hv : v < 2 ^ 1024) (s : State) :
    (storeDecoded (decodeChunk v) s).obufLegal :=
  obufLegal_of_bufferOf rfl rfl (min_le_left _ _) (decodeChunk_length_le hv)

/-- A success leaves OBUF zero at and above OBUF_LEN (10 R43). -/
theorem success_obufLegal {i : Instr} {s u : State} (hu : resultOf i s = .success u) (h : s.obufLegal) :
    u.obufLegal := by
  cases hi : writesObuf i with
  | false =>
    obtain ⟨hobuf, hlen⟩ := success_keeps_obuf hu hi
    simpa only [State.obufLegal, hobuf, hlen] using h
  | true =>
    cases i <;> simp only [writesObuf, Bool.false_eq_true] at hi
    case chunk =>
      simp only [resultOf, chunkResult] at hu
      repeat' split at hu
      all_goals cases hu
      next hchunk => exact obufLegal_of_bufferOf rfl rfl (by omega) (by norm_num)
    case unchunk rs1 =>
      simp only [resultOf, unchunkResult] at hu
      cases hu
      exact obufLegal_storeDecoded (regValue_lt s rs1) s
    case stblk rs1 => exact obufLegal_storeBlock hu
    case encblk =>
      simp only [resultOf, encblkResult] at hu
      repeat' split at hu
      all_goals try cases hu
      exact obufLegal_storeBlock hu
    case decblk =>
      simp only [resultOf, decblkResult] at hu
      repeat' split at hu
      all_goals cases hu
      next hkn => exact obufLegal_storeDecoded (modExp_lt_wide hkn) s

/-- A success leaves the key registers 0 while KEY_VALID is 0 (10 R37, R38). -/
theorem success_keyLegal {i : Instr} {s u : State} (hu : resultOf i s = .success u) (h : s.keyLegal) : u.keyLegal := by
  cases hi : writesKeys i with
  | false =>
    obtain ⟨hkn, hke, hkd, hvalid⟩ := success_keeps_keys hu hi
    simpa only [State.keyLegal, hkn, hke, hkd, hvalid] using h
  | true =>
    intro hvalid
    rcases success_key_state hu hi with ⟨-, hkn, hke, hkd, -⟩ | ⟨-, -, hset⟩
    · exact ⟨hkn, hke, hkd⟩
    · rw [hset] at hvalid; cases hvalid

/-- A successful completion leaves a legal state (44 R403). -/
theorem inv_finish {i : Instr} {s u : State} (hu : resultOf i s = .success u) (h : s.Inv) : (finish u).Inv := by
  obtain ⟨-, herr, hobuf, hkey⟩ := h
  obtain ⟨-, -, -, kerr, -, -, -, -, -, -, kerrf, kfatal, -⟩ := success_keeps hu
  have herr' : (finish u).errLegal := by
    simpa only [State.errLegal, finish_err, finish_status, Status.completed_errf, Status.completed_fatal, kerr, kerrf,
      kfatal] using herr
  have hobuf' : u.obufLegal := success_obufLegal hu hobuf
  have hkey' : u.keyLegal := success_keyLegal hu hkey
  exact ⟨⟨rfl, by simp⟩, herr', hobuf', hkey'⟩

/-- A byte taken leaves a legal state: ent_req is 1 only while BUSY = 1 (20 R120). -/
theorem inv_took {s : State} (hreq : s.entReq = true) (l : List Input) (c : Ctx) (h : s.Inv) :
    State.Inv { s with inputs := l, ctx := some c } := by
  obtain ⟨⟨-, hrun⟩, hrest⟩ := h
  have hbusy : s.status.busy = true := (Bool.and_eq_true_iff.mp hreq).1
  exact ⟨⟨hbusy.symm, hrun⟩, hrest⟩

/-- Settles O45: each case of a step keeps the invariant, which reads neither the pending events nor the bus answer. -/
theorem stepKeepsLegalStates : Obligations.StepKeepsLegalStates := by
  intro s t h hstep
  cases stepEnd_of_step hstep with
  | quiet _ _ => exact h
  | @wrote l v rest _ _ _ => exact inv_writeLoc (s := { s with inputs := rest }) v l h
  | took _ hreq => exact inv_took hreq _ _ h
  | reset _ => exact inv_resetStep _
  | @failed rest c _ _ hc => exact inv_raiseError (s := { s with inputs := rest }) hc h
  | succeeded _ _ _ hu => exact inv_finish hu h

/-! ### The key triple -/

/-- A legal write keeps the key triple and KEY_VALID, unless it is a soft reset (10 R37, R38). -/
theorem writeLoc_keys (v : Word) (s : State) (l : Loc) :
    ((writeLoc v s l).kn = s.kn ∧ (writeLoc v s l).ke = s.ke ∧ (writeLoc v s l).kd = s.kd ∧
      (writeLoc v s l).status.keyValid = s.status.keyValid) ∨
    (l = .ctrl ∧ srstBit v = true ∧ writeLoc v s l = resetStep s) := by
  cases l with
  | ctrl =>
    cases hv : srstBit v with
    | true => exact .inr ⟨rfl, rfl, by simp [writeLoc, writeCtrl, hv]⟩
    | false => exact .inl (by simp [writeLoc, writeCtrl, hv])
  | cmd =>
    left
    simp only [writeLoc, issueCommand]
    split <;> exact ⟨rfl, rfl, rfl, rfl⟩
  | _ => exact .inl ⟨rfl, rfl, rfl, rfl⟩

/-- What one step does to the key triple and KEY_VALID (10 R37, R38): it keeps them, is a reset, or completes a key
command. -/
theorem step_keys {s t : State} (h : step s = .next t) :
    (t.kn = s.kn ∧ t.ke = s.ke ∧ t.kd = s.kd ∧ t.status.keyValid = s.status.keyValid) ∨
    ((t.kn = 0#1024 ∧ t.ke = 0#1024 ∧ t.kd = 0#1024 ∧ t.status.keyValid = false) ∧
      ∃ rest, s.inputs = .hardReset :: rest ∨
        ∃ v : Word, v.getLsbD 31 = true ∧ s.inputs = .write 0x004#12 4 v :: rest) ∨
    ∃ rest i, s.engineNext rest ∧ s.status.busy = true ∧ decodeWord s.cmd = .command i ∧
      ((i = .keyclr ∧ t.kn = 0#1024 ∧ t.ke = 0#1024 ∧ t.kd = 0#1024 ∧ t.status.keyValid = false) ∨
        (((∃ a b c, i = .keygen a b c) ∨ ∃ a b c, i = .keyload a b c) ∧ s.status.keyValid = false ∧
          t.status.keyValid = true)) := by
  cases stepEnd_of_step h with
  | quiet _ _ => exact .inl ⟨rfl, rfl, rfl, rfl⟩
  | @wrote l v rest hin _ _ =>
    rcases writeLoc_keys v { s with inputs := rest } l with hkept | ⟨rfl, hv, ht⟩
    · exact .inl hkept
    · rw [ht]
      exact .inr (.inl ⟨⟨rfl, rfl, rfl, rfl⟩, rest, .inr ⟨v, hv, hin⟩⟩)
  | took _ _ => exact .inl ⟨rfl, rfl, rfl, rfl⟩
  | @reset rest hin => exact .inr (.inl ⟨⟨rfl, rfl, rfl, rfl⟩, rest, .inl hin⟩)
  | failed _ _ _ => exact .inl ⟨rfl, rfl, rfl, rfl⟩
  | @succeeded rest i u hnext hbusy hcmd hu =>
    cases hi : writesKeys i with
    | false => exact .inl (success_keeps_keys (s := { s with inputs := rest }) (t := u) hu hi)
    | true =>
      have hkey := success_key_state (s := { s with inputs := rest }) (t := u) hu hi
      exact .inr (.inr ⟨rest, i, hnext, hbusy, hcmd, hkey⟩)

/-- Settles O26, from what one step does to the key triple. -/
theorem keyValidChangesOnlyByKeyCommandsAndReset : Obligations.KeyValidChangesOnlyByKeyCommandsAndReset := by
  intro s t hstep hne
  rcases step_keys hstep with ⟨-, -, -, hkept⟩ | ⟨⟨-, -, -, hclr⟩, hreset⟩ | ⟨rest, i, hnext, hbusy, hcmd, hkey⟩
  · exact absurd hkept hne
  · exact .inr ⟨hclr, hreset⟩
  · refine .inl ⟨rest, i, hnext, hbusy, hcmd, ?_⟩
    rcases hkey with ⟨hi, -, -, -, hclr⟩ | ⟨hi, -, hset⟩
    · exact .inr ⟨hclr, hi⟩
    · exact .inl ⟨hset, hi⟩

/-- Settles O27: with KEY_VALID = 1 a step keeps the triple, or clears it with KEY_VALID; KEYGEN and KEYLOAD fail. -/
theorem keyTripleIsImmutableWhileHeld : Obligations.KeyTripleIsImmutableWhileHeld := by
  intro s t hstep hheld
  rcases step_keys hstep with ⟨hkn, hke, hkd, hkept⟩ | ⟨⟨hkn, hke, hkd, hclr⟩, -⟩ |
      ⟨-, -, -, -, -, ⟨-, hkn, hke, hkd, hclr⟩ | ⟨-, hfree, -⟩⟩
  · exact ⟨fun _ => ⟨hkn, hke, hkd⟩, fun hclr => absurd hclr (by simp [hkept, hheld])⟩
  · exact ⟨fun hset => absurd hset (by simp [hclr]), fun _ => ⟨hkn, hke, hkd⟩⟩
  · exact ⟨fun hset => absurd hset (by simp [hclr]), fun _ => ⟨hkn, hke, hkd⟩⟩
  · exact absurd hheld (by simp [hfree])

/-! ### The frame of a command -/

/-- Settles O41: a wait changes nothing, a failure only ERR and the completion flags, a success what the laws of the
results leave open. -/
theorem commandFrame : Obligations.CommandFrame := by
  intro i s t h
  rcases exec_cases h with ⟨-, rfl⟩ | ⟨c, hc, -, rfl⟩ | ⟨u, hu, rfl⟩
  · simp
  · simp [hc]
  · obtain ⟨hibuf, hibufLen, hctrl, -, hcmd, -, hinputs, hresp, -, -, -, hfatal, hlost⟩ := success_keeps hu
    obtain ⟨hsigns, hshort⟩ := success_keeps_flags hu
    exact ⟨hibuf, hibufLen, hctrl, hcmd, hlost, hfatal, hinputs, hresp, fun _ => success_keeps_w hu,
      success_keeps_keys (t := u) hu, success_keeps_obuf (t := u) hu, hsigns, hshort⟩

/-- Settles O42: each location reads one field, which the frame of the command keeps. -/
theorem commandFrameThroughTheWindow : Obligations.CommandFrameThroughTheWindow := by
  intro i s t l h hstatus herr hdest hkeys hout
  obtain ⟨hibuf, hibufLen, hctrl, hcmd, -, -, -, -, hw, hkey, hobuf, -, -⟩ := commandFrame i s t h
  cases l with
  | id => rfl
  | param => rfl
  | status => exact absurd rfl hstatus
  | err => exact absurd rfl herr
  | ctrl => simp only [readLoc, hctrl]
  | cmd => simp only [readLoc, hcmd]
  | ibufLen => simp only [readLoc, hibufLen]
  | ibuf j => simp only [readLoc, hibuf]
  | obufLen =>
    have hno : writesObuf i = false := Bool.eq_false_iff.mpr fun hi => (hout hi).1 rfl
    simp only [readLoc, (hobuf hno).2]
  | obuf j =>
    have hno : writesObuf i = false := Bool.eq_false_iff.mpr fun hi => (hout hi).2 j rfl
    simp only [readLoc, (hobuf hno).1]
  | kn j =>
    have hno : writesKeys i = false := Bool.eq_false_iff.mpr fun hi => (hkeys hi j).1 rfl
    simp only [readLoc, (hkey hno).1]
  | ke j =>
    have hno : writesKeys i = false := Bool.eq_false_iff.mpr fun hi => (hkeys hi j).2.1 rfl
    simp only [readLoc, (hkey hno).2.1]
  | kd j =>
    have hno : writesKeys i = false := Bool.eq_false_iff.mpr fun hi => (hkeys hi j).2.2 rfl
    simp only [readLoc, (hkey hno).2.2.1]
  | w r j => simp only [readLoc, hw r (hdest r j rfl)]

/-! ### Reads of the register window -/

/-- One more flag at the low end of a word of flags. -/
theorem getLsbD_append_ofBool {n : Nat} {x : BitVec n} {flags : List Bool}
    (h : ∀ k, x.getLsbD k = flags.getD k false) (b : Bool) (k : Nat) :
    (x ++ BitVec.ofBool b).getLsbD k = (b :: flags).getD k false := by
  rw [BitVec.getLsbD_append]
  cases k with
  | zero => simp
  | succ k => simpa using h k

/-- The bits of STATUS as the bus reads it (10 R46, R49). -/
theorem getLsbD_status_toWord (f : Status) (k : Nat) : f.toWord.getLsbD k =
    [f.busy, f.done, f.errf, f.fatal, f.keyValid, f.xneg, f.yneg, f.dshort, f.cmdLost].getD k false := by
  have hzero : ∀ k, (0#23).getLsbD k = ([] : List Bool).getD k false := by simp
  have hlost := getLsbD_append_ofBool hzero f.cmdLost
  have hsigns := getLsbD_append_ofBool (getLsbD_append_ofBool (getLsbD_append_ofBool hlost f.dshort) f.yneg) f.xneg
  have herrf := getLsbD_append_ofBool (getLsbD_append_ofBool (getLsbD_append_ofBool hsigns f.keyValid) f.fatal) f.errf
  exact getLsbD_append_ofBool (getLsbD_append_ofBool herrf f.done) f.busy k

/-- The bits of CTRL as the bus reads it (10 R46, R47). -/
theorem getLsbD_ctrl_toWord (c : Ctrl) (k : Nat) :
    c.toWord.getLsbD k = [c.ieDone, c.ieErr, c.padz].getD k false := by
  have hzero : ∀ k, (0#29).getLsbD k = ([] : List Bool).getD k false := by simp
  have hpadz := getLsbD_append_ofBool hzero c.padz
  exact getLsbD_append_ofBool (getLsbD_append_ofBool hpadz c.ieErr) c.ieDone k

/-- A byte read through a 32-bit word keeps its value. -/
theorem toNat_zeroExtend_byte (b : Byte) : (b.zeroExtend 32).toNat = b.toNat := by
  rw [BitVec.zeroExtend, BitVec.toNat_setWidth]
  have := b.isLt
  omega

/-- Word `j` of a wide value as a number (10 R32). -/
theorem toNat_wideWord (v : Wide) (j : Fin 32) : (wideWord v j).toNat = v.toNat / 2 ^ (992 - 32 * j.val) % 2 ^ 32 := by
  rw [wideWord, wideWordLow, BitVec.extractLsb'_toNat, Nat.shiftRight_eq_div_pow]

/-- The four bytes of word `j` of a buffer (10 R40). -/
theorem take_drop_word (b : Vector Byte 128) (j : Fin 32) : (b.toList.drop (4 * j.val)).take 4 =
    [b[(laneIndex j 0).val], b[(laneIndex j 1).val], b[(laneIndex j 2).val], b[(laneIndex j 3).val]] := by
  apply List.ext_getElem
  · simp; omega
  · intro k h1 h2
    have hk : k < 4 := by simpa using h2
    interval_cases k <;> simp [laneIndex]

/-- One more byte at the low end of a word. -/
theorem toNat_append_byte {n : Nat} (x : BitVec n) (b : Byte) : (x ++ b).toNat = x.toNat * 256 + b.toNat := by
  rw [BitVec.toNat_append, ← Nat.shiftLeft_add_eq_or_of_lt b.isLt, Nat.shiftLeft_eq]

/-- Word `j` of a buffer is the big-endian value of its four bytes (10 R40). -/
theorem toNat_bufWord (b : Vector Byte 128) (j : Fin 32) :
    (bufWord b j).toNat = beValue ((b.toList.drop (4 * j.val)).take 4) := by
  rw [take_drop_word, bufWord]
  simp only [toNat_append_byte, beValue, List.foldl_cons, List.foldl_nil, zero_mul, zero_add]

/-- What a read of an accessible location returns (20 R100). -/
theorem busRead_rdata {l : Loc} {s : State} (ha : l.accessible s = true) :
    (busRead l.addr 4 s).rdata = some (readLoc s l) := by
  rw [busRead_addr ha]

/-- A location no running command blocks may be accessed in any state (20 R107). -/
theorem accessible_of_unblocked {l : Loc} (h : l.busyBlocked = false) (s : State) : l.accessible s = true := by
  simp [Loc.accessible, h]

/-- Settles O49: the read of each location at its address, and the value of what it holds. -/
theorem readsFollowTheRegisterMap : Obligations.ReadsFollowTheRegisterMap := by
  intro s
  have hopen {l : Loc} (hl : l.busyBlocked = false) := busRead_rdata (accessible_of_unblocked hl s)
  refine ⟨hopen (l := .id) rfl, hopen (l := .param) rfl, hopen (l := .cmd) rfl,
    ⟨_, hopen (l := .status) rfl, fun k => getLsbD_status_toWord s.status k⟩,
    ⟨_, hopen (l := .ctrl) rfl, fun k => getLsbD_ctrl_toWord s.ctrl k⟩,
    ⟨_, hopen (l := .err) rfl, toNat_zeroExtend_byte s.err⟩, fun hidle => ?_⟩
  have hread (l : Loc) := busRead_rdata (accessible_of_idle hidle l)
  exact ⟨⟨_, hread .ibufLen, toNat_zeroExtend_byte s.ibufLen⟩, ⟨_, hread .obufLen, toNat_zeroExtend_byte s.obufLen⟩,
    fun j => ⟨⟨_, hread (.ibuf j), toNat_bufWord s.ibuf j⟩, ⟨_, hread (.obuf j), toNat_bufWord s.obuf j⟩,
      ⟨_, hread (.kn j), toNat_wideWord s.kn j⟩, ⟨_, hread (.ke j), toNat_wideWord s.ke j⟩,
      ⟨_, hread (.kd j), toNat_wideWord s.kd j⟩, fun i => ⟨_, hread (.w i j), toNat_wideWord (s.getW i) j⟩⟩⟩

/-! ### Writes to the register window -/

/-- Settles O50, from the bits of a wide value with one word replaced. -/
theorem wideRegisterWordWrite : Obligations.WideRegisterWordWrite := by
  intro s i j v rest hidle hin
  refine ⟨_, step_write (l := .w i j) hin (accessible_of_idle hidle _) rfl, fun k hk => ?_, fun r hr => ?_, rfl⟩
  · simp only [writeLoc, answer_getW, getW_setW_same]
    exact getLsbD_setWideWord _ j v hk
  · simp only [writeLoc, answer_getW]
    exact getW_setW_ne _ i r _ hr

/-- Settles O51, from the bytes of a buffer with one word replaced. -/
theorem inputBufferAndLengthWrite : Obligations.InputBufferAndLengthWrite := by
  intro s j v rest hidle
  constructor <;> intro hin
  · exact ⟨_, step_write (l := .ibuf j) hin (accessible_of_idle hidle _) rfl, setBufWord_get s.ibuf j v, rfl⟩
  · exact ⟨_, step_write (l := .ibufLen) hin (accessible_of_idle hidle _) rfl, BitVec.toNat_setWidth 8 v, rfl⟩

/-- Settles O16: the two branches of a CTRL write. -/
theorem controlWriteResetsOrStores : Obligations.ControlWriteResetsOrStores := by
  intro s v rest hin
  rw [step_write (l := .ctrl) hin (accessible_of_unblocked rfl s) rfl, writeLoc, writeCtrl, srstBit]
  constructor <;> intro hv
  · rw [if_pos hv]; rfl
  · rw [if_neg (Bool.eq_false_iff.mp hv)]; rfl

/-- Settles O52: write-1-to-clear as a choice per bit. -/
theorem statusWriteClearsOnes : Obligations.StatusWriteClearsOnes := by
  intro s v rest hin
  rw [step_write (l := .status) hin (accessible_of_unblocked rfl s) rfl]
  have hclr : clearsErrf v s.status = decide (v.getLsbD 2 = true ∧ s.status.fatal = false) := by
    simp [clearsErrf, Bool.decide_and]
  have hw1c : ∀ flag one : Bool, (flag && !one) = if one = true then false else flag := by decide
  simp only [writeLoc, writeStatus, Status.w1c, State.answer, hclr, hw1c, decide_eq_true_eq]

end Sys2Proof.Machine

/-!
PROOFS of the statements about the memory-mapped window and the entropy port (20_memory.md): when a transaction answers
BUSERR, what a read and a refused write leave, the windows as big-endian images, and the bytes the engine asks for.
-/
namespace Sys2Proof.Machine

/-! ### Bytes the engine asks for -/

/-- What a running command reads to tell whether it needs a byte, but for its context (44 R405). -/
def State.demand (s : State) : (Bool × Word × Bool) × (Wide × Wide) × Vector Wide 16 × Vector Byte 128 × BitVec 8 :=
  ((s.status.busy, s.cmd, s.status.keyValid), (s.kn, s.ke), s.w, s.ibuf, s.ibufLen)

/-- ent_req reads only what `State.demand` names, and the context (20 R120). -/
theorem entReq_of_demand_eq {s t : State} (h : t.demand = s.demand) (hctx : t.runningCtx = s.runningCtx) :
    t.entReq = s.entReq := by
  simp only [State.demand, Prod.mk.injEq] at h
  obtain ⟨⟨hbusy, hcmd, hkey⟩, ⟨hkn, hke⟩, hw, hibuf, hlen⟩ := h
  have hcount : t.ibufCount = s.ibufCount := by rw [State.ibufCount, State.ibufCount, hlen]
  have hdata (k : Nat) : t.ibufData k = s.ibufData k := by rw [State.ibufData, State.ibufData, hibuf]
  have hreg (i : WReg) : t.regValue i = s.regValue i := by simp only [State.regValue, State.getW, hw]
  unfold State.entReq
  rw [hbusy, hcmd]
  cases decodeWord s.cmd with
  | illegal _ => rfl
  | command i =>
    cases i with
    | chunk => simp only [wantsByte, chunkResult_isWaiting, hctx, hcount]
    | stblk rs1 => simp only [wantsByte, stblkResult_isWaiting, hctx, hreg]
    | encblk => simp only [wantsByte, encblkResult_isWaiting, hctx, hcount, hdata, hkey, hkn, hke]
    | _ => rfl

/-- A change of nothing that demand reads, and not of the context, keeps that the drawn bytes were asked for. -/
theorem drawsAskedFor_of_demand_eq {s t : State} (h : t.demand = s.demand) (hctx : t.ctx = s.ctx)
    (hs : s.drawsAskedFor) : t.drawsAskedFor := by
  intro c hc n hn
  have hreq := hs c (hctx.symm.trans hc) n hn
  exact (entReq_of_demand_eq (t := { t with ctx := some { padz := c.padz, drawn := c.drawn.take n } })
    (s := { s with ctx := some { padz := c.padz, drawn := c.drawn.take n } }) h rfl).trans hreq

/-- A context without a drawn byte, or none at all, holds no byte that was not asked for. -/
theorem drawsAskedFor_of_no_draws {s : State} (h : ∀ c, s.ctx = some c → c.drawn = []) : s.drawsAskedFor := by
  intro c hc n hn
  simp [h c hc] at hn

/-- While BUSY = 0 nothing is asked for, so no drawn byte is held (20 R120). -/
theorem no_draws_of_idle {s : State} (hidle : s.status.busy = false) (hs : s.drawsAskedFor) :
    ∀ c, s.ctx = some c → c.drawn = [] := by
  intro c hc
  by_contra hne
  have hreq := hs c hc 0 (List.length_pos_iff.mpr hne)
  simp [State.entReq, hidle] at hreq

/-- A legal write keeps the context, or leaves none, or a new one with no drawn byte (44 R400, 70 R605). -/
theorem writeLoc_ctx (v : Word) (s : State) (l : Loc) :
    (writeLoc v s l).ctx = s.ctx ∨ ∀ c, (writeLoc v s l).ctx = some c → c.drawn = [] := by
  cases l with
  | ctrl =>
    simp only [writeLoc, writeCtrl]
    split
    · exact .inr (by simp)
    · exact .inl rfl
  | cmd =>
    simp only [writeLoc, issueCommand]
    split
    · exact .inr (by simp)
    · exact .inl rfl
  | _ => exact .inl rfl

/-- While BUSY = 1 a legal write is a soft reset, or keeps the context and what demand reads: the registers, IBUF and the
keys are busy-blocked, and a CMD write is dropped (20 R107, 44 R401). -/
theorem writeLoc_of_busy {s : State} {l : Loc} (hbusy : s.status.busy = true) (hacc : l.accessible s = true) (v : Word) :
    writeLoc v s l = resetStep s ∨ ((writeLoc v s l).demand = s.demand ∧ (writeLoc v s l).ctx = s.ctx) := by
  have hopen : l.busyBlocked = false := by simpa [Loc.accessible, hbusy] using hacc
  cases l with
  | ctrl =>
    simp only [writeLoc, writeCtrl]
    split
    · exact .inl rfl
    · exact .inr ⟨rfl, rfl⟩
  | cmd =>
    have hdrop : s.acceptable = false := by simp [State.acceptable, hbusy]
    simp only [writeLoc, issueCommand, hdrop]
    exact .inr ⟨rfl, rfl⟩
  | ibufLen | ibuf _ | w _ _ => cases hopen
  | _ => exact .inr ⟨rfl, rfl⟩

/-- A legal write keeps that the drawn bytes were asked for. -/
theorem drawsAskedFor_writeLoc {s : State} {l : Loc} (hacc : l.accessible s = true) (v : Word) (hs : s.drawsAskedFor) :
    (writeLoc v s l).drawsAskedFor := by
  cases hbusy : s.status.busy with
  | true =>
    rcases writeLoc_of_busy hbusy hacc v with hreset | ⟨hdemand, hctx⟩
    · exact drawsAskedFor_of_no_draws (by simp [hreset])
    · exact drawsAskedFor_of_demand_eq hdemand hctx hs
  | false =>
    rcases writeLoc_ctx v s l with hctx | hnew
    · exact drawsAskedFor_of_no_draws (hctx ▸ no_draws_of_idle hbusy hs)
    · exact drawsAskedFor_of_no_draws hnew

/-- The byte taken while ent_req = 1 was asked for, as were those before it (20 R120). -/
theorem drawsAskedFor_took {s : State} (hreq : s.entReq = true) (b : Byte) (hs : s.drawsAskedFor) :
    State.drawsAskedFor { s with
      ctx := some { padz := s.runningCtx.padz, drawn := s.runningCtx.drawn ++ [b] } } := by
  intro c hc n hn
  cases hc
  rw [List.length_append, List.length_singleton] at hn
  simp only [List.take_append_of_le_length (Nat.le_of_lt_succ hn)]
  rcases Nat.lt_succ_iff_lt_or_eq.mp hn with hold | rfl
  · cases hctx : s.ctx with
    | none => simp [State.runningCtx, hctx] at hold
    | some c =>
      have hrun : s.runningCtx = c := by rw [State.runningCtx, hctx]; rfl
      rw [hrun] at hold ⊢
      exact hs c hctx n hold
  · rw [List.take_length]
    exact (entReq_of_demand_eq (s := s) (t := { s with ctx := some s.runningCtx }) rfl rfl).trans hreq

/-- Every step keeps that the drawn bytes were asked for (20 R120, 44 R420). -/
theorem step_keeps_drawsAskedFor {s t : State} (hs : s.drawsAskedFor) (hstep : step s = .next t) : t.drawsAskedFor := by
  have hpending {l : List Input} {r : Option Response} : State.drawsAskedFor { s with inputs := l, resp := r } :=
    drawsAskedFor_of_demand_eq (s := s) rfl rfl hs
  cases stepEnd_of_step hstep with
  | quiet _ _ => exact hpending
  | @wrote l v rest _ hacc _ =>
    exact drawsAskedFor_of_demand_eq (s := writeLoc v { s with inputs := rest } l) rfl rfl
      (drawsAskedFor_writeLoc (s := { s with inputs := rest }) hacc v hpending)
  | @took b rest _ hreq =>
    exact drawsAskedFor_took (s := { s with inputs := rest }) ((entReq_inputs s rest).trans hreq) b hpending
  | reset _ => exact drawsAskedFor_of_no_draws (by simp)
  | failed _ _ _ => exact drawsAskedFor_of_no_draws (by simp)
  | succeeded _ _ _ _ => exact drawsAskedFor_of_no_draws (by simp)

/-- A command that still asks for a byte has drawn fewer than 253: at most 125 filler and 128 pad bytes are needed
(44 R405). -/
theorem drawn_lt_of_entReq {s : State} (hreq : s.entReq = true) : s.runningCtx.drawn.length < 253 := by
  obtain ⟨-, hwants⟩ := Bool.and_eq_true_iff.mp hreq
  cases hd : decodeWord s.cmd with
  | illegal _ => simp [hd] at hwants
  | command i =>
    simp only [hd] at hwants
    cases i with
    | chunk =>
      rw [wantsByte, chunkResult_isWaiting, decide_eq_true_iff] at hwants
      omega
    | stblk rs1 =>
      rw [wantsByte, stblkResult_isWaiting, decide_eq_true_iff] at hwants
      omega
    | encblk =>
      rw [wantsByte, encblkResult_isWaiting, decide_eq_true_iff] at hwants
      obtain ⟨-, hk, -, -, hfiller | ⟨-, hpad⟩⟩ := hwants <;> omega
    | _ => cases hwants

/-- Settles O46: the step lemma, and the demand before byte number 253 would be drawn. -/
theorem stepTakesOnlyBytesAskedFor : Obligations.StepTakesOnlyBytesAskedFor := by
  refine ⟨fun s t => step_keeps_drawsAskedFor, fun s c hs hc => ?_⟩
  by_contra hlong
  have hlt := drawn_lt_of_entReq (hs c hc 253 (by omega))
  rw [State.runningCtx, Option.getD_some, List.length_take] at hlt
  omega

/-! ### When a transaction answers BUSERR -/

/-- The unmapped words of the window (10 R34, 20 R103 (b)). -/
theorem locOfIndex_eq_none_iff (n : Nat) :
    locOfIndex n = none ↔ (8 ≤ n ∧ n < 0x40) ∨ (0xE0 ≤ n ∧ n < 0x100) ∨ 0x300 ≤ n := by
  simp only [locOfIndex, ite_eq_iff, reduceCtorEq, and_true, and_false, false_or]
  omega

/-- The accesses that reach no location: not 32 bits at a multiple of 4, or in an unmapped range (20 R102, R103). -/
theorem locate_eq_none_iff (a : BitVec 12) (size : Nat) :
    locate a size = none ↔ size ≠ 4 ∨ a.toNat % 4 ≠ 0 ∨ (0x020 ≤ a.toNat ∧ a.toNat < 0x100) ∨
      (0x380 ≤ a.toNat ∧ a.toNat < 0x400) ∨ 0xC00 ≤ a.toNat := by
  unfold locate
  split_ifs with hlegal
  · rw [locOfIndex_eq_none_iff]
    omega
  · simp only [true_iff]
    omega

/-- The busy-blocked locations by address: from IBUF_LEN on, all but PARAM (10 R34, 20 R107). -/
theorem busyBlocked_iff_addr (l : Loc) : l.busyBlocked = true ↔ 0x014 ≤ l.addr.toNat ∧ l.addr.toNat ≠ 0x01C := by
  cases l with
  | ibuf j | obuf j | kn j | ke j | kd j | w i j =>
    simp only [Loc.busyBlocked, Loc.addr, BitVec.toNat_ofNat, true_iff]
    omega
  | _ => decide

/-- The read-only locations by address: ID, ERR, OBUF_LEN, PARAM, and OBUF up to KD (10 R34, 20 R103 (c)). -/
theorem readOnly_iff_addr (l : Loc) : l.writable = false ↔ l.addr.toNat = 0x000 ∨ l.addr.toNat = 0x00C ∨
    l.addr.toNat = 0x018 ∨ l.addr.toNat = 0x01C ∨ (0x180 ≤ l.addr.toNat ∧ l.addr.toNat < 0x380) := by
  cases l with
  | ibuf j | w i j =>
    simp only [Loc.writable, Loc.addr, BitVec.toNat_ofNat, reduceCtorEq, false_iff]
    omega
  | obuf j | kn j | ke j | kd j =>
    simp only [Loc.writable, Loc.addr, BitVec.toNat_ofNat, true_iff]
    omega
  | _ => decide

/-- A read answers BUSERR when it reaches no location, or one that is busy-blocked now (20 R103). -/
theorem busRead_err_iff (a : BitVec 12) (size : Nat) (s : State) : (busRead a size s).err = true ↔
    locate a size = none ∨ (s.status.busy = true ∧ ∃ l, locate a size = some l ∧ l.busyBlocked = true) := by
  cases hl : locate a size with
  | none => simp [busRead, hl]
  | some l =>
    cases hbusy : s.status.busy <;> cases hblocked : l.busyBlocked <;>
      simp [busRead, hl, Loc.accessible, hbusy, hblocked]

/-- A write answers BUSERR when a read of the address would, or when it reaches a read-only location (20 R103). -/
theorem writeStep_err_iff (a : BitVec 12) (size : Nat) (v : Word) (s : State) :
    (writeStep a size v s).resp = some { err := true, rdata := none } ↔
      (busRead a size s).err = true ∨ ∃ l, locate a size = some l ∧ l.writable = false := by
  cases hl : locate a size with
  | none => simp [writeStep, writeTarget, busRead, hl]
  | some l =>
    cases hacc : l.accessible s <;> cases hw : l.writable <;> simp [writeStep, writeTarget, busRead, hl, hacc, hw]

/-- Settles O47: the locations an access can reach, by address. -/
theorem busErrorConditions : Obligations.BusErrorConditions := by
  intro s a size v
  rw [writeStep_err_iff, busRead_err_iff]
  cases hl : locate a size with
  | none =>
    have hnone := (locate_eq_none_iff a size).mp hl
    simp only [true_or, true_iff]
    tauto
  | some l =>
    have hsome := mt (locate_eq_none_iff a size).mpr (by simp [hl])
    obtain ⟨-, rfl⟩ := locate_eq_some_iff.mp hl
    simp only [reduceCtorEq, false_or, Option.some.injEq, exists_eq_left', busyBlocked_iff_addr, readOnly_iff_addr]
    cases s.status.busy with
    | false => simp only [Bool.false_eq_true, false_and, or_false, false_iff, and_true]; omega
    | true => simp only [true_and, and_true]; omega

/-! ### What a read and a refused write leave -/

/-- A read answered BUSERR returns the word 0 (20 R108). -/
theorem busRead_err_rdata {a : BitVec 12} {size : Nat} {s : State} (h : (busRead a size s).err = true) :
    (busRead a size s).rdata = some 0#32 := by
  unfold busRead at h ⊢
  cases hl : locate a size with
  | none => rfl
  | some l => cases hacc : l.accessible s <;> simp_all

/-- Settles O48: a read's answer does not depend on the pending events, and a write answered BUSERR has no effect. -/
theorem readsAndBusErrorsChangeNothing : Obligations.ReadsAndBusErrorsChangeNothing := by
  intro s a size v rest
  refine ⟨fun hin => ⟨step_cons hin, busRead_err_rdata⟩, fun hin t hstep hrefused => ?_⟩
  rw [step_cons hin] at hstep
  cases hstep
  rcases writeStep_cases a size v { s with inputs := rest } with ⟨l, -, -, -, hok⟩ | hbuserr
  · simp [hok] at hrefused
  · rw [hbuserr]; rfl

/-! ### The windows as big-endian images -/

/-- The bytes of 32 words, word for word and lane for lane, are in index order (10 R40, 20 R104). -/
theorem flatMap_laneIndex (f : Fin 128 → Byte) :
    (List.finRange 32).flatMap (fun j => (List.finRange 4).map (fun n => f (laneIndex j n))) = List.ofFn f := by
  rw [List.ofFn_mul' (m := 4) (n := 32) f]
  simp only [List.flatMap, List.ofFn_eq_map]
  rfl

/-- The bytes of a buffer in index order. -/
theorem buffer_toList (b : Vector Byte 128) : b.toList = List.ofFn (fun k : Fin 128 => b[k.val]) := by
  apply List.ext_getElem
  · rw [Vector.length_toList, List.length_ofFn]
  · intro k h1 h2
    rw [Vector.getElem_toList, List.getElem_ofFn]

/-- BE_L by index: byte k has weight 256^(L-1-k) (00 R9). -/
theorem beBytes_eq_ofFn (L v : Nat) :
    beBytes L v = List.ofFn (fun k : Fin L => BitVec.ofNat 8 (v / 256 ^ (L - 1 - k.val))) := by
  apply List.ext_getElem
  · simp
  · intro k h1 h2
    apply BitVec.eq_of_toNat_eq
    rw [beBytes_getElem, List.getElem_ofFn, BitVec.toNat_ofNat]

/-- Lane n of word j of a wide value is byte 4 j + n of BE_128 of it (20 R104, R105). -/
theorem lane_wideWord (v : Wide) (j : Fin 32) (n : Fin 4) :
    lane (wideWord v j) n = BitVec.ofNat 8 (v.toNat / 256 ^ (128 - 1 - (laneIndex j n).val)) := by
  have hbit : 8 * (128 - 1 - (laneIndex j n).val) = 992 - 32 * j.val + (24 - 8 * n.val) := by
    simp only [laneIndex]
    omega
  have hpow : 256 ^ (128 - 1 - (laneIndex j n).val) = 2 ^ (992 - 32 * j.val + (24 - 8 * n.val)) := by
    rw [← hbit, pow_mul]
    rfl
  apply BitVec.eq_of_getLsbD_eq
  intro k hk
  rw [hpow, lane, BitVec.getLsbD_extractLsb', getLsbD_wideWord v j (by omega), BitVec.getLsbD_ofNat,
    Nat.testBit_div_two_pow, BitVec.testBit_toNat]
  congr 2
  omega

/-- Lane n of word j of a buffer is its byte 4 j + n (10 R40). -/
theorem lane_bufWord (b : Vector Byte 128) (j : Fin 32) (n : Fin 4) :
    lane (bufWord b j) n = b[(laneIndex j n).val] := by
  have hbyte (k : Fin 128) : b[k.val].toNat < 256 := b[k.val].isLt
  have h0 := hbyte (laneIndex j 0)
  have h1 := hbyte (laneIndex j 1)
  have h2 := hbyte (laneIndex j 2)
  have h3 := hbyte (laneIndex j 3)
  apply BitVec.eq_of_toNat_eq
  rw [lane, BitVec.extractLsb'_toNat, Nat.shiftRight_eq_div_pow, bufWord]
  simp only [toNat_append_byte]
  match n with
  | 0 => change _ / 2 ^ 24 % 2 ^ 8 = _; omega
  | 1 => change _ / 2 ^ 16 % 2 ^ 8 = _; omega
  | 2 => change _ / 2 ^ 8 % 2 ^ 8 = _; omega
  | 3 => change _ / 2 ^ 0 % 2 ^ 8 = _; omega

/-- Byte 4 j + n of a buffer with one word replaced (10 R40). -/
theorem setBufWord_laneIndex (b : Vector Byte 128) (i j : Fin 32) (x : Word) (n : Fin 4) :
    (setBufWord b i x)[(laneIndex j n).val] = if j = i then lane x n else b[(laneIndex j n).val] := by
  have hword : (laneIndex j n).val / 4 = j.val := by simp only [laneIndex]; omega
  have hlane : (laneIndex j n).val % 4 = n.val := by simp only [laneIndex]; omega
  rw [setBufWord_get, hword, hlane, lane]
  simp only [Fin.ext_iff]

/-- A copy of the words of a list into a buffer's window: those words are replaced and the others kept (20 R106). -/
theorem foldl_setBufWord_laneIndex (f : Fin 32 → Word) (js : List (Fin 32)) (j : Fin 32) (n : Fin 4) :
    ∀ b : Vector Byte 128, (js.foldl (fun b i => setBufWord b i (f i)) b)[(laneIndex j n).val] =
      if j ∈ js then lane (f j) n else b[(laneIndex j n).val] := by
  induction js with
  | nil => simp
  | cons i js ih =>
    intro b
    rw [List.foldl_cons, ih, setBufWord_laneIndex]
    by_cases hmem : j ∈ js
    · simp [hmem]
    · by_cases hji : j = i <;> simp [hmem, hji]

/-- The window of a wide value reads as BE_128 of it (20 R106). -/
theorem wideWindow_eq_beBytes (v : Wide) :
    (List.finRange 32).flatMap (fun j => (List.finRange 4).map (fun n => lane (wideWord v j) n)) =
      beBytes 128 v.toNat := by
  simp only [lane_wideWord]
  rw [flatMap_laneIndex (fun k => BitVec.ofNat 8 (v.toNat / 256 ^ (128 - 1 - k.val))), beBytes_eq_ofFn]

/-- The window of a buffer reads as its bytes in index order (20 R106). -/
theorem bufferWindow_eq_toList (b : Vector Byte 128) :
    (List.finRange 32).flatMap (fun j => (List.finRange 4).map (fun n => lane (bufWord b j) n)) = b.toList := by
  simp only [lane_bufWord]
  rw [flatMap_laneIndex (fun k => b[k.val]), buffer_toList]

/-- Settles O54: lane by lane, a copied buffer holds the words of the wide value, whose window is BE_128 of it. -/
theorem windowsAreBigEndianImages : Obligations.WindowsAreBigEndianImages := by
  refine ⟨wideWindow_eq_beBytes, bufferWindow_eq_toList, fun v b => ?_⟩
  rw [← bufferWindow_eq_toList, ← wideWindow_eq_beBytes]
  simp only [lane_bufWord, foldl_setBufWord_laneIndex, List.mem_finRange, if_true]

end Sys2Proof.Machine

/-!
PROOFS of the statements about the encoding (30_encoding.md): decoder and encoder are inverse, the words that are illegal,
and what the host's loads and reads of a wide register, of the keys and of the input buffer give.
-/
namespace Sys2Proof

/-! ### The decoder on encoded words -/

/-- Every command has the shape of a row of the opcode map. -/
theorem encodingShape : ∀ i : Instr, Laws.EncodingShape.Statement i
  | .nop => Laws.EncodingShape.nop
  | .modexp rd rs1 rs2 rs3 => Laws.EncodingShape.modexp rd rs1 rs2 rs3
  | .egcd rd rs1 rs2 => Laws.EncodingShape.egcd rd rs1 rs2
  | .modinv rd rs1 rs2 => Laws.EncodingShape.modinv rd rs1 rs2
  | .keygen rs1 rs2 rs3 => Laws.EncodingShape.keygen rs1 rs2 rs3
  | .keyload rs1 rs2 rs3 => Laws.EncodingShape.keyload rs1 rs2 rs3
  | .keyclr => Laws.EncodingShape.keyclr
  | .chunk => Laws.EncodingShape.chunk
  | .unchunk rs1 => Laws.EncodingShape.unchunk rs1
  | .ldbuf rd => Laws.EncodingShape.ldbuf rd
  | .stblk rs1 => Laws.EncodingShape.stblk rs1
  | .encblk => Laws.EncodingShape.encblk
  | .decblk => Laws.EncodingShape.decblk

/-- Settles O1: the word of a command fits its row, and the fields of the word are the command's operands. -/
theorem decodeOfEncodeIsTheCommand : Obligations.DecodeOfEncodeIsTheCommand := by
  intro i hwf
  obtain ⟨⟨r, hr, hfits, hbuild⟩, -⟩ := encodingShape i
  simp only [decodeWord_of_fits hr hfits, hbuild, hwf, if_true]

/-! ### The words that decode -/

/-- A register field is 0 when its four bits are (30 R152). -/
theorem regField_eq_zero_iff (w : Word) (lo : Nat) : regField w lo = 0 ↔ w.extractLsb' lo 4 = 0#4 :=
  ⟨fun h => BitVec.toFin_inj.mp h, fun h => congrArg BitVec.toFin h⟩

/-- The row of a command fits the words of its opcode whose unused fields and bits 7:0 are 0 (30 R156, R158). -/
theorem rowOfFields_fits_iff (x : Op × Byte × Bool × Bool × Bool × Bool) (w : Word) : (rowOfFields x).fits w = true ↔
    opcodeField w = x.2.1 ∧ (x.2.2.1 = false → rdField w = 0) ∧ (x.2.2.2.1 = false → rs1Field w = 0) ∧
      (x.2.2.2.2.1 = false → rs2Field w = 0) ∧ (x.2.2.2.2.2 = false → rs3Field w = 0) ∧ w.extractLsb' 0 8 = 0#8 := by
  simp only [rdField, rs1Field, rs2Field, rs3Field, regField_eq_zero_iff]
  exact fits_iff rfl rfl w

/-- The word a row's command is encoded to: the fields the row uses, and 0 in the others (30 R171). -/
theorem encode_buildInstr {x : Op × Byte × Bool × Bool × Bool × Bool} (hx : x ∈ fieldTable) (rd rs1 rs2 rs3 : WReg) :
    encode (buildInstr x.1 rd rs1 rs2 rs3) = packWord x.2.1 (if x.2.2.1 then rd else 0) (if x.2.2.2.1 then rs1 else 0)
      (if x.2.2.2.2.1 then rs2 else 0) (if x.2.2.2.2.2 then rs3 else 0) := by
  fin_cases hx <;> rfl

/-- A word is packed from its opcode and register fields when its bits 7:0 are 0 (30 R151). -/
theorem packWord_self {w : Word} (h : w.extractLsb' 0 8 = 0#8) :
    packWord (opcodeField w) (rdField w) (rs1Field w) (rs2Field w) (rs3Field w) = w := by
  have hself := joinFields_self w
  rwa [h] at hself

/-- A word a row fits is the encoding of the row's command with the word's fields (30 R155). -/
theorem encode_of_fits {r : Row} (hr : r ∈ opcodeMap) {w : Word} (h : r.fits w = true) :
    encode (buildInstr r.op (rdField w) (rs1Field w) (rs2Field w) (rs3Field w)) = w := by
  rw [opcodeMap_eq, List.mem_map] at hr
  obtain ⟨x, hx, rfl⟩ := hr
  obtain ⟨hop, h1, h2, h3, h4, hlow⟩ := (rowOfFields_fits_iff x w).mp h
  have hused {u : Bool} {f : WReg} (hf : u = false → f = 0) : (if u then f else 0) = f := by
    cases u with
    | true => rfl
    | false => exact (hf rfl).symm
  calc encode (buildInstr x.1 (rdField w) (rs1Field w) (rs2Field w) (rs3Field w))
      = packWord (opcodeField w) (rdField w) (rs1Field w) (rs2Field w) (rs3Field w) := by
        rw [encode_buildInstr hx, hused h1, hused h2, hused h3, hused h4, hop]
    _ = w := packWord_self hlow

/-- A word that decodes to a command fits a row, and the command is that row's with the word's fields (30 R158). -/
theorem exists_row_of_command {w : Word} {i : Instr} (h : decodeWord w = .command i) : ∃ r ∈ opcodeMap,
    r.fits w = true ∧ i = buildInstr r.op (rdField w) (rs1Field w) (rs2Field w) (rs3Field w) ∧ i.wf = true := by
  by_cases hfits : ∃ r ∈ opcodeMap, r.fits w = true
  · obtain ⟨r, hr, hfit⟩ := hfits
    rw [decodeWord_of_fits hr hfit] at h
    dsimp only at h
    split at h
    · next hwf =>
      cases h
      exact ⟨r, hr, hfit, rfl, hwf⟩
    · cases h
  · rw [decodeWord_of_none (by simpa using hfits)] at h
    cases h

/-- Settles O2: the word fits a row, whose command is encoded to the word. -/
theorem decodedWordIsItsEncoding : Obligations.DecodedWordIsItsEncoding := by
  intro w i h
  obtain ⟨r, hr, hfit, rfl, hwf⟩ := exists_row_of_command h
  exact ⟨hwf, encode_of_fits hr hfit⟩

/-! ### Illegal words -/

/-- The opcode of a command's row. -/
theorem opcodeField_rowOfFields (x : Op × Byte × Bool × Bool × Bool × Bool) :
    opcodeField (rowOfFields x).word = x.2.1 := (joinFields_fields _ _ _ _ _ _).1

/-- A word of a row's opcode that the row does not fit is illegal for its unused bits (30 R156). -/
theorem decodeWord_of_not_fits {r : Row} (hr : r ∈ opcodeMap) {w : Word} (hop : opcodeField w = opcodeField r.word)
    (h : r.fits w = false) : decodeWord w = .illegal .nonzeroUnused := by
  have hnone : ∀ r' ∈ opcodeMap, r'.fits w = false := by
    intro r' hr'
    by_contra hfit
    have hsame : ∀ a ∈ opcodeMap, ∀ b ∈ opcodeMap, opcodeField a.word = opcodeField b.word → a = b := by decide
    rw [Bool.not_eq_false] at hfit
    rw [hsame r hr r' hr' (hop.symm.trans (opcodeField_of_fits hr' hfit)), hfit] at h
    cases h
  have hany : opcodeMap.any (fun r => opcodeField r.word == opcodeField w) = true :=
    List.any_eq_true.mpr ⟨r, hr, beq_iff_eq.mpr hop.symm⟩
  rw [decodeWord_of_none hnone, illegalReason, if_pos hany]

/-- A word whose opcode stands in no row is illegal for its opcode (30 R157). -/
theorem decodeWord_of_reserved {w : Word} (h : ∀ r ∈ opcodeMap, opcodeField r.word ≠ opcodeField w) :
    decodeWord w = .illegal .reservedOpcode := by
  have hnone : ∀ r ∈ opcodeMap, r.fits w = false := fun r hr =>
    Bool.eq_false_iff.mpr fun hfit => h r hr (opcodeField_of_fits hr hfit).symm
  rw [decodeWord_of_none hnone, illegalReason, if_neg (by simpa using h)]

/-- Settles O3: the row of the word's opcode does not fit the word. -/
theorem nonzeroUnusedFieldIsIllegal : Obligations.NonzeroUnusedFieldIsIllegal := by
  intro row hrow w hop hbad
  obtain ⟨x, hx, rfl⟩ : ∃ x ∈ fieldTable, x.2 = row := List.mem_map.mp hrow
  have hr : rowOfFields x ∈ opcodeMap := by rw [opcodeMap_eq]; exact List.mem_map_of_mem hx
  refine decodeWord_of_not_fits hr (hop.trans (opcodeField_rowOfFields x).symm) (Bool.eq_false_iff.mpr fun hfit => ?_)
  obtain ⟨-, h1, h2, h3, h4, hlow⟩ := (rowOfFields_fits_iff x w).mp hfit
  rcases hbad with hne | ⟨hu, hne⟩ | ⟨hu, hne⟩ | ⟨hu, hne⟩ | ⟨hu, hne⟩
  · exact hne hlow
  · exact hne (h1 hu)
  · exact hne (h2 hu)
  · exact hne (h3 hu)
  · exact hne (h4 hu)

/-- Settles O4: no row's opcode is in a reserved range, and a word that decodes to NOP is NOP's encoding. -/
theorem reservedOpcodeIsIllegal : Obligations.ReservedOpcodeIsIllegal := by
  refine ⟨fun w hw => decodeWord_of_reserved fun r hr hop => ?_, fun w h => (decodedWordIsItsEncoding w .nop h).2.symm⟩
  have hdefined : ∀ r ∈ opcodeMap, (opcodeField r.word).toNat ≤ 0x06 ∨
      (0x10 ≤ (opcodeField r.word).toNat ∧ (opcodeField r.word).toNat ≤ 0x13) ∨
      (0x20 ≤ (opcodeField r.word).toNat ∧ (opcodeField r.word).toNat ≤ 0x21) := by decide
  have := hdefined r hr
  rw [hop] at this
  omega

/-- Settles O5: the first five words are encodings; the sixth fits EGCD's row, and rd = 14 is above 13. -/
theorem writtenOutWordsDecode : Obligations.WrittenOutWordsDecode :=
  ⟨decodeOfEncodeIsTheCommand (.modexp 3 0 1 2) rfl, decodeOfEncodeIsTheCommand (.egcd 4 0 1) rfl,
    decodeOfEncodeIsTheCommand (.keyload 0 1 2) rfl, decodeOfEncodeIsTheCommand (.ldbuf 5) rfl,
    decodeOfEncodeIsTheCommand .decblk rfl, by decide⟩

end Sys2Proof

namespace Sys2Proof.Machine

/-! ### Writes of a window, word for word -/

/-- A register written twice keeps the second value. -/
theorem setW_setW (s : State) (i : WReg) (u v : Wide) : (s.setW i u).setW i v = s.setW i v := by
  simp [State.setW]

/-- A register written with its own value. -/
theorem setW_getW (s : State) (i : WReg) : s.setW i (s.getW i) = s := by
  simp [State.setW, State.getW]

/-- Word writes of W[i] on an idle engine, in order: the register with those words replaced, and a bus answer (10 R32). -/
theorem foldl_wr_w (i : WReg) (f : Fin 32 → Word) (js : List (Fin 32)) : ∀ r : Rig, r.engine.status.busy = false →
    ∃ a, (js.foldl (fun r j => r.wr (Loc.w i j).addr (f j)) r).engine =
      { r.engine.setW i (js.foldl (fun u j => setWideWord u j (f j)) (r.engine.getW i)) with resp := a } := by
  induction js with
  | nil =>
    intro r _
    exact ⟨r.engine.resp, by rw [List.foldl_nil, List.foldl_nil, setW_getW]⟩
  | cons j js ih =>
    intro r hidle
    have hw : (r.wr (Loc.w i j).addr (f j)).engine =
        (r.engine.setW i (setWideWord (r.engine.getW i) j (f j))).answer { err := false, rdata := none } := by
      rw [wr_engine, writeStep_addr (accessible_of_idle hidle _) rfl, writeLoc]
    obtain ⟨a, ha⟩ := ih (r.wr (Loc.w i j).addr (f j)) (by rw [hw]; exact hidle)
    refine ⟨a, ?_⟩
    rw [List.foldl_cons, List.foldl_cons, ha, hw, answer_getW, getW_setW_same, State.answer]
    exact congrArg (fun s : State => { s with resp := a }) (setW_setW r.engine i _ _)

/-- Word writes of IBUF on an idle engine, in order: the buffer with those words replaced, and a bus answer (10 R40). -/
theorem foldl_wr_ibuf (f : Fin 32 → Word) (js : List (Fin 32)) : ∀ r : Rig, r.engine.status.busy = false →
    ∃ a, (js.foldl (fun r j => r.wr (Loc.ibuf j).addr (f j)) r).engine =
      { r.engine with ibuf := js.foldl (fun b j => setBufWord b j (f j)) r.engine.ibuf, resp := a } := by
  induction js with
  | nil => intro r _; exact ⟨r.engine.resp, rfl⟩
  | cons j js ih =>
    intro r hidle
    have hw : (r.wr (Loc.ibuf j).addr (f j)).engine =
        { r.engine with
          ibuf := setBufWord r.engine.ibuf j (f j)
          resp := some { err := false, rdata := none } } := by
      rw [wr_engine, writeStep_addr (accessible_of_idle hidle _) rfl]
      rfl
    obtain ⟨a, ha⟩ := ih (r.wr (Loc.ibuf j).addr (f j)) (by rw [hw]; exact hidle)
    exact ⟨a, by rw [List.foldl_cons, ha, hw, List.foldl_cons]⟩

/-! ### Wide values through their words -/

/-- Word j of a wide value with the words of a list replaced (10 R32). -/
theorem wideWord_foldl_setWideWord (f : Fin 32 → Word) (js : List (Fin 32)) (j : Fin 32) :
    ∀ u : Wide, wideWord (js.foldl (fun u i => setWideWord u i (f i)) u) j = if j ∈ js then f j else wideWord u j := by
  induction js with
  | nil => simp
  | cons i js ih =>
    intro u
    rw [List.foldl_cons, ih]
    by_cases hmem : j ∈ js
    · simp [hmem]
    · by_cases hji : j = i
      · subst hji; simp [wideWord_setWideWord_same]
      · simp [hmem, hji, wideWord_setWideWord_ne]

/-- The 32 words of a wide value, written into any other, make it that value (20 R105). -/
theorem foldl_setWideWord_wideWord (u v : Wide) :
    (List.finRange 32).foldl (fun u j => setWideWord u j (wideWord v j)) u = v :=
  wide_ext fun j => by rw [wideWord_foldl_setWideWord, if_pos (List.mem_finRange j)]

/-- LOADW leaves the value in its register, and nothing else but a bus answer (30 R174). -/
theorem loadW_engine {r : Rig} (hidle : r.engine.status.busy = false) (i : WReg) (v : Wide) :
    ∃ a, (r.loadW i v).engine = { r.engine.setW i v with resp := a } := by
  obtain ⟨a, ha⟩ := foldl_wr_w i (wideWord v) (List.finRange 32) r hidle
  exact ⟨a, by rw [Rig.loadW, ha, foldl_setWideWord_wideWord]⟩

/-! ### Reads of a window -/

/-- What a location holds does not depend on the bus answer (10 R35). -/
theorem readLoc_answer (s : State) (x : Response) : readLoc (s.answer x) = readLoc s := by
  funext l
  cases l <;> rfl

/-- Reads of an idle engine's locations, in order, return what they hold (20 R100). -/
theorem rdAll_words (ls : List Loc) : ∀ r : Rig, r.engine.status.busy = false →
    (r.rdAll (ls.map Loc.addr)).1 = ls.map (readLoc r.engine) := by
  induction ls with
  | nil => intro r _; rfl
  | cons l ls ih =>
    intro r hidle
    simp only [List.map_cons, Rig.rdAll, rd_word (accessible_of_idle hidle l), ih (r.rd l.addr).2 hidle, rd_engine,
      readLoc_answer]

/-- The bytes of a bus word, most significant first, have its value (20 R104). -/
theorem beValue_lanes (x : Word) : beValue ((List.finRange 4).map (lane x)) = x.toNat := by
  have hlane (n : Fin 4) : (lane x n).toNat = x.toNat / 2 ^ (24 - 8 * n.val) % 2 ^ 8 := by
    rw [lane, BitVec.extractLsb'_toNat, Nat.shiftRight_eq_div_pow]
  have hlanes : (List.finRange 4).map (lane x) = [lane x 0, lane x 1, lane x 2, lane x 3] := rfl
  have hx := x.isLt
  rw [hlanes]
  norm_num [beValue, hlane]
  omega

/-- Words read most significant first have the value of their bytes (20 R105). -/
theorem assemble_eq_beValue (ws : List Word) :
    assemble ws = beValue (ws.flatMap fun x => (List.finRange 4).map (lane x)) := by
  induction ws using List.reverseRecOn with
  | nil => rfl
  | append_singleton ws x ih =>
    have hfold : assemble (ws ++ [x]) = assemble ws * 2 ^ 32 + x.toNat := by simp [assemble]
    have hlen : ((List.finRange 4).map (lane x)).length = 4 := rfl
    rw [hfold, List.flatMap_append, beValue_append, ← ih, List.flatMap_singleton, beValue_lanes, hlen,
      show (256 : Nat) ^ 4 = 2 ^ 32 by norm_num]

/-- The 32 words of a wide value assemble to it (20 R105). -/
theorem assemble_wideWords (v : Wide) : assemble ((List.finRange 32).map (wideWord v)) = v.toNat := by
  have hv : v.toNat < 256 ^ 128 := naturalLength_le_iff.mp (naturalLength_le_of_lt v.isLt)
  rw [assemble_eq_beValue, List.flatMap_map, wideWindow_eq_beBytes, beValue_beBytes 128 _ hv]

/-- Reads of a window that shows a wide value return the value (20 R105). -/
theorem assemble_rdAll {r : Rig} (hidle : r.engine.status.busy = false) {window : Fin 32 → Loc} {v : Wide}
    (h : ∀ j, readLoc r.engine (window j) = wideWord v j) :
    assemble (r.rdAll ((List.finRange 32).map fun j => (window j).addr)).1 = v.toNat := by
  have hwords := rdAll_words ((List.finRange 32).map window) r hidle
  rw [List.map_map, List.map_map] at hwords
  have hvalues : (List.finRange 32).map (readLoc r.engine ∘ window) = (List.finRange 32).map (wideWord v) :=
    List.map_congr_left fun j _ => h j
  exact (congrArg assemble (hwords.trans hvalues)).trans (assemble_wideWords v)

/-- READW of an idle engine returns the register (30 R174). -/
theorem readW_value {r : Rig} (hidle : r.engine.status.busy = false) (i : WReg) :
    (r.readW i).1 = r.engine.regValue i :=
  assemble_rdAll (window := Loc.w i) (v := r.engine.getW i) hidle fun _ => rfl

/-- Settles O55: the words LOADW writes make the register the value, and the words READW and READK read assemble to what
the registers hold. -/
theorem loadThenReadWideRegister : Obligations.LoadThenReadWideRegister := by
  intro r i v hidle
  obtain ⟨a, ha⟩ := loadW_engine hidle i v
  have hget (j : WReg) : (r.loadW i v).engine.getW j = (r.engine.setW i v).getW j := by rw [ha]; rfl
  have hidle' : (r.loadW i v).engine.status.busy = false := by rw [ha]; exact hidle
  have hi : (r.loadW i v).engine.getW i = v := (hget i).trans (getW_setW_same _ _ _)
  refine ⟨hi, fun j hj => (hget j).trans (getW_setW_ne _ _ _ _ hj), ?_, ?_, ?_, ?_⟩
  · rw [readW_value hidle', State.regValue, hi]
  · exact assemble_rdAll (window := Loc.kn) hidle fun _ => rfl
  · exact assemble_rdAll (window := Loc.ke) hidle fun _ => rfl
  · exact assemble_rdAll (window := Loc.kd) hidle fun _ => rfl

/-! ### LOADBUF -/

/-- A padded byte string is whole words (30 R175). -/
theorem padToWords_length (s : List Byte) : (padToWords s).length = 4 * ((s.length + 3) / 4) := by
  simp only [padToWords, zeroBytes, List.length_append, List.length_replicate]
  omega

/-- Padding keeps the bytes of the string (30 R175). -/
theorem padToWords_getElem (s : List Byte) {k : Nat} (hk : k < s.length) (h : k < (padToWords s).length) :
    (padToWords s)[k] = s[k] := List.getElem_append_left hk

/-- Lane n of a word with the value of four bytes is byte n (20 R104). -/
theorem lane_ofNat_beValue {t : List Byte} (ht : t.length = 4) (n : Fin 4) :
    lane (BitVec.ofNat 32 (beValue t)) n = t[n.val] := by
  have hlt : beValue t < 2 ^ 32 := by simpa [ht] using beValue_lt t
  have hlanes : (List.finRange 4).map (lane (BitVec.ofNat 32 (beValue t))) = t := by
    rw [← beBytes_beValue (List.map _ _), beValue_lanes, BitVec.toNat_ofNat, Nat.mod_eq_of_lt hlt, List.length_map,
      List.length_finRange, ← ht, beBytes_beValue]
  simpa using List.getElem_of_eq hlanes (i := n.val) (by simp)

/-- Lane n of word j of a byte string is its byte 4 j + n (30 R175). -/
theorem lane_byteWord {t : List Byte} {j : Nat} (h : 4 * j + 4 ≤ t.length) (n : Fin 4) :
    lane (byteWord t j) n = t[4 * j + n.val] := by
  rw [byteWord, lane_ofNat_beValue (by simp; omega), List.getElem_take, List.getElem_drop]

/-- The first n of 32 words, as indices of a window. -/
theorem exists_window_indices {n : Nat} (hn : n ≤ 32) :
    ∃ js : List (Fin 32), (∀ j, j ∈ js ↔ j.val < n) ∧ js.map Fin.val = List.range n := by
  refine ⟨(List.finRange n).map (Fin.castLE hn), fun j => ?_, ?_⟩
  · rw [List.mem_map]
    constructor
    · rintro ⟨i, -, rfl⟩
      exact i.isLt
    · intro hj
      exact ⟨⟨j.val, hj⟩, List.mem_finRange _, rfl⟩
  · rw [List.map_map, ← List.map_coe_finRange_eq_range]
    rfl

/-- LOADBUF writes the words that hold the string, then its length, and nothing else but the bus answer (30 R175). -/
theorem loadBuf_engine {r : Rig} (hidle : r.engine.status.busy = false) {s : List Byte} (hs : s.length ≤ 128) :
    ∃ js : List (Fin 32), (∀ j, j ∈ js ↔ 4 * j.val < s.length) ∧
      (r.loadBuf s).engine = { r.engine with
        ibuf := js.foldl (fun b j => setBufWord b j (byteWord (padToWords s) j.val)) r.engine.ibuf
        ibufLen := BitVec.ofNat 8 s.length
        resp := some { err := false, rdata := none } } := by
  have hpad := padToWords_length s
  obtain ⟨js, hjs, hrange⟩ := exists_window_indices (n := (padToWords s).length / 4) (by omega)
  obtain ⟨a, ha⟩ := foldl_wr_ibuf (fun j => byteWord (padToWords s) j.val) js r hidle
  refine ⟨js, fun j => ?_, ?_⟩
  · rw [hjs]
    omega
  · have hlen : (BitVec.ofNat 32 s.length).truncate 8 = BitVec.ofNat 8 s.length :=
      BitVec.setWidth_ofNat_of_le (by norm_num) _
    simp only [Rig.loadBuf]
    rw [← hrange, List.foldl_map, wr_engine, writeStep_addr (accessible_of_idle (by exact ha ▸ hidle) _) rfl, writeLoc,
      hlen]
    exact congrArg (fun t : State => State.answer _ { t with ibufLen := BitVec.ofNat 8 s.length }) ha

/-- Settles O56: byte k of the string is lane k % 4 of the word k / 4 that LOADBUF writes. -/
theorem loadBufferFillsTheInputBuffer : Obligations.LoadBufferFillsTheInputBuffer := by
  intro r s hidle hs
  obtain ⟨js, hjs, hengine⟩ := loadBuf_engine hidle hs
  rw [hengine]
  constructor
  · apply List.ext_getElem
    · simpa using hs
    · intro k h1 h2
      have hk : 4 * (k / 4) + k % 4 = k := by omega
      have hlane := foldl_setBufWord_laneIndex (fun j => byteWord (padToWords s) j.val) js ⟨k / 4, by omega⟩
        ⟨k % 4, by omega⟩ r.engine.ibuf
      rw [if_pos ((hjs _).mpr (by simp; omega)), lane_byteWord (by rw [padToWords_length]; simp; omega)] at hlane
      simp only [laneIndex, hk] at hlane
      rw [List.getElem_take, Vector.getElem_toList, hlane, padToWords_getElem]
  · rw [BitVec.toNat_ofNat]
    omega

end Sys2Proof.Machine

/-!
PROOFS of the statements about modular arithmetic (40_modular_arithmetic.md): what egcd computes, and what MODEXP, EGCD
and MODINV write.
-/
namespace Sys2Proof.Machine

/-! ### The extended Euclidean algorithm -/

/-- Settles O18: the recursion, gcd, Bézout identity and bounds of egcd, each by its own law. -/
theorem egcdRecursionIdentityAndBounds : Obligations.EgcdRecursionIdentityAndBounds := by
  intro a b
  refine ⟨?_, fun ha => ⟨Nat.mod_lt b (Nat.pos_of_ne_zero ha), egcd_rec ha b⟩, egcd_bezout a b, egcd_gcd a b,
    egcd_bounds a a b le_rfl, ?_, fun ha hb => (egcd_small ha hb).2⟩
  · rintro rfl
    exact egcd_zero b
  · rintro rfl rfl
    rw [egcd_zero]

/-! ### A result in one wide register -/

/-- A success that writes one wide register: the register holds the result, and nothing else changes but the completion
(30 R161, 44 R403). -/
theorem exec_of_setW_success {i : Instr} {s : State} {rd : WReg} {v : Nat}
    (h : resultOf i s = .success (s.setW rd (toWide v))) (hv : v < 2 ^ 1024) :
    ∃ t, exec i s = .next t ∧ t.regValue rd = v ∧ (∀ j, j ≠ rd → t.getW j = s.getW j) ∧
      t = { s with w := t.w, status := { s.status with busy := false, done := true }, ctx := none } := by
  refine ⟨finish (s.setW rd (toWide v)), exec_of_success h, ?_, fun j hj => getW_setW_ne s rd j _ hj, rfl⟩
  rw [finish_regValue, regValue_setW, if_pos rfl, toWide_toNat hv]

/-! ### MODEXP -/

/-- MODEXP with a nonzero modulus succeeds with the remainder of the power (40 R201). -/
theorem resultOf_modexp_of_ne_zero {rs3 : WReg} {s : State} (h : s.regValue rs3 ≠ 0) (rd rs1 rs2 : WReg) :
    resultOf (.modexp rd rs1 rs2 rs3) s =
      .success (s.setW rd (toWide (s.regValue rs1 ^ s.regValue rs2 % s.regValue rs3))) := by
  rw [resultOf, modexpResult, if_neg h, modExp_eq_pow_mod]

/-- MODEXP with a zero modulus fails with ARG (40 R201). -/
theorem resultOf_modexp_of_eq_zero {rs3 : WReg} {s : State} (h : s.regValue rs3 = 0) (rd rs1 rs2 : WReg) :
    resultOf (.modexp rd rs1 rs2 rs3) s = .failure .arg := if_pos h

/-- Settles O17: the remainder is below the modulus, so it fits the register it is written to. -/
theorem modexpMeaning : Obligations.ModexpMeaning := by
  intro rd rs1 rs2 rs3 s
  refine ⟨fun hm => ?_, fun hm => exec_of_failure (resultOf_modexp_of_eq_zero hm rd rs1 rs2)⟩
  have hlt : s.regValue rs1 ^ s.regValue rs2 % s.regValue rs3 < s.regValue rs3 :=
    Nat.mod_lt _ (Nat.pos_of_ne_zero hm)
  obtain ⟨t, hexec, hval, hother, hframe⟩ := exec_of_setW_success
    (resultOf_modexp_of_ne_zero hm rd rs1 rs2) (hlt.trans (regValue_lt s rs3))
  exact ⟨t, hexec, hval, hval ▸ hlt, hother, hframe⟩

/-! ### EGCD -/

/-- The three destinations of EGCD are three registers (30 R154). -/
theorem egcdDests_distinct (rd : WReg) : rd ≠ rd + 1 ∧ rd ≠ rd + 2 ∧ rd + 1 ≠ rd + 2 := by
  revert rd
  decide

/-- What EGCD leaves in its destinations, for a triple that fits wide registers (40 R212). -/
theorem writeEgcd_regValue {r : Nat × Int × Int} (hg : r.1 < 2 ^ 1024) (hx : r.2.1.natAbs < 2 ^ 1024)
    (hy : r.2.2.natAbs < 2 ^ 1024) (rd : WReg) (s : State) :
    (writeEgcd rd r s).regValue rd = r.1 ∧ (writeEgcd rd r s).regValue (rd + 1) = r.2.1.natAbs ∧
      (writeEgcd rd r s).regValue (rd + 2) = r.2.2.natAbs := by
  obtain ⟨h01, h02, h12⟩ := egcdDests_distinct rd
  simp only [writeEgcd, egcdDests, mapStatus_regValue, regValue_setW, h01, h02, h12, if_true, if_false,
    toWide_toNat hg, toWide_toNat hx, toWide_toNat hy, and_self]

/-- EGCD with rd at most 13 succeeds (30 R154, 40 R212). -/
theorem resultOf_egcd_of_le {rd : WReg} (h : rd ≤ 13) (rs1 rs2 : WReg) (s : State) :
    resultOf (.egcd rd rs1 rs2) s = .success (writeEgcd rd (egcd (s.regValue rs1) (s.regValue rs2)) s) :=
  if_neg (not_lt.mpr h)

/-- Settles O19: g and both magnitudes are below 2^1024, so each destination holds its value exactly. -/
theorem egcdMeaning : Obligations.EgcdMeaning := by
  intro rd rs1 rs2 s hrd
  have hres := resultOf_egcd_of_le hrd rs1 rs2 s
  obtain ⟨hg, hx, hy⟩ := egcd_small (regValue_lt s rs1) (regValue_lt s rs2)
  obtain ⟨hvg, hvx, hvy⟩ := writeEgcd_regValue hg hx hy rd s
  refine ⟨_, exec_of_success hres, hvg, hvx, hvy, fun j h0 h1 h2 => ?_, rfl⟩
  exact success_keeps_w hres (by simp [wDests, h0, h1, h2])

/-! ### MODINV -/

/-- Without gcd 1 there is no inverse (40 R220). -/
theorem modInverse_none {a m : Nat} (h : Nat.gcd a m ≠ 1) : modInverse a m = none := by
  simp [modInverse, egcd_gcd, h]

/-- MODINV with an inverse succeeds with it (40 R221). -/
theorem resultOf_modinv_of_some {rs1 rs2 : WReg} {s : State} {d : Nat} (hm : s.regValue rs2 ≠ 0)
    (h : modInverse (s.regValue rs1) (s.regValue rs2) = some d) (rd : WReg) :
    resultOf (.modinv rd rs1 rs2) s = .success (s.setW rd (toWide d)) := by
  rw [resultOf, modinvResult, if_neg hm, h]

/-- MODINV without an inverse fails with NO_INVERSE (40 R221). -/
theorem resultOf_modinv_of_none {rs1 rs2 : WReg} {s : State} (hm : s.regValue rs2 ≠ 0)
    (h : modInverse (s.regValue rs1) (s.regValue rs2) = none) (rd : WReg) :
    resultOf (.modinv rd rs1 rs2) s = .failure .noInverse := by
  rw [resultOf, modinvResult, if_neg hm, h]

/-- MODINV with a zero modulus fails with ARG (40 R221). -/
theorem resultOf_modinv_of_eq_zero {rs2 : WReg} {s : State} (h : s.regValue rs2 = 0) (rd rs1 : WReg) :
    resultOf (.modinv rd rs1 rs2) s = .failure .arg := if_pos h

/-- Settles O20: the inverse in [0, m) exists exactly for gcd 1, and it fits the register it is written to. -/
theorem modinvMeaning : Obligations.ModinvMeaning := by
  intro rd rs1 rs2 s
  refine ⟨fun hm hgcd => ?_,
    fun hm hgcd => exec_of_failure (resultOf_modinv_of_none hm (modInverse_none hgcd) rd),
    fun hm => exec_of_failure (resultOf_modinv_of_eq_zero hm rd rs1)⟩
  obtain ⟨hsome, hlt, hinv⟩ := modInverse_some hm hgcd
  obtain ⟨t, hexec, hval, hother, hframe⟩ := exec_of_setW_success
    (resultOf_modinv_of_some hm hsome rd) (hlt.trans (regValue_lt s rs2))
  refine ⟨t, hexec, ?_, hval ▸ hlt, hval ▸ hinv, hother, hframe⟩
  rw [hval, Int.toNat_of_nonneg (Int.emod_nonneg _ (Int.natCast_ne_zero.mpr hm))]

end Sys2Proof.Machine

/-!
PROOFS of the statements about key management (41_key_management.md): what KEYGEN, KEYLOAD and KEYCLR install or clear,
how they fail, and that a generated key is an RSA key.
-/
namespace Sys2Proof.Machine

/-! ### The RSA identity -/

/-- Fermat: an exponent that is 1 modulo p - 1 leaves every number as it is modulo the prime p. -/
theorem pow_modEq_self_of_prime {p k : Nat} (hp : p.Prime) (hk : 1 ≤ k) (hdvd : p - 1 ∣ k - 1) (m : Nat) :
    m ^ k ≡ m [MOD p] := by
  have h := Int.ModEq.pow_eq_pow hp hdvd hk one_pos (m : Int)
  rw [pow_one] at h
  exact_mod_cast h

/-- The RSA identity: modulo two distinct primes an exponent that is 1 modulo (p-1)(q-1) leaves every number as it is,
coprime to the modulus or not (41 R256). -/
theorem pow_modEq_self_of_primes {p q k : Nat} (hp : p.Prime) (hq : q.Prime) (hne : p ≠ q)
    (hk : k ≡ 1 [MOD (p - 1) * (q - 1)]) (m : Nat) : m ^ k ≡ m [MOD p * q] := by
  have hpos : 1 ≤ k := by
    -- Exponent 0 would make (p-1)(q-1) = 1, that is p = q = 2.
    by_contra hzero
    obtain rfl : k = 0 := by omega
    have hone : (p - 1) * (q - 1) = 1 := Nat.dvd_one.mp ((Nat.modEq_iff_dvd' zero_le_one).mp hk)
    obtain ⟨hp1, hq1⟩ := mul_eq_one.mp hone
    omega
  have hdvd : (p - 1) * (q - 1) ∣ k - 1 := (Nat.modEq_iff_dvd' hpos).mp hk.symm
  have hmodp : m ^ k ≡ m [MOD p] := pow_modEq_self_of_prime hp hpos ((dvd_mul_right _ _).trans hdvd) m
  have hmodq : m ^ k ≡ m [MOD q] := pow_modEq_self_of_prime hq hpos ((dvd_mul_left _ _).trans hdvd) m
  exact (Nat.modEq_and_modEq_iff_modEq_mul ((Nat.coprime_primes hp hq).mpr hne)).mp ⟨hmodp, hmodq⟩

/-! ### KEYGEN -/

/-- A register's value, stored again, is the register. -/
@[simp] theorem toWide_regValue (s : State) (i : WReg) : toWide (s.regValue i) = s.getW i :=
  BitVec.eq_of_toNat_eq (toWide_toNat (regValue_lt s i))

/-- KEYGEN while a key is held fails with KEY_LOCKED (41 R251). -/
theorem resultOf_keygen_of_held {s : State} (h : s.status.keyValid = true) (rs1 rs2 rs3 : WReg) :
    resultOf (.keygen rs1 rs2 rs3) s = .failure .keyLocked := if_pos h

/-- KEYGEN with a prime below 2 or a modulus of more than 1024 bits fails with ARG (41 R252). -/
theorem resultOf_keygen_of_inadmissible {rs1 rs2 : WReg} {s : State} (hfree : s.status.keyValid = false)
    (h : s.regValue rs1 < 2 ∨ s.regValue rs2 < 2 ∨ 2 ^ 1024 ≤ s.regValue rs1 * s.regValue rs2) (rs3 : WReg) :
    resultOf (.keygen rs1 rs2 rs3) s = .failure .arg := by
  simp only [resultOf, keygenResult, hfree, Bool.false_eq_true, if_false]
  rcases or_assoc.mpr h with hsmall | hbig
  · rw [if_pos hsmall]
  · rw [if_pos hbig, ite_self]

section
variable {rs1 rs2 rs3 : WReg} {s : State} (hfree : s.status.keyValid = false) (hp : 2 ≤ s.regValue rs1)
  (hq : 2 ≤ s.regValue rs2) (hn : s.regValue rs1 * s.regValue rs2 < 2 ^ 1024)
include hfree hp hq hn

/-- KEYGEN on admissible primes fails with GENERATION when e has no inverse (41 R254). -/
theorem resultOf_keygen_of_none
    (h : modInverse (s.regValue rs3) ((s.regValue rs1 - 1) * (s.regValue rs2 - 1)) = none) :
    resultOf (.keygen rs1 rs2 rs3) s = .failure .generation := by
  simp only [resultOf, keygenResult, hfree, hp.not_gt, hq.not_gt, hn.not_ge, h, Bool.false_eq_true, or_self, if_false]

/-- KEYGEN on admissible primes succeeds with the triple when e has an inverse (41 R253). -/
theorem resultOf_keygen_of_some {d : Nat}
    (h : modInverse (s.regValue rs3) ((s.regValue rs1 - 1) * (s.regValue rs2 - 1)) = some d) :
    resultOf (.keygen rs1 rs2 rs3) s =
      .success (setKeys (toWide (s.regValue rs1 * s.regValue rs2)) (s.getW rs3) (toWide d) true s) := by
  simp only [resultOf, keygenResult, hfree, hp.not_gt, hq.not_gt, hn.not_ge, h, Bool.false_eq_true, or_self, if_false,
    toWide_regValue]

end

/-- Settles O21: n = p q fits a wide register by hypothesis, and d does because it is below (p-1)(q-1). -/
theorem keygenInstallsTheTriple : Obligations.KeygenInstallsTheTriple := by
  intro rs1 rs2 rs3 s hfree hp hq hn hgcd
  have ht : (s.regValue rs1 - 1) * (s.regValue rs2 - 1) ≠ 0 := Nat.mul_ne_zero (by omega) (by omega)
  obtain ⟨hsome, hlt, hinv⟩ := modInverse_some ht hgcd
  have hle : (s.regValue rs1 - 1) * (s.regValue rs2 - 1) ≤ s.regValue rs1 * s.regValue rs2 :=
    Nat.mul_le_mul (Nat.sub_le _ _) (Nat.sub_le _ _)
  have hd := toWide_toNat (hlt.trans (hle.trans_lt hn))
  have hres := resultOf_keygen_of_some hfree hp hq hn hsome
  refine ⟨_, exec_of_success hres, toWide_toNat hn, rfl, ?_, ?_, ?_, rfl⟩
  · rwa [finish_kd, setKeys_kd, hd]
  · rwa [finish_kd, setKeys_kd, hd]
  · rwa [finish_kd, setKeys_kd, hd]

/-- Settles O23: one result of KEYGEN per failure. -/
theorem keygenFailures : Obligations.KeygenFailures := by
  intro rs1 rs2 rs3 s
  exact ⟨fun hheld => exec_of_failure (resultOf_keygen_of_held hheld rs1 rs2 rs3),
    fun hfree hbad => exec_of_failure (resultOf_keygen_of_inadmissible hfree hbad rs3),
    fun hfree hp hq hn hgcd => exec_of_failure (resultOf_keygen_of_none hfree hp hq hn (modInverse_none hgcd))⟩

/-- A failure keeps KEY_VALID (60 R502). -/
@[simp] theorem failedWith_keyValid (s : State) (c : BitVec 8) :
    (s.failedWith c).status.keyValid = s.status.keyValid := rfl

/-- KEYGEN sets KEY_VALID only when p q fits a wide register and e is coprime to (p-1)(q-1): it fails otherwise
(41 R252, R254). -/
theorem keygen_operands_of_keyValid {rs1 rs2 rs3 : WReg} {s t : State} (hfree : s.status.keyValid = false)
    (hp : 2 ≤ s.regValue rs1) (hq : 2 ≤ s.regValue rs2) (hexec : exec (.keygen rs1 rs2 rs3) s = .next t)
    (hset : t.status.keyValid = true) :
    s.regValue rs1 * s.regValue rs2 < 2 ^ 1024 ∧
      Nat.gcd (s.regValue rs3) ((s.regValue rs1 - 1) * (s.regValue rs2 - 1)) = 1 := by
  have hno_failure (c : BitVec 8) : exec (.keygen rs1 rs2 rs3) s ≠ .next (s.failedWith c) := by
    intro hfail
    obtain rfl : t = s.failedWith c := Host.Outcome.next.inj (hexec.symm.trans hfail)
    simp [hfree] at hset
  obtain ⟨-, harg, hgeneration⟩ := keygenFailures rs1 rs2 rs3 s
  have hn : s.regValue rs1 * s.regValue rs2 < 2 ^ 1024 := by
    by_contra hbig
    exact hno_failure _ (harg hfree (.inr (.inr (not_lt.mp hbig))))
  refine ⟨hn, ?_⟩
  by_contra hgcd
  exact hno_failure _ (hgeneration hfree hp hq hn hgcd)

/-- Settles O22: a KEYGEN that set KEY_VALID installed p q and inverse exponents, to which the RSA identity applies. -/
theorem rsaIdentityAfterKeygen : Obligations.RsaIdentityAfterKeygen := by
  intro rs1 rs2 rs3 s t hfree hp hq hne hexec hset m hm
  obtain ⟨hn, hgcd⟩ := keygen_operands_of_keyValid hfree hp.two_le hq.two_le hexec hset
  obtain ⟨u, hu, hkn, -, -, -, hinv, -⟩ := keygenInstallsTheTriple rs1 rs2 rs3 s hfree hp.two_le hq.two_le hn hgcd
  obtain rfl : t = u := Host.Outcome.next.inj (hexec.symm.trans hu)
  have hrsa : m ^ (t.ke.toNat * t.kd.toNat) ≡ m [MOD t.kn.toNat] :=
    hkn ▸ pow_modEq_self_of_primes hp hq hne hinv m
  rw [← pow_mul, hrsa, Nat.mod_eq_of_lt hm]

/-! ### KEYLOAD, KEYCLR and NOP -/

/-- KEYLOAD with no key held succeeds with the three registers as they are (41 R260, R261). -/
theorem resultOf_keyload_of_free {s : State} (h : s.status.keyValid = false) (rs1 rs2 rs3 : WReg) :
    resultOf (.keyload rs1 rs2 rs3) s = .success (setKeys (s.getW rs1) (s.getW rs2) (s.getW rs3) true s) :=
  if_neg (by simp [h])

/-- KEYLOAD while a key is held fails with KEY_LOCKED (41 R260). -/
theorem resultOf_keyload_of_held {s : State} (h : s.status.keyValid = true) (rs1 rs2 rs3 : WReg) :
    resultOf (.keyload rs1 rs2 rs3) s = .failure .keyLocked := if_pos h

/-- Settles O24: KEYLOAD looks at KEY_VALID only. -/
theorem keyloadMeaning : Obligations.KeyloadMeaning := by
  intro rs1 rs2 rs3 s
  exact ⟨fun hfree => exec_of_success (resultOf_keyload_of_free hfree rs1 rs2 rs3),
    fun hheld => exec_of_failure (resultOf_keyload_of_held hheld rs1 rs2 rs3)⟩

/-- Settles O25: KEYCLR and NOP succeed in every state. -/
theorem keyclrAndNopMeaning : Obligations.KeyclrAndNopMeaning := by
  intro s
  have hkeyclr : resultOf .keyclr s = .success (setKeys 0#1024 0#1024 0#1024 false s) := rfl
  have hnop : resultOf .nop s = .success s := rfl
  exact ⟨exec_of_success hkeyclr, exec_of_success hnop⟩

end Sys2Proof.Machine

/-!
PROOFS of the statements about the chunk codec (42_chunk_codec.md): the chunk CHUNK builds, its value and its decoding, the
block STBLK builds, what UNCHUNK and LDBUF write, and the failures for the length of the input.
-/
namespace Sys2Proof.Machine

/-! ### The length failures -/

/-- CHUNK of no bytes fails with EMPTY (42 R331). -/
theorem resultOf_chunk_of_empty {s : State} (h : s.ibufCount = 0) : resultOf .chunk s = .failure .empty := if_pos h

/-- CHUNK of more than 126 bytes fails with LEN (42 R332). -/
theorem resultOf_chunk_of_long {s : State} (h : 126 < s.ibufCount) : resultOf .chunk s = .failure .len := by
  rw [resultOf, chunkResult, if_neg (by omega), if_pos h]

/-- LDBUF of more than 128 bytes fails with LEN (42 R321). -/
theorem resultOf_ldbuf_of_long {s : State} (h : 128 < s.ibufCount) (rd : WReg) :
    resultOf (.ldbuf rd) s = .failure .len := if_pos h

/-- ENCBLK of no bytes, with a key, fails with EMPTY (43 R361). -/
theorem resultOf_encblk_of_empty {s : State} (hkey : s.status.keyValid = true) (h : s.ibufCount = 0) :
    resultOf .encblk s = .failure .empty := by
  rw [resultOf, encblkResult, if_neg (by simp [hkey]), if_pos h]

/-- ENCBLK of more than 126 bytes, with a key, fails with LEN (43 R361). -/
theorem resultOf_encblk_of_long {s : State} (hkey : s.status.keyValid = true) (h : 126 < s.ibufCount) :
    resultOf .encblk s = .failure .len := by
  rw [resultOf, encblkResult, if_neg (by simp [hkey]), if_neg (by omega), if_pos h]

/-- DECBLK of anything but 128 bytes, with a key, fails with LEN (43 R371). -/
theorem resultOf_decblk_of_ne {s : State} (hkey : s.status.keyValid = true) (h : s.ibufCount ≠ 128) :
    resultOf .decblk s = .failure .len := by
  rw [resultOf, decblkResult, if_neg (by simp [hkey]), if_pos h]

/-- Settles O29: one result per failure. -/
theorem lengthFailures : Obligations.LengthFailures := by
  intro s
  exact ⟨fun h => exec_of_failure (resultOf_chunk_of_empty h),
    fun h => exec_of_failure (resultOf_chunk_of_long h),
    fun h rd => exec_of_failure (resultOf_ldbuf_of_long h rd),
    fun hkey h => exec_of_failure (resultOf_encblk_of_empty hkey h),
    fun hkey h => exec_of_failure (resultOf_encblk_of_long hkey h),
    fun hkey h => exec_of_failure (resultOf_decblk_of_ne hkey h)⟩

/-! ### The value of a chunk -/

/-- A power of 256 in bits (00 R9, R10). -/
theorem pow_256_eq (n : Nat) : 256 ^ n = 2 ^ (8 * n) := (pow_mul 2 8 n).symm

/-- A chunk's value lies within its first byte times 2^1008 and the next multiple (42 R301). -/
theorem beValue_buildChunk_bounds {k : Nat} {data filler : List Byte} (hk : k < 256)
    (hlen : data.length + filler.length = 126) :
    k * 2 ^ 1008 ≤ beValue (buildChunk k data filler) ∧ beValue (buildChunk k data filler) < (k + 1) * 2 ^ 1008 := by
  have hpow : (256 : Nat) ^ (data ++ filler).length = 2 ^ 1008 := by
    rw [List.length_append, hlen, pow_256_eq]
  have hrest := beValue_lt (data ++ filler)
  rw [hpow] at hrest
  rw [buildChunk, beValue_cons, hpow, BitVec.toNat_ofNat, Nat.mod_eq_of_lt hk, add_one_mul]
  exact ⟨Nat.le_add_right _ _, Nat.add_lt_add_left hrest _⟩

/-- A chunk's value has 1009 to 1015 bits (42 R301). -/
theorem bitlen_buildChunk {k : Nat} {data filler : List Byte} (h1 : 1 ≤ k) (h126 : k ≤ 126)
    (hlen : data.length + filler.length = 126) :
    1009 ≤ bitlen (beValue (buildChunk k data filler)) ∧ bitlen (beValue (buildChunk k data filler)) ≤ 1015 := by
  obtain ⟨hge, hlt⟩ := beValue_buildChunk_bounds (show k < 256 by omega) hlen
  constructor
  · by_contra hshort
    have hsmall : beValue (buildChunk k data filler) < 2 ^ 1008 := bitlen_le_iff.mp (by omega)
    exact absurd (hsmall.trans_le (Nat.le_mul_of_pos_left _ h1)) hge.not_gt
  · refine bitlen_le_iff.mpr (hlt.trans_le ?_)
    calc (k + 1) * 2 ^ 1008 ≤ 2 ^ 7 * 2 ^ 1008 := Nat.mul_le_mul_right _ (by omega)
      _ = 2 ^ 1015 := by rw [← pow_add]

/-- Settles O33: the length byte is the top byte of the 127. -/
theorem chunkValueBounds : Obligations.ChunkValueBounds := by
  intro data filler h1 hlen
  obtain ⟨hge, hlt⟩ := beValue_buildChunk_bounds (show data.length < 256 by omega) hlen
  exact ⟨hge, hlt, bitlen_buildChunk h1 (by omega) hlen⟩

/-! ### The decoding of a chunk -/

/-- Decode reads the value of a chunk as its 127 bytes (42 R311, R317). -/
theorem beBytes_decodeCount_buildChunk {k : Nat} {data filler : List Byte} (h1 : 1 ≤ k) (h126 : k ≤ 126)
    (hlen : data.length + filler.length = 126) :
    beBytes (decodeCount (beValue (buildChunk k data filler))) (beValue (buildChunk k data filler)) =
      buildChunk k data filler := by
  have hcount : decodeCount (beValue (buildChunk k data filler)) = (buildChunk k data filler).length := by
    obtain ⟨hge, hle⟩ := bitlen_buildChunk h1 h126 hlen
    rw [decodeCount, buildChunk_length]
    omega
  rw [hcount, beBytes_beValue]

/-- Settles O32: decode sees the chunk's bytes again, so the length byte cuts the data off the filler. -/
theorem decodeRecoversTheChunkData : Obligations.DecodeRecoversTheChunkData := by
  intro data filler h1 hlen
  have hbytes := beBytes_decodeCount_buildChunk h1 (show data.length ≤ 126 by omega) hlen
  have hk : (BitVec.ofNat 8 data.length).toNat = data.length := by
    rw [BitVec.toNat_ofNat]
    omega
  rw [buildChunk] at hbytes
  rw [decodeChunk, hbytes]
  simp [hk]

/-! ### CHUNK -/

/-- The running command's context is the state's, where it has one (10 R57). -/
theorem runningCtx_of_some {s : State} {c : Ctx} (h : s.ctx = some c) : s.runningCtx = c := by
  rw [State.runningCtx, h, Option.getD_some]

/-- CHUNK of 1 to 126 bytes, with its filler delivered, succeeds with the chunk (42 R330). -/
theorem resultOf_chunk_of_drawn {s : State} (h1 : 1 ≤ s.ibufCount) (h126 : s.ibufCount ≤ 126)
    (hdrawn : 126 - s.ibufCount ≤ s.runningCtx.drawn.length) :
    resultOf .chunk s = .success (setObuf (buildChunk s.ibufCount (s.ibufData s.ibufCount)
      (s.runningCtx.drawn.take (126 - s.ibufCount))) 127 s) := by
  have hdraw := draw_of_le hdrawn
  have hlen := chunk_length h126.not_gt hdraw
  rw [resultOf, chunkResult, if_neg (by omega), if_neg h126.not_gt, hdraw]
  exact if_neg (not_not.mpr hlen)

/-- The bytes of IBUF's data, by index (10 R41). -/
theorem ibufData_getD (s : State) {k i : Nat} (hi : i < 128) (hk : i < k) : (s.ibufData k).getD i 0#8 = s.ibuf[i] := by
  have hlen : i < (s.ibufData k).length := by simp [State.ibufData, hi, hk]
  rw [List.getD_eq_getElem _ _ hlen]
  simp [State.ibufData]

/-- The first n bytes of a string, by index. -/
theorem getD_take (l : List Byte) {n i : Nat} (h : i < n) : (l.take n).getD i 0#8 = l.getD i 0#8 := by
  simp [List.getD_eq_getElem?_getD, h]

/-- The bytes after a chunk's length byte are the data, then the filler (42 R300). -/
theorem buildChunk_getD_succ (k : Nat) (data filler : List Byte) (i : Nat) :
    (buildChunk k data filler).getD (i + 1) 0#8 =
      if i < data.length then data.getD i 0#8 else filler.getD (i - data.length) 0#8 := by
  rw [buildChunk, List.getD_cons_succ]
  split
  · next h => exact List.getD_append _ _ _ _ h
  · next h => exact List.getD_append_right _ _ _ _ (not_lt.mp h)

/-- Settles O28: the bytes of the chunk, by index. -/
theorem chunkMeaning : Obligations.ChunkMeaning := by
  intro s c hctx
  rw [← State.ibufCount, ← runningCtx_of_some hctx]
  intro h1 h126 hdrawn
  have hdata : (s.ibufData s.ibufCount).length = s.ibufCount := ibufData_length s (h126.trans (by decide))
  have hlen := chunk_length h126.not_gt (draw_of_le hdrawn)
  refine ⟨_, exec_of_success (resultOf_chunk_of_drawn h1 h126 hdrawn), ?_, fun i hi hk => ?_, fun i hi hk => ?_, ?_,
    rfl, rfl⟩
  · rw [finish_obuf, setObuf_obuf, bufferOf_get, buildChunk, List.getD_cons_zero, BitVec.toNat_ofNat]
    exact Nat.mod_eq_of_lt (h126.trans_lt (by decide))
  · rw [finish_obuf, setObuf_obuf, bufferOf_get, buildChunk_getD_succ, hdata, if_pos hk, ibufData_getD s _ hk]
  · rw [finish_obuf, setObuf_obuf, bufferOf_get, buildChunk_getD_succ, hdata, if_neg hk.not_gt,
      getD_take _ (Nat.sub_lt_sub_right hk hi)]
  · rw [finish_obuf, setObuf_obuf, bufferOf_get]
    exact List.getD_eq_default _ _ hlen.le

/-! ### UNCHUNK -/

/-- The bytes of BE_L by index: byte i has weight 256^(L-1-i) (00 R9). -/
theorem beBytes_getD (L v : Nat) {i : Nat} (h : i < L) :
    ((beBytes L v).getD i 0#8).toNat = v / 256 ^ (L - 1 - i) % 256 := by
  have hi : i < (beBytes L v).length := by rwa [beBytes_length]
  rw [List.getD_eq_getElem _ _ hi, beBytes_getElem]

/-- Decode's data by index: the bytes of v below its most significant one (42 R312). -/
theorem decodeChunk_getD {v i : Nat} (h : i < min (v / 256 ^ (decodeCount v - 1)) (decodeCount v - 1)) :
    ((decodeChunk v).1.getD i 0#8).toNat = v / 256 ^ (decodeCount v - 2 - i) % 256 := by
  obtain ⟨hk, hB⟩ := lt_min_iff.mp h
  have hpow : 256 ^ (decodeCount v - 1) = 256 ^ (decodeCount v - 2 - i) * 256 ^ (i + 1) := by
    rw [← pow_add]
    congr 1
    omega
  rw [decodeChunk_eq, getD_take _ hk, beBytes_getD _ _ hB, hpow, Nat.sub_sub _ 1 1, Nat.mod_mul_right_div_self,
    Nat.mod_mod_of_dvd _ (dvd_pow_self _ (Nat.succ_ne_zero i))]

/-- What decode's data of a wide value leaves in OBUF_LEN and OBUF (42 R315). -/
theorem storeDecoded_obuf {v : Nat} (hv : v < 2 ^ 1024) (s : State) :
    (storeDecoded (decodeChunk v) s).obufLen.toNat = min (v / 256 ^ (decodeCount v - 1)) (decodeCount v - 1) ∧
    ∀ j : Fin 128, (storeDecoded (decodeChunk v) s).obuf[j.val].toNat =
      if j.val < min (v / 256 ^ (decodeCount v - 1)) (decodeCount v - 1)
      then v / 256 ^ (decodeCount v - 2 - j.val) % 256 else 0 := by
  rw [← decodeChunk_length]
  refine ⟨?_, fun j => ?_⟩
  · rw [storeDecoded, mapStatus_obufLen, setObuf_obufLen, BitVec.toNat_ofNat]
    exact Nat.mod_eq_of_lt ((decodeChunk_length_le hv).trans_lt (by decide))
  · rw [storeDecoded, mapStatus_obuf, setObuf_obuf, bufferOf_get]
    split
    · next h => exact decodeChunk_getD (decodeChunk_length v ▸ h)
    · next h => rw [List.getD_eq_default _ _ (not_lt.mp h)]; rfl

/-- Settles O31: B is the decode byte count, and the output is decode's data. -/
theorem unchunkMeaning : Obligations.UnchunkMeaning := by
  rintro rs1 s v B k rfl rfl rfl
  have hres : resultOf (.unchunk rs1) s = .success (storeDecoded (decodeChunk (s.regValue rs1)) s) := rfl
  obtain ⟨hlen, hbytes⟩ := storeDecoded_obuf (regValue_lt s rs1) s
  refine ⟨_, exec_of_success hres, hlen, hbytes, ?_⟩
  rw [decodeChunk_eq]
  rfl

/-! ### LDBUF -/

/-- BE of the first k bytes of a string is the sum of its bytes by weight (00 R9). -/
theorem beValue_take (l : List Byte) : ∀ {k : Nat}, k ≤ l.length →
    beValue (l.take k) = ∑ i ∈ Finset.range k, (l.getD i 0#8).toNat * 256 ^ (k - 1 - i) := by
  induction l with
  | nil =>
    intro k hk
    obtain rfl : k = 0 := Nat.le_zero.mp hk
    rfl
  | cons b l ih =>
    intro k hk
    cases k with
    | zero => rfl
    | succ k =>
      have hk' : k ≤ l.length := Nat.le_of_succ_le_succ hk
      have hsum : ∑ i ∈ Finset.range k, ((b :: l).getD (i + 1) 0#8).toNat * 256 ^ (k + 1 - 1 - (i + 1)) =
          ∑ i ∈ Finset.range k, (l.getD i 0#8).toNat * 256 ^ (k - 1 - i) :=
        Finset.sum_congr rfl fun i _ => by rw [List.getD_cons_succ, Nat.add_sub_cancel, Nat.sub_sub, add_comm 1 i]
      rw [List.take_succ_cons, beValue_cons, ih hk', List.length_take, min_eq_left hk', Finset.sum_range_succ', hsum,
        List.getD_cons_zero, Nat.add_sub_cancel, Nat.sub_zero, add_comm]

/-- A sum over the first k of n indices is one over all n, with 0 for the others. -/
theorem sum_range_eq_sum_fin {k n : Nat} (h : k ≤ n) (f : Nat → Nat) :
    ∑ i ∈ Finset.range k, f i = ∑ i : Fin n, if i.val < k then f i.val else 0 := by
  rw [Fin.sum_univ_eq_sum_range (fun i => if i < k then f i else 0) n, ← Finset.sum_filter]
  congr 1
  ext i
  simp only [Finset.mem_range, Finset.mem_filter]
  omega

/-- BE(IBUF[0..k)), byte by byte (42 R320). -/
theorem beValue_ibufData (s : State) {k : Nat} (hk : k ≤ 128) :
    beValue (s.ibufData k) = ∑ i : Fin 128, if i.val < k then s.ibuf[i.val].toNat * 256 ^ (k - 1 - i.val) else 0 := by
  rw [State.ibufData, beValue_take _ (by rwa [Vector.length_toList]), sum_range_eq_sum_fin hk]
  simp

/-- The value of up to 128 bytes of IBUF fits a wide register (42 R322). -/
theorem beValue_ibufData_lt (s : State) {k : Nat} (hk : k ≤ 128) : beValue (s.ibufData k) < 2 ^ 1024 :=
  calc beValue (s.ibufData k) < 256 ^ k := (beValue_lt _).trans_eq (by rw [ibufData_length s hk])
    _ ≤ 256 ^ 128 := Nat.pow_le_pow_right (by decide) hk
    _ = 2 ^ 1024 := by rw [pow_256_eq]

/-- LDBUF of up to 128 bytes succeeds with their value (42 R320). -/
theorem resultOf_ldbuf_of_le {s : State} (h : s.ibufCount ≤ 128) (rd : WReg) :
    resultOf (.ldbuf rd) s = .success (s.setW rd (toWide (beValue (s.ibufData s.ibufCount)))) := if_neg h.not_gt

/-- Settles O34: the value fits the register it is written to. -/
theorem ldbufMeaning : Obligations.LdbufMeaning := by
  intro rd s hlen
  obtain ⟨t, hexec, hval, hother, hframe⟩ :=
    exec_of_setW_success (resultOf_ldbuf_of_le hlen rd) (beValue_ibufData_lt s hlen)
  exact ⟨t, hexec, hval.trans (beValue_ibufData s hlen), hother, hframe⟩

/-! ### STBLK -/

/-- The pad of n bytes: zeros when PADZ is 1, else the next n bytes drawn (42 R341). -/
def padBytes (padz : Bool) (n : Nat) (bytes : List Byte) : List Byte := if padz then zeroBytes n else bytes.take n

/-- The pad has its length when its bytes are there. -/
theorem padBytes_length {padz : Bool} {n : Nat} {bytes : List Byte} (h : padz = true ∨ n ≤ bytes.length) :
    (padBytes padz n bytes).length = n := by
  cases padz with
  | true => exact List.length_replicate
  | false => exact List.length_take_of_le (h.resolve_left Bool.false_ne_true)

/-- The bytes of the pad: zeros or draws in order (42 R341). -/
theorem padBytes_getD (padz : Bool) (bytes : List Byte) {n j : Nat} (h : j < n) :
    (padBytes padz n bytes).getD j 0#8 = if padz then 0#8 else bytes.getD j 0#8 := by
  cases padz with
  | true => simp [padBytes, zeroBytes]
  | false => exact getD_take bytes h

/-- The block of a wide value is stored once its pad's bytes are there (42 R340). -/
theorem storeBlock_of_drawn {padz : Bool} {c : Nat} {bytes : List Byte} (hc : c < 2 ^ 1024)
    (h : padz = true ∨ 128 - naturalLength c ≤ bytes.length) (s : State) : storeBlock padz c bytes s =
      .success (setObuf (buildBlock (padBytes padz (128 - naturalLength c) bytes) c) 128 s) := by
  have hpad : blockPad padz c bytes = some (padBytes padz (128 - naturalLength c) bytes) := by
    cases padz with
    | true => rfl
    | false => exact congrArg (Option.map Prod.fst) (draw_of_le (h.resolve_left Bool.false_ne_true))
  rw [storeBlock_of_lt hc, hpad]

section
variable {pad : List Byte} {c : Nat} (hpad : pad.length = 128 - naturalLength c)
include hpad

/-- A block begins with its pad (42 R302). -/
theorem buildBlock_getD_pad {j : Nat} (h : j < 128 - naturalLength c) :
    (buildBlock pad c).getD j 0#8 = pad.getD j 0#8 := List.getD_append _ _ _ _ (hpad ▸ h)

/-- The bytes of a block after its pad are the value's (42 R302). -/
theorem buildBlock_getD_value (hc : c < 2 ^ 1024) {j : Nat} (h : 128 - naturalLength c ≤ j) (hj : j < 128) :
    ((buildBlock pad c).getD j 0#8).toNat = c / 256 ^ (127 - j) % 256 := by
  have hc128 := naturalLength_le_of_lt hc
  have hlen : j - (128 - naturalLength c) < naturalLength c := by omega
  have hexp : naturalLength c - 1 - (j - (128 - naturalLength c)) = 127 - j := by omega
  rw [buildBlock, List.getD_append_right _ _ _ _ (hpad ▸ h), hpad, beBytes_getD _ _ hlen, hexp]

end

/-- A block with a pad of zeros is the value's 128 bytes (42 R302). -/
theorem buildBlock_zeros {c : Nat} (hc : c < 2 ^ 1024) :
    buildBlock (zeroBytes (128 - naturalLength c)) c = beBytes 128 c := by
  rw [buildBlock, ← beBytes_append_zeros _ _ _ (lt_pow_naturalLength c), Nat.sub_add_cancel (naturalLength_le_of_lt hc)]

/-- A buffer with a block whose pad is zeros has the block's value (42 R341). -/
theorem beValue_bufferOf_zero_pad {c : Nat} (hc : c < 2 ^ 1024) :
    beValue (bufferOf (buildBlock (zeroBytes (128 - naturalLength c)) c)).toList = c := by
  have hfit : c < 256 ^ 128 := naturalLength_le_iff.mp (naturalLength_le_of_lt hc)
  rw [buildBlock_zeros hc, bufferOf_toList _ (beBytes_length 128 c).le, beBytes_length, Nat.sub_self, zeroBytes,
    List.replicate_zero, List.append_nil, beValue_beBytes 128 c hfit]

/-- What the block of a wide value leaves in OBUF: the pad, then the value's bytes (42 R302, R340). -/
theorem bufferOf_block {padz : Bool} {c : Nat} {bytes : List Byte} (hc : c < 2 ^ 1024)
    (h : padz = true ∨ 128 - naturalLength c ≤ bytes.length) {b : Vector Byte 128}
    (hb : b = bufferOf (buildBlock (padBytes padz (128 - naturalLength c) bytes) c)) :
    (∀ j : Fin 128, j.val < 128 - naturalLength c → b[j.val] = if padz then 0#8 else bytes.getD j.val 0#8) ∧
    (∀ j : Fin 128, 128 - naturalLength c ≤ j.val → b[j.val].toNat = c / 256 ^ (127 - j.val) % 256) ∧
    (padz = true → beValue b.toList = c) := by
  have hpad := padBytes_length h
  subst hb
  refine ⟨fun j hj => ?_, fun j hj => ?_, ?_⟩
  · rw [bufferOf_get, buildBlock_getD_pad hpad hj, padBytes_getD padz bytes hj]
  · rw [bufferOf_get, buildBlock_getD_value hpad hc hj j.isLt]
  · rintro rfl
    exact beValue_bufferOf_zero_pad hc

/-- Settles O35: STBLK stores the block of a register's value. -/
theorem stblkMeaning : Obligations.StblkMeaning := by
  intro rs1 s c hctx hbytes
  have hc := regValue_lt s rs1
  have hres := storeBlock_of_drawn hc hbytes s
  rw [← runningCtx_of_some hctx] at hres hbytes ⊢
  obtain ⟨hpad, hvalue, hzero⟩ := bufferOf_block hc hbytes rfl
  exact ⟨_, exec_of_success (i := .stblk rs1) hres, rfl, hpad, hvalue, hzero, rfl⟩

end Sys2Proof.Machine

/-!
PROOFS of the statements about the cipher pipeline (43_cipher_pipeline.md): what ENCBLK and DECBLK write, that each
gives what the codec commands give in sequence, and that with zero pad DECBLK recovers the data ENCBLK encrypted.
-/
namespace Sys2Proof.Machine

/-! ### The chunk a command encrypts -/

/-- The value of the chunk of IBUF's declared bytes and a filler (42 R301). -/
def State.chunkValue (s : State) (filler : List Byte) : Nat :=
  beValue (buildChunk s.ibufCount (s.ibufData s.ibufCount) filler)

/-- The data of a chunk has as many bytes as IBUF_LEN says (10 R41). -/
theorem chunkData_length {s : State} (h126 : s.ibufCount ≤ 126) : (s.ibufData s.ibufCount).length = s.ibufCount :=
  ibufData_length s (h126.trans (by decide))

section
variable {s : State} {filler : List Byte} (h126 : s.ibufCount ≤ 126) (hfiller : filler.length = 126 - s.ibufCount)
include h126 hfiller

/-- A chunk filled up has 127 bytes (42 R300). -/
theorem filledChunk_length : (buildChunk s.ibufCount (s.ibufData s.ibufCount) filler).length = 127 := by
  rw [buildChunk_length, chunkData_length h126, hfiller]
  omega

variable (h1 : 1 ≤ s.ibufCount)
include h1

/-- A chunk's value is below 2^1015 (42 R301). -/
theorem chunkValue_lt : s.chunkValue filler < 2 ^ 1015 :=
  bitlen_le_iff.mp (bitlen_buildChunk h1 h126 (by rw [chunkData_length h126, hfiller, Nat.add_sub_cancel' h126])).2

/-- Decode of a chunk's value gives the data of the chunk, none missing (42 R317). -/
theorem decodeChunk_chunkValue : decodeChunk (s.chunkValue filler) = (s.ibufData s.ibufCount, false) := by
  have hdata := chunkData_length h126
  have h := decodeRecoversTheChunkData (s.ibufData s.ibufCount) filler (by rwa [hdata])
    (by rw [hdata, hfiller, Nat.add_sub_cancel' h126])
  rwa [hdata] at h

end

/-! ### ENCBLK -/

/-- The value ENCBLK encrypts a chunk to, m^KE mod KN (43 R360). -/
def State.cipherValue (s : State) (filler : List Byte) : Nat := s.chunkValue filler ^ s.ke.toNat % s.kn.toNat

/-- A wide value is zero as a number exactly when its bits are. -/
theorem wide_toNat_ne_zero_iff {m : Wide} : m.toNat ≠ 0 ↔ m ≠ 0#1024 := by
  rw [BitVec.toNat_ne, BitVec.toNat_ofNat, Nat.zero_mod]

/-- A remainder modulo a nonzero wide value fits a wide register (40 R204). -/
theorem mod_lt_wide {m : Wide} (h : m ≠ 0#1024) (a : Nat) : a % m.toNat < 2 ^ 1024 :=
  (Nat.mod_lt a (Nat.pos_of_ne_zero (wide_toNat_ne_zero_iff.mpr h))).trans m.isLt

section
variable {s : State} (hkey : s.status.keyValid = true) (h1 : 1 ≤ s.ibufCount) (h126 : s.ibufCount ≤ 126)
  (hn : s.kn ≠ 0#1024)
include hkey h1 h126 hn

/-- ENCBLK with a key, a nonzero modulus and its filler delivered stores the block of its chunk's value, encrypted, with
the bytes drawn after the filler (43 R360, R362). -/
theorem resultOf_encblk_of_drawn (hdrawn : 126 - s.ibufCount ≤ s.runningCtx.drawn.length) :
    resultOf .encblk s = storeBlock s.runningCtx.padz (s.cipherValue (s.runningCtx.drawn.take (126 - s.ibufCount)))
      (s.runningCtx.drawn.drop (126 - s.ibufCount)) s := by
  have hdraw := draw_of_le hdrawn
  have hlen := chunk_length h126.not_gt hdraw
  rw [resultOf, encblkResult, if_neg (by simp [hkey]), if_neg (by omega), if_neg h126.not_gt,
    if_neg (wide_toNat_ne_zero_iff.mpr hn), hdraw]
  simp only [modExp_eq_pow_mod]
  exact if_neg (not_not.mpr hlen)

/-- The completion of ENCBLK on a filler and the bytes its pad needs (43 R360). -/
theorem exec_encblk_of_drawn {padz : Bool} {filler pad : List Byte}
    (hctx : s.ctx = some { padz := padz, drawn := filler ++ pad }) (hfiller : filler.length = 126 - s.ibufCount)
    (hpad : padz = true ∨ 128 - naturalLength (s.cipherValue filler) ≤ pad.length) :
    exec .encblk s = .next (finish (setObuf (buildBlock
      (padBytes padz (128 - naturalLength (s.cipherValue filler)) pad) (s.cipherValue filler)) 128 s)) := by
  refine exec_of_success (.trans ?_ (storeBlock_of_drawn (mod_lt_wide hn _) hpad s))
  have hrun := runningCtx_of_some hctx
  have hres := resultOf_encblk_of_drawn hkey h1 h126 hn
  rw [hrun, List.take_left' hfiller, List.drop_left' hfiller] at hres
  exact hres (by rw [List.length_append, hfiller]; exact Nat.le_add_right _ _)

end

/-- Settles O36: the drawn bytes are the filler, then the pad of the block. -/
theorem encblkMeaning : Obligations.EncblkMeaning := by
  rintro s ⟨padz, drawn⟩ k m c hctx hkey rfl h1 h126 hn hfiller rfl rfl hpad
  have hsplit : drawn = drawn.take (126 - s.ibufCount) ++ drawn.drop (126 - s.ibufCount) :=
    (List.take_append_drop _ _).symm
  have htake : (drawn.take (126 - s.ibufCount)).length = 126 - s.ibufCount := List.length_take_of_le hfiller
  have hrest : padz = true ∨ 128 - naturalLength (s.cipherValue (drawn.take (126 - s.ibufCount))) ≤
      (drawn.drop (126 - s.ibufCount)).length := by
    rw [List.length_drop]
    exact hpad.imp_right Nat.le_sub_of_add_le'
  have hexec := exec_encblk_of_drawn hkey h1 h126 hn (by rw [hctx, ← hsplit]) htake hrest
  obtain ⟨hpadBytes, hvalue, hzero⟩ := bufferOf_block (mod_lt_wide hn _) hrest rfl
  refine ⟨_, hexec, rfl, fun j hj => (hpadBytes j hj).trans ?_, hvalue, hzero, rfl⟩
  rw [List.getD_eq_getElem?_getD, List.getElem?_drop, ← List.getD_eq_getElem?_getD]
  rfl

/-! ### DECBLK -/

/-- IBUF whole is its 128 bytes (10 R39). -/
theorem ibufData_all (s : State) : s.ibufData 128 = s.ibuf.toList :=
  List.take_of_length_le (Vector.length_toList ..).le

/-- The completion of DECBLK with a key, a full block and a nonzero modulus (43 R370, R372). -/
theorem exec_decblk_of_full {s : State} (hkey : s.status.keyValid = true) (hlen : s.ibufLen = 128#8)
    (hn : s.kn ≠ 0#1024) : exec .decblk s =
      .next (finish (storeDecoded (decodeChunk (beValue s.ibuf.toList ^ s.kd.toNat % s.kn.toNat)) s)) := by
  apply exec_of_success
  have hcount : s.ibufCount = 128 := congrArg BitVec.toNat hlen
  rw [resultOf, decblkResult, if_neg (by simp [hkey]), if_neg (not_not.mpr hcount),
    if_neg (wide_toNat_ne_zero_iff.mpr hn), modExp_eq_pow_mod, ibufData_all]

/-- Settles O37: decode gives at most 128 bytes, so OBUF and OBUF_LEN hold them and their number. -/
theorem decblkMeaning : Obligations.DecblkMeaning := by
  rintro s m hkey hlen hn rfl
  have hle := decodeChunk_length_le (mod_lt_wide hn (beValue s.ibuf.toList ^ s.kd.toNat))
  refine ⟨_, exec_decblk_of_full hkey hlen hn, ?_, hle, bufferOf_toList _ hle, rfl⟩
  rw [finish_obufLen, storeDecoded, mapStatus_obufLen, setObuf_obufLen, BitVec.toNat_ofNat]
  exact Nat.mod_eq_of_lt (hle.trans_lt (by decide))

/-! ### The codec sequences -/

/-- The next state of a command that succeeds is its completion (44 R403). -/
theorem eq_finish_of_success {i : Instr} {s t u : State} (h : resultOf i s = .success u) (hexec : exec i s = .next t) :
    t = finish u := Host.Outcome.next.inj (hexec.symm.trans (exec_of_success h))

/-- LDBUF, then MODEXP on the loaded register: the power of IBUF's value, with exponent and modulus in other registers
(42 R320, 40 R201). -/
theorem regValue_of_ldbuf_modexp {s c d : State} {wt wx wn : WReg} (hlen : s.ibufCount ≤ 128) (hx : wx ≠ wt)
    (hn : wn ≠ wt) (hpos : s.regValue wn ≠ 0) (hc : exec (.ldbuf wt) s = .next c)
    (hd : exec (.modexp wt wt wx wn) c = .next d) :
    d.regValue wt = beValue (s.ibufData s.ibufCount) ^ s.regValue wx % s.regValue wn := by
  obtain rfl := eq_finish_of_success (resultOf_ldbuf_of_le hlen wt) hc
  have hmod : (s.setW wt (toWide (beValue (s.ibufData s.ibufCount)))).regValue wn = s.regValue wn := by
    rw [regValue_setW, if_neg hn]
  obtain rfl := eq_finish_of_success (resultOf_modexp_of_ne_zero (by rwa [finish_regValue, hmod]) wt wt wx) hd
  have hlt : beValue (s.ibufData s.ibufCount) ^ s.regValue wx % s.regValue wn < 2 ^ 1024 :=
    (Nat.mod_lt _ (Nat.pos_of_ne_zero hpos)).trans (regValue_lt s wn)
  simp only [finish_regValue, regValue_setW, if_true, if_neg hx, if_neg hn, toWide_toNat (beValue_ibufData_lt s hlen),
    toWide_toNat hlt]

/-- The host's copy of OBUF[0..127), after CHUNK, into IBUF is the chunk (42 R330, 43 R374). -/
theorem ibufData_of_copied_chunk {b : State} {chunk : List Byte} (hlen : chunk.length = 127)
    (hcopy : ∀ j : Fin 127, b.ibuf[j.val] = (bufferOf chunk)[j.val]) : b.ibufData 127 = chunk := by
  refine List.ext_getElem (by rw [hlen, ibufData_length b (by decide)]) fun i _ hi => ?_
  have h := hcopy ⟨i, hlen ▸ hi⟩
  rw [bufferOf_get, List.getD_eq_getElem _ _ hi] at h
  simpa [State.ibufData] using h

/-- CHUNK, its filler delivered, leaves the chunk in OBUF and the wide registers as they are (42 R330). -/
theorem obuf_of_chunk {s a : State} {padz : Bool} {filler : List Byte} (h1 : 1 ≤ s.ibufCount)
    (h126 : s.ibufCount ≤ 126) (hctx : s.ctx = some { padz := padz, drawn := filler })
    (hfiller : filler.length = 126 - s.ibufCount) (ha : exec .chunk s = .next a) :
    a.obuf = bufferOf (buildChunk s.ibufCount (s.ibufData s.ibufCount) filler) ∧ a.w = s.w := by
  have hres := resultOf_chunk_of_drawn h1 h126 (by rw [runningCtx_of_some hctx]; exact hfiller.ge)
  rw [runningCtx_of_some hctx, List.take_of_length_le hfiller.le] at hres
  obtain rfl := eq_finish_of_success hres ha
  exact ⟨rfl, rfl⟩

/-- STBLK, its pad's bytes delivered, leaves the block of its register's value c in OBUF (42 R340). -/
theorem obuf_of_stblk {s e : State} {padz : Bool} {pad : List Byte} {wt : WReg} {c : Nat}
    (hctx : s.ctx = some { padz := padz, drawn := pad }) (hc : s.regValue wt = c)
    (hpad : padz = true ∨ 128 - naturalLength c ≤ pad.length) (he : exec (.stblk wt) s = .next e) :
    e.obuf = bufferOf (buildBlock (padBytes padz (128 - naturalLength c) pad) c) ∧ e.obufLen = 128#8 := by
  subst hc
  have hres : resultOf (.stblk wt) s = _ := storeBlock_of_drawn (regValue_lt s wt)
    (by rwa [runningCtx_of_some hctx]) s
  rw [runningCtx_of_some hctx] at hres
  obtain rfl := eq_finish_of_success hres he
  exact ⟨rfl, rfl⟩

/-- Settles O38: the sequence brings ENCBLK's chunk value to the register STBLK stores, encrypted. -/
theorem encblkIsTheCodecSequence : Obligations.EncblkIsTheCodecSequence := by
  intro s a b c d e padz filler pad wt we wn hkey h1 h126 hn hwe hwn hke hkn hfiller ha hcopy hblen hbw hc hd hpad he
  obtain ⟨hobuf, haw⟩ := obuf_of_chunk (s := { s with ctx := some _ }) h1 h126 rfl hfiller ha
  have hdata : b.ibufData 127 = buildChunk s.ibufCount (s.ibufData s.ibufCount) filler :=
    ibufData_of_copied_chunk (filledChunk_length h126 hfiller) fun j => (hcopy j).trans (by rw [hobuf]; rfl)
  have hvalue : d.regValue wt = s.cipherValue filler := by
    have hcount : b.ibufCount = 127 := congrArg BitVec.toNat hblen
    have hreg (i : WReg) : b.regValue i = s.regValue i := congrArg (fun w => (w[i.val]).toNat) (hbw.trans haw)
    have hexp : b.regValue we = s.ke.toNat := (hreg we).trans (congrArg BitVec.toNat hke)
    have hmod : b.regValue wn = s.kn.toNat := (hreg wn).trans (congrArg BitVec.toNat hkn)
    have hpos : b.regValue wn ≠ 0 := hmod ▸ wide_toNat_ne_zero_iff.mpr hn
    rw [regValue_of_ldbuf_modexp (hcount.trans_le (by decide)) hwe hwn hpos hc hd, hcount, hdata, hexp, hmod]
    rfl
  rw [hvalue] at hpad
  obtain ⟨hblock, hblockLen⟩ := obuf_of_stblk (s := { d with ctx := some _ }) rfl hvalue hpad he
  have hexec := exec_encblk_of_drawn (s := { s with ctx := some _ }) hkey h1 h126 hn rfl hfiller hpad
  exact ⟨_, hexec, hblock.symm, hblockLen.symm⟩

/-- Settles O39: the sequence brings DECBLK's decrypted value to the register UNCHUNK decodes. -/
theorem decblkIsTheCodecSequence : Obligations.DecblkIsTheCodecSequence := by
  intro s c d e wt wd wn hkey hlen hn hwd hwn hkd hkn hc hd he
  have hcount : s.ibufCount = 128 := congrArg BitVec.toNat hlen
  have hvalue : d.regValue wt = beValue s.ibuf.toList ^ s.kd.toNat % s.kn.toNat := by
    have hexp : s.regValue wd = s.kd.toNat := congrArg BitVec.toNat hkd
    have hmod : s.regValue wn = s.kn.toNat := congrArg BitVec.toNat hkn
    have hpos : s.regValue wn ≠ 0 := hmod ▸ wide_toNat_ne_zero_iff.mpr hn
    rw [regValue_of_ldbuf_modexp hcount.le hwd hwn hpos hc hd, hcount, ibufData_all, hexp, hmod]
  have hunchunk : resultOf (.unchunk wt) d = .success (storeDecoded (decodeChunk (d.regValue wt)) d) := rfl
  obtain rfl := eq_finish_of_success hunchunk he
  rw [hvalue]
  exact ⟨_, exec_decblk_of_full hkey hlen hn, rfl, rfl, rfl⟩

/-! ### The round trip -/

/-- The modulus of a generated key is the product of the primes (41 R253). -/
theorem kn_of_keygen {rs1 rs2 rs3 : WReg} {g s : State} (hfree : g.status.keyValid = false)
    (hp : 2 ≤ g.regValue rs1) (hq : 2 ≤ g.regValue rs2) (hexec : exec (.keygen rs1 rs2 rs3) g = .next s)
    (hset : s.status.keyValid = true) : s.kn.toNat = g.regValue rs1 * g.regValue rs2 := by
  obtain ⟨hn, hgcd⟩ := keygen_operands_of_keyValid hfree hp hq hexec hset
  obtain ⟨u, hu, hkn, -⟩ := keygenInstallsTheTriple rs1 rs2 rs3 g hfree hp hq hn hgcd
  obtain rfl : s = u := Host.Outcome.next.inj (hexec.symm.trans hu)
  exact hkn

/-- Settles O40: the chunk's value is below the modulus, so with zero pad the RSA identity gives it back to decode. -/
theorem pipelineRoundTripWithZeroPad : Obligations.PipelineRoundTripWithZeroPad := by
  rintro g s t u v ⟨padz, drawn⟩ rs1 rs2 rs3 hfree hp hq hne hbig hgen hset h1 h126 rfl hdrawn ht hibuf hulen hukn hukd
    hukey hv
  have hkn := kn_of_keygen hfree hp.two_le hq.two_le hgen hset
  have hn : s.kn ≠ 0#1024 := wide_toNat_ne_zero_iff.mp (hkn ▸ mul_ne_zero hp.ne_zero hq.ne_zero)
  have hfiller : (drawn.take (126 - s.ibufCount)).length = 126 - s.ibufCount := List.length_take_of_le hdrawn
  -- ENCBLK: the block's value is the encrypted chunk's.
  obtain ⟨t', ht', -, -, -, hblock, -⟩ := encblkMeaning { s with ctx := some { padz := true, drawn := drawn } } _ _ _ _
    rfl hset rfl h1 h126 hn hdrawn rfl rfl (.inl rfl)
  obtain rfl : t = t' := Host.Outcome.next.inj (ht.symm.trans ht')
  -- DECBLK: it decrypts to the chunk's value, which decodes to the data.
  have hplain : beValue u.ibuf.toList ^ u.kd.toNat % u.kn.toNat = s.chunkValue (drawn.take (126 - s.ibufCount)) := by
    rw [hibuf, hblock rfl, hukd, hukn, ← Nat.pow_mod]
    exact rsaIdentityAfterKeygen rs1 rs2 rs3 g s hfree hp hq hne hgen hset _
      ((chunkValue_lt h126 hfiller h1).trans_le (hkn ▸ hbig))
  have hdec := exec_decblk_of_full hukey hulen (hukn ▸ hn)
  rw [hplain, decodeChunk_chunkValue h126 hfiller h1] at hdec
  obtain rfl := Host.Outcome.next.inj (hv.symm.trans hdec)
  have hdata : (s.ibufData s.ibufCount).length = s.ibufCount := chunkData_length h126
  have hfits : (s.ibufData s.ibufCount).length ≤ 128 := hdata.trans_le (h126.trans (by decide))
  refine ⟨?_, rfl, ?_⟩
  · rw [finish_obufLen, storeDecoded, mapStatus_obufLen, setObuf_obufLen, hdata]
    exact BitVec.ofNat_toNat _ _
  · rw [finish_obuf, storeDecoded, mapStatus_obuf, setObuf_obuf, bufferOf_toList _ hfits]
    exact List.take_left' hdata

end Sys2Proof.Machine

/-!
PROOFS of the statements about control (44_control.md): a CMD write is accepted or dropped, the engine's turn completes the
command or waits, and the entropy bytes each command asks for.
-/
namespace Sys2Proof.Machine

/-! ### Acceptance -/

/-- The states in which a CMD write is accepted (44 R400). -/
theorem acceptable_iff {s : State} :
    s.acceptable = true ↔ s.status.busy = false ∧ s.status.errf = false ∧ s.status.fatal = false := by
  simp only [State.acceptable, Bool.and_eq_true, Bool.not_eq_true', and_assoc]

/-- A CMD write is never blocked: it reaches acceptance in every state, and answers OK (44 R400, R401; 20 R107). -/
theorem step_commandWrite {s : State} {w : Word} {rest : List Input} (hin : s.inputs = .write 0x010#12 4 w :: rest) :
    step s = .next ((issueCommand w { s with inputs := rest }).answer { err := false, rdata := none }) :=
  step_write (l := .cmd) hin (accessible_of_unblocked rfl s) rfl

/-- Settles O10: the write reaches acceptance, which the three flags allow. -/
theorem commandAcceptance : Obligations.CommandAcceptance := by
  intro s w rest hin hbusy herrf hfatal
  have hacc : State.acceptable { s with inputs := rest } = true := acceptable_iff.mpr ⟨hbusy, herrf, hfatal⟩
  rw [step_commandWrite hin, issueCommand, if_pos hacc]
  rfl

/-- Settles O11: one of the three flags keeps the write from acceptance. -/
theorem commandDropped : Obligations.CommandDropped := by
  intro s w rest hin hflag
  have hnot : ¬ (s.status.busy = false ∧ s.status.errf = false ∧ s.status.fatal = false) := by
    rintro ⟨hbusy, herrf, hfatal⟩
    simp [hbusy, herrf, hfatal] at hflag
  have hdrop : ¬ State.acceptable { s with inputs := rest } = true := mt acceptable_iff.mp hnot
  rw [step_commandWrite hin, issueCommand, if_neg hdrop]
  rfl

/-! ### The engine's turn -/

/-- Settles O12: a turn without a missing byte is a failing or a successful completion, and neither writes CMD. -/
theorem engineTurnCompletesWhenNoByteIsAwaited : Obligations.EngineTurnCompletesWhenNoByteIsAwaited := by
  intro s rest hnext hbusy
  rw [step_engineNext hnext, ← entReq_inputs s rest]
  refine ⟨fun hreq => ?_, engineTurn_waiting⟩
  obtain ⟨t, ht⟩ := engineTurn_next { s with inputs := rest }
  refine ⟨t, ht, ?_⟩
  rcases engineTurn_not_waiting (s := { s with inputs := rest }) hbusy hreq ht with ⟨c, -, rfl⟩ | ⟨i, u, -, hu, rfl⟩
  · exact ⟨rfl, rfl, rfl, rfl⟩
  · obtain ⟨-, -, -, -, hcmd, -⟩ := success_keeps hu
    exact ⟨rfl, rfl, rfl, hcmd⟩

/-! ### The bytes a command asks for -/

/-- While a decoded command runs, ent_req is whether it needs a byte (20 R120). -/
theorem entReq_of_command {s : State} {i : Instr} (hbusy : s.status.busy = true) (hcmd : decodeWord s.cmd = .command i) :
    s.entReq = wantsByte i s := by
  rw [State.entReq, hbusy, hcmd, Bool.true_and]

/-- CHUNK needs a byte exactly while its length is legal and a filler byte is missing (42 R330, 44 R405). -/
theorem wantsByte_chunk_iff {s : State} : wantsByte .chunk s = true ↔
    (1 ≤ s.ibufCount ∧ s.ibufCount ≤ 126) ∧ s.runningCtx.drawn.length < 126 - s.ibufCount := by
  rw [wantsByte, chunkResult_isWaiting, decide_eq_true_iff, and_assoc]

/-- STBLK needs a byte exactly while PADZ is 0 and a pad byte is missing (42 R341, 44 R405). -/
theorem wantsByte_stblk_iff {s : State} {rs1 : WReg} : wantsByte (.stblk rs1) s = true ↔
    s.runningCtx.padz = false ∧ s.runningCtx.drawn.length < 128 - naturalLength (s.regValue rs1) := by
  rw [wantsByte, stblkResult_isWaiting, decide_eq_true_iff]

/-- ENCBLK needs a byte exactly while its checks pass and a filler byte, or with PADZ = 0 a pad byte, is missing
(43 R360, 44 R405). -/
theorem wantsByte_encblk_iff {s : State} : wantsByte .encblk s = true ↔
    (s.status.keyValid = true ∧ 1 ≤ s.ibufCount ∧ s.ibufCount ≤ 126 ∧ s.kn ≠ 0#1024) ∧
      (s.runningCtx.drawn.length < 126 - s.ibufCount ∨ (s.runningCtx.padz = false ∧
        s.runningCtx.drawn.length - (126 - s.ibufCount) <
          128 - naturalLength (s.cipherValue (s.runningCtx.drawn.take (126 - s.ibufCount))))) := by
  rw [wantsByte, encblkResult_isWaiting, decide_eq_true_iff, wide_toNat_ne_zero_iff]
  simp only [and_assoc]
  rfl

/-- Settles O14: per command, its checks and the draws it is short of. -/
theorem bytesACommandAsksFor : Obligations.BytesACommandAsksFor := by
  intro s c i hbusy hctx hcmd
  rw [entReq_of_command hbusy hcmd, ← runningCtx_of_some hctx]
  refine ⟨?chunk, ?chunkFails, ?stblk, ?encblk, ?encblkFails, ?others⟩
  case chunk =>
    rintro rfl h1 h126
    exact wantsByte_chunk_iff.trans (and_iff_right ⟨h1, h126⟩)
  case chunkFails =>
    rintro rfl hlen
    refine Bool.eq_false_iff.mpr (mt wantsByte_chunk_iff.mp ?_)
    rintro ⟨⟨h1, h126⟩, -⟩
    rw [State.ibufCount] at h1 h126
    omega
  case stblk =>
    rintro rs1 rfl
    exact wantsByte_stblk_iff
  case encblk =>
    rintro rfl hkey h1 h126 hn
    exact wantsByte_encblk_iff.trans (and_iff_right ⟨hkey, h1, h126, hn⟩)
  case encblkFails =>
    rintro rfl hfails
    refine Bool.eq_false_iff.mpr (mt wantsByte_encblk_iff.mp ?_)
    rintro ⟨⟨hkey, h1, h126, hn⟩, -⟩
    rw [State.ibufCount] at h1 h126
    rcases hfails with hfree | hempty | hlong | hzero
    · simp [hkey] at hfree
    · omega
    · omega
    · exact hn hzero
  case others =>
    intro hchunk hencblk hstblk
    cases i with
    | chunk => exact absurd rfl hchunk
    | encblk => exact absurd rfl hencblk
    | stblk rs1 => exact absurd rfl (hstblk rs1)
    | _ => rfl

end Sys2Proof.Machine

/-!
PROOFS of the statements about the host procedures (45_host_procedures.md): what a key file says, that reading back a
written one gives its triple, and how many bytes a completed encrypt appends.
-/
namespace Sys2Proof.Machine

/-! ### The fields of a key file -/

/-- The number a field's digits stand for, most significant first (45 R451). -/
def fieldValue (f : List Byte) : Nat := f.foldl (fun acc b => acc * 10 + (b.toNat - 0x30)) 0

/-- One more digit at the end of a field (45 R451). -/
theorem fieldValue_append_digitByte (f : List Byte) {d : Nat} (hd : d < 10) :
    fieldValue (f ++ [digitByte d]) = fieldValue f * 10 + d := by
  have hbyte : (digitByte d).toNat - 0x30 = d := by rw [digitByte, BitVec.toNat_ofNat]; omega
  simp [fieldValue, hbyte]

/-- The digit bytes (45 R451). -/
theorem isDigit_iff {b : Byte} : isDigit b = true ↔ 0x30 ≤ b.toNat ∧ b.toNat ≤ 0x39 := by
  simp only [isDigit, Bool.and_eq_true, decide_eq_true_eq]

/-- The ASCII digit of a number below 10 is a digit byte (45 R450). -/
theorem isDigit_digitByte {d : Nat} (hd : d < 10) : isDigit (digitByte d) = true := by
  rw [isDigit_iff, digitByte, BitVec.toNat_ofNat]
  omega

/-- A field is a number exactly when it is not empty, holds digits only and is below 2^1024 (45 R451, R452). -/
theorem parseField_eq_some_iff {f : List Byte} {v : Nat} : parseField f = some v ↔
    f ≠ [] ∧ (∀ b ∈ f, isDigit b = true) ∧ fieldValue f = v ∧ v < 2 ^ 1024 := by
  rw [parseField, ← fieldValue]
  by_cases hempty : f = []
  · rw [if_pos hempty]
    exact iff_of_false nofun fun ⟨hne, _⟩ => hne hempty
  by_cases hdigits : ∀ b ∈ f, isDigit b = true
  · rw [if_neg hempty, if_pos (List.all_eq_true.mpr hdigits)]
    refine Option.ite_none_right_eq_some.trans
      ⟨fun ⟨hlt, hv⟩ => ?_, fun ⟨_, _, hv, hlt⟩ => ⟨hv ▸ hlt, congrArg some hv⟩⟩
    obtain rfl := Option.some.inj hv
    exact ⟨hempty, hdigits, rfl, hlt⟩
  · rw [if_neg hempty, if_neg (mt List.all_eq_true.mp hdigits)]
    exact iff_of_false nofun fun ⟨_, hall, _⟩ => hdigits hall

/-- A text is a key file exactly when its first three fields are numbers (45 R451, R452). -/
theorem deserialize_eq_some_iff {text : List Byte} {n e d : Nat} : deserialize text = some (n, e, d) ↔
    ∃ f1 f2 f3 rest, splitLines text = f1 :: f2 :: f3 :: rest ∧
      parseField f1 = some n ∧ parseField f2 = some e ∧ parseField f3 = some d := by
  constructor
  · intro h
    unfold deserialize at h
    split at h
    · next f1 f2 f3 rest hsplit =>
      split at h
      · next h1 h2 h3 =>
        cases h
        exact ⟨f1, f2, f3, rest, hsplit, h1, h2, h3⟩
      · cases h
    · cases h
  · rintro ⟨f1, f2, f3, rest, hsplit, h1, h2, h3⟩
    simp only [deserialize, hsplit, h1, h2, h3]

/-! ### A malformed key file -/

/-- An empty field, one with a byte that is no digit, and one worth 2^1024 or more are no numbers (45 R452). -/
theorem parseField_of_malformed {f : List Byte}
    (h : f = [] ∨ (∃ b ∈ f, b.toNat < 0x30 ∨ 0x39 < b.toNat) ∨ 2 ^ 1024 ≤ fieldValue f) : parseField f = none := by
  refine Option.eq_none_iff_forall_ne_some.mpr fun v hv => ?_
  obtain ⟨hne, hdigits, rfl, hlt⟩ := parseField_eq_some_iff.mp hv
  rcases h with hempty | ⟨b, hb, hout⟩ | hbig
  · exact hne hempty
  · have hdigit := isDigit_iff.mp (hdigits b hb)
    omega
  · exact hbig.not_gt hlt

/-- A text with fewer than three fields, or with one of the first three no number, is no key file (45 R452). -/
theorem deserialize_of_malformed {text : List Byte}
    (h : (splitLines text).length < 3 ∨ ∃ f ∈ (splitLines text).take 3, parseField f = none) :
    deserialize text = none := by
  refine Option.eq_none_iff_forall_ne_some.mpr ?_
  rintro ⟨n, e, d⟩ hread
  obtain ⟨f1, f2, f3, rest, hsplit, h1, h2, h3⟩ := deserialize_eq_some_iff.mp hread
  rw [hsplit] at h
  rcases h with hshort | ⟨f, hf, hnone⟩
  · simp only [List.length_cons] at hshort
    omega
  · have hfield : f = f1 ∨ f = f2 ∨ f = f3 := by simpa using hf
    rcases hfield with rfl | rfl | rfl <;> simp_all

/-- Settles O59: without a triple read from the file, loadCipher ends before it issues anything. -/
theorem formatErrorTouchesNothing : Obligations.FormatErrorTouchesNothing := by
  intro text r hbad
  have hnone : deserialize text = none :=
    deserialize_of_malformed (hbad.imp_right fun ⟨f, hf, hfield⟩ => ⟨f, hf, parseField_of_malformed hfield⟩)
  rw [loadCipher, hnone]
  rfl

/-! ### Reading back a written key file -/

/-- The digits written are put before what is there already (45 R450). -/
theorem decDigits_eq_append (fuel : Nat) : ∀ (v : Nat) (acc : List Byte),
    decDigits fuel v acc = decDigits fuel v [] ++ acc := by
  induction fuel with
  | zero => intro v acc; rfl
  | succ fuel ih =>
    intro v acc
    simp only [decDigits]
    split
    · rfl
    · rw [ih _ (_ :: acc), ih _ [_], List.append_assoc, List.singleton_append]

/-- The decimal of a number: at least one byte, all of them digits, and the number again as their value (45 R450). -/
theorem decDigits_spec (fuel : Nat) : ∀ v < fuel, decDigits fuel v [] ≠ [] ∧
    (∀ b ∈ decDigits fuel v [], isDigit b = true) ∧ fieldValue (decDigits fuel v []) = v := by
  induction fuel with
  | zero => intro v hv; omega
  | succ fuel ih =>
    intro v hv
    rw [decDigits]
    split
    · next hsmall =>
      refine ⟨List.cons_ne_nil _ _, ?_, (fieldValue_append_digitByte [] hsmall).trans (by simp [fieldValue])⟩
      simpa using isDigit_digitByte hsmall
    · obtain ⟨-, hdigits, hvalue⟩ := ih (v / 10) (by omega)
      have hlast : v % 10 < 10 := Nat.mod_lt v (by decide)
      rw [decDigits_eq_append, fieldValue_append_digitByte _ hlast, hvalue]
      refine ⟨by simp, ?_, Nat.div_add_mod' v 10⟩
      simp only [List.mem_append, List.mem_singleton]
      rintro b (hb | rfl)
      · exact hdigits b hb
      · exact isDigit_digitByte hlast

/-- A number written as a field is read back (45 R450, R451). -/
theorem parseField_decBytes {v : Nat} (hv : v < 2 ^ 1024) : parseField (decBytes v) = some v := by
  obtain ⟨hne, hdigits, hvalue⟩ := decDigits_spec (v + 1) v (Nat.lt_succ_self v)
  exact parseField_eq_some_iff.mpr ⟨hne, hdigits, hvalue, hv⟩

/-- The decimal of a number holds no newline (45 R450). -/
theorem newline_notMem_decBytes (v : Nat) : newline ∉ decBytes v := by
  intro hmem
  obtain ⟨-, hdigits, -⟩ := decDigits_spec (v + 1) v (Nat.lt_succ_self v)
  exact absurd (hdigits newline hmem) (by decide)

/-- A line without a newline in it, ended by one, is the first field (45 R451). -/
theorem splitLines_line {line : List Byte} (h : newline ∉ line) (rest : List Byte) :
    splitLines (line ++ newline :: rest) = line :: splitLines rest := by
  induction line with
  | nil => exact if_pos rfl
  | cons b line ih =>
    obtain ⟨hb, hline⟩ := not_or.mp (mt List.mem_cons.mpr h)
    rw [List.cons_append, splitLines, if_neg (Ne.symm hb), ih hline]

/-- The fields of a written key file: the three decimals, and the empty one after the last newline (45 R450, R451). -/
theorem splitLines_serialize (n e d : Nat) :
    splitLines (serialize n e d) = [decBytes n, decBytes e, decBytes d, []] := by
  have hlines : serialize n e d =
      decBytes n ++ newline :: (decBytes e ++ newline :: (decBytes d ++ newline :: [])) := by simp [serialize]
  rw [hlines, splitLines_line (newline_notMem_decBytes n), splitLines_line (newline_notMem_decBytes e),
    splitLines_line (newline_notMem_decBytes d), splitLines]

/-- Settles O58: the three lines are the fields, and each is read back as the number written. -/
theorem keyFileRoundTrip : Obligations.KeyFileRoundTrip := by
  intro n e d hn he hd
  exact deserialize_eq_some_iff.mpr ⟨_, _, _, _, splitLines_serialize n e d,
    parseField_decBytes hn, parseField_decBytes he, parseField_decBytes hd⟩

/-! ### A command issued, polled and checked -/

/-- The engine left alone with its source: its turn, in a state that differs by the bytes drawn (20 R120, 44 R403). -/
theorem settle_engine (bytes : List Byte) : ∀ s : State,
    ∃ c, (settle bytes s).engine = afterTurn { s with ctx := c } := by
  induction bytes with
  | nil => intro s; exact ⟨s.ctx, rfl⟩
  | cons b bytes ih =>
    intro s
    rw [settle]
    split
    · next hreq =>
      obtain ⟨c, hc⟩ := ih (deliver b s)
      exact ⟨c, by rw [hc, deliver, if_pos hreq]⟩
    · exact ⟨s.ctx, rfl⟩

/-- The state after the engine's turn is the one the turn answers (44 R403). -/
theorem afterTurn_eq {s t : State} (h : engineTurn s = .next t) : afterTurn s = t := by
  rw [afterTurn, h]

/-- What the engine's turn leaves while a command runs: the same state, or the completion of the command in CMD
(44 R403, R406). -/
theorem afterTurn_of_busy {s : State} (hbusy : s.status.busy = true) :
    afterTurn s = s ∨ (∃ c, afterTurn s = raiseError c s) ∨
      ∃ i u, decodeWord s.cmd = .command i ∧ resultOf i s = .success u ∧ afterTurn s = finish u := by
  cases hreq : s.entReq with
  | true => exact .inl (afterTurn_eq (engineTurn_waiting hreq))
  | false =>
    obtain ⟨t, ht⟩ := engineTurn_next s
    rw [afterTurn_eq ht]
    rcases engineTurn_not_waiting hbusy hreq ht with ⟨c, -, hc⟩ | hdone
    · exact .inr (.inl ⟨c, hc⟩)
    · exact .inr (.inr hdone)

/-- The engine's turn keeps CMDLOST (44 R403). -/
theorem afterTurn_cmdLost (s : State) : (afterTurn s).status.cmdLost = s.status.cmdLost := by
  cases hbusy : s.status.busy with
  | false => rw [afterTurn_eq (by rw [engineTurn, if_neg (by simp [hbusy])])]
  | true =>
    rcases afterTurn_of_busy hbusy with h | ⟨c, h⟩ | ⟨i, u, -, hu, h⟩
    · rw [h]
    · rw [h, raiseError_status, Status.failed_cmdLost]
    · obtain ⟨-, -, -, -, -, -, -, -, -, -, -, -, hlost⟩ := success_keeps hu
      rw [h, finish_status, Status.completed_cmdLost, hlost]

/-- The engine after a command word was written and polled: it took its turn with the word accepted or dropped, and then
answered the poll (30 R173). -/
theorem issueWord_engine (r : Rig) (w : Word) : ∃ t a, (r.issueWord w).engine = (afterTurn t).answer a ∧
    t.cmd = (issueCommand w r.engine).cmd ∧ t.status = (issueCommand w r.engine).status := by
  have hw : (r.wr Loc.cmd.addr w).engine = (issueCommand w r.engine).answer { err := false, rdata := none } :=
    writeStep_addr (l := .cmd) (accessible_of_unblocked rfl r.engine) rfl w
  obtain ⟨c, hc⟩ := settle_engine (r.wr Loc.cmd.addr w).entropy (r.wr Loc.cmd.addr w).engine
  rw [Rig.issueWord, Rig.poll, rd_engine, hc, hw]
  exact ⟨_, _, rfl, rfl, rfl⟩

/-- A check ends as finished only when STATUS shows BUSY, CMDLOST and ERRF at 0, and it leaves nothing but a bus answer
(70 R622). -/
theorem check_finished {r : Rig} (h : r.check.1 = .finished) : r.engine.status.busy = false ∧
    r.engine.status.cmdLost = false ∧ r.engine.status.errf = false ∧ ∃ a, r.check.2.engine = r.engine.answer a := by
  obtain ⟨hbusy, -, herrf, -, -, hlost⟩ := status_bits r.engine.status
  simp only [Rig.check, rd_status, hbusy, herrf, hlost] at h ⊢
  split_ifs at h ⊢ with h0 h8 h2
  exact ⟨Bool.eq_false_iff.mpr h0, Bool.eq_false_iff.mpr h8, Bool.eq_false_iff.mpr h2, _, rfl⟩

/-! ### The output of one ENCBLK -/

/-- A success of ENCBLK leaves a block of 128 bytes in OBUF (42 R340, 43 R360). -/
theorem obufLen_of_encblk {s u : State} (h : resultOf .encblk s = .success u) : u.obufLen = 128#8 := by
  simp only [resultOf, encblkResult, storeBlock] at h
  repeat' split at h
  all_goals cases h
  rfl

/-- A running ENCBLK whose turn ended it without an error has its block in OBUF (44 R403). -/
theorem obufLen_of_completed_encblk {s : State} (hcmd : s.cmd = encode .encblk) (hbusy : s.status.busy = true)
    (hidle : (afterTurn s).status.busy = false) (herrf : (afterTurn s).status.errf = false) :
    (afterTurn s).obufLen = 128#8 := by
  have hdecode : decodeWord s.cmd = .command .encblk := by
    rw [hcmd]
    exact decodeOfEncodeIsTheCommand .encblk rfl
  rcases afterTurn_of_busy hbusy with hwait | ⟨c, hfail⟩ | ⟨i, u, hi, hu, hdone⟩
  · rw [hwait, hbusy] at hidle
    cases hidle
  · rw [hfail] at herrf
    cases herrf
  · rw [hdecode] at hi
    cases hi
    rw [hdone, finish_obufLen]
    exact obufLen_of_encblk hu

/-- An ENCBLK that is issued and found finished was accepted and completed, so its block is in OBUF (45 R431). -/
theorem obufLen_of_finished_encblk {r : Rig} (h : (r.issue .encblk).check.1 = .finished) :
    (r.issue .encblk).check.2.engine.status.busy = false ∧ (r.issue .encblk).check.2.engine.obufLen = 128#8 := by
  obtain ⟨hidle, hlost, herrf, a, hcheck⟩ := check_finished h
  obtain ⟨t, a', hissue, hcmd, hstatus⟩ := issueWord_engine r (encode .encblk)
  rw [hcheck, answer_status, answer_obufLen]
  refine ⟨hidle, ?_⟩
  rw [Rig.issue, hissue] at hidle hlost herrf ⊢
  by_cases hacc : r.engine.acceptable = true
  · rw [issueCommand, if_pos hacc] at hcmd hstatus
    exact obufLen_of_completed_encblk hcmd (by rw [hstatus]; rfl) hidle herrf
  · rw [issueCommand, if_neg hacc] at hstatus
    rw [answer_status, afterTurn_cmdLost, hstatus] at hlost
    cases hlost

/-- A read of each address gives a word (30 R172). -/
theorem rdAll_length (as : List (BitVec 12)) : ∀ r : Rig, (r.rdAll as).1.length = as.length := by
  induction as with
  | nil => intro r; rfl
  | cons a as ih => intro r; rw [Rig.rdAll, List.length_cons, ih, List.length_cons]

/-- READBUF of an idle engine gives as many bytes as OBUF_LEN says (30 R175). -/
theorem readBuf_length {r : Rig} (hidle : r.engine.status.busy = false) :
    r.readBuf.1.length = r.engine.obufLen.toNat := by
  have hlen : (r.rd Loc.obufLen.addr).1.toNat = r.engine.obufLen.toNat := by
    rw [rd_word (accessible_of_idle hidle _)]
    exact toNat_zeroExtend_byte _
  simp only [Rig.readBuf, hlen, List.length_take, List.length_flatMap, beBytes_length, List.map_const',
    List.sum_replicate, rdAll_length, List.length_map, List.length_range, smul_eq_mul]
  omega

/-! ### The stream loop -/

/-- What a destination holds after an append (45 R430). -/
theorem bytes_of_append {dst dst' : Sink} {b : List Byte} (h : dst.append b = some dst') :
    dst'.bytes = dst.bytes ++ b := by
  unfold Sink.append at h
  repeat' split at h
  all_goals cases h
  all_goals rfl

/-- What a source holds after a read (45 R430). -/
theorem bytes_of_read {src rest : Source} {n : Nat} {s : List Byte} (h : src.read n = some (s, rest)) :
    rest.bytes = src.bytes.drop n := by
  unfold Source.read at h
  split at h <;> cases h
  rfl

/-- A source that can be peeked has a byte to read exactly while it is not empty (45 R430). -/
theorem bytes_of_peek {src : Source} {more : Bool} (h : src.peek = some more) : more = true ↔ src.bytes ≠ [] := by
  unfold Source.peek at h
  split_ifs at h with hempty <;> cases h
  · simp [hempty]
  · simp [hempty]

/-- A finished turn of encrypt appends the 128 bytes of its block (45 R431). -/
theorem length_of_encrypted_block {s : List Byte} {dst : Sink} {r : Rig}
    (h : (streamBlock .encblk s dst r).how = .finished) :
    (streamBlock .encblk s dst r).dst.bytes.length = dst.bytes.length + 128 := by
  cases hrun : ((r.loadBuf s).issue .encblk).check.1 with
  | finished =>
    obtain ⟨hidle, hlen⟩ := obufLen_of_finished_encblk hrun
    simp only [streamBlock, hrun] at h ⊢
    cases happend : dst.append ((r.loadBuf s).issue .encblk).check.2.readBuf.1 with
    | none => simp [happend] at h
    | some dst' =>
      rw [bytes_of_append happend, List.length_append, readBuf_length hidle, hlen]
      rfl
  | _ => simp [streamBlock, hrun] at h

/-- A stream loop that finishes has an empty source and leaves the destination as it was, or has finished one turn and
then the loop on what is left of the source (45 R431, R440). -/
theorem streamLoop_finished {n fuel : Nat} {i : Instr} {src : Source} {dst : Sink} {r : Rig}
    (h : (streamLoop n i (fuel + 1) src dst r).how = .finished) :
    (src.bytes = [] ∧ (streamLoop n i (fuel + 1) src dst r).dst = dst) ∨
      ∃ s rest, src.bytes ≠ [] ∧ rest.bytes = src.bytes.drop n ∧ (streamBlock i s dst r).how = .finished ∧
        streamLoop n i (fuel + 1) src dst r =
          streamLoop n i fuel rest (streamBlock i s dst r).dst (streamBlock i s dst r).rig := by
  rw [streamLoop] at h ⊢
  cases hpeek : src.peek with
  | none => simp [hpeek] at h
  | some more =>
    have hmore := bytes_of_peek hpeek
    cases more with
    | false => exact .inl ⟨by simpa using hmore, rfl⟩
    | true =>
      cases hread : src.read n with
      | none => simp [hpeek, hread] at h
      | some x =>
        obtain ⟨s, rest⟩ := x
        simp only [hpeek, hread] at h
        split_ifs at h with hblock
        · exact .inr ⟨s, rest, hmore.mp rfl, bytes_of_read hread, hblock, if_pos hblock⟩
        · exact absurd h hblock

/-- A finished encrypt loop appends 128 bytes for each 126 bytes of the source, or part of them (45 R432, R433). -/
theorem length_of_encrypted_stream (fuel : Nat) : ∀ (src : Source) (dst : Sink) (r : Rig), src.bytes.length < fuel →
    (streamLoop Config.dataMax .encblk fuel src dst r).how = .finished →
    (streamLoop Config.dataMax .encblk fuel src dst r).dst.bytes.length =
      dst.bytes.length + 128 * ((src.bytes.length + 125) / 126) := by
  induction fuel with
  | zero => intro src dst r hfuel; omega
  | succ fuel ih =>
    intro src dst r hfuel hfin
    rcases streamLoop_finished hfin with ⟨hempty, hdst⟩ | ⟨s, rest, hne, hrest, hblock, hloop⟩
    · rw [hdst, hempty]
      rfl
    · have hpos : 0 < src.bytes.length := List.length_pos_iff.mpr hne
      have hleft : rest.bytes.length = src.bytes.length - 126 := by rw [hrest, List.length_drop, Config.dataMax]
      rw [hloop] at hfin ⊢
      rw [ih rest _ _ (by omega) hfin, length_of_encrypted_block hblock, hleft]
      omega

/-- Settles O57: the loop's fuel is above the source's length. -/
theorem encryptSizeLaw : Obligations.EncryptSizeLaw := by
  intro src dst r
  exact length_of_encrypted_stream _ src dst r (Nat.lt_succ_self _)

end Sys2Proof.Machine

/-!
PROOFS of the statements about exceptions (60_exceptions.md): what a failing command leaves, and when the interrupt line
is 1.
-/
namespace Sys2Proof.Machine

/-! ### Failures -/

/-- Every code but PROTOCOL's is one of 0x01 to 0x08 (60 R501). -/
theorem code_bounds_of_ne_protocol {c : ErrCode} (hc : c ≠ .protocol) : 1 ≤ c.code.toNat ∧ c.code.toNat ≤ 8 := by
  cases c with
  | protocol => exact absurd rfl hc
  | _ => decide

/-- Settles O43: of the three ends of an execution, a wait and a success keep ERRF, so ERRF = 1 leaves the failure. -/
theorem failuresArePrecise : Obligations.FailuresArePrecise := by
  intro i s t hclear h hfail
  rcases exec_cases h with ⟨-, rfl⟩ | ⟨c, hc, -, rfl⟩ | ⟨u, hu, rfl⟩
  · exact absurd hfail (Bool.eq_false_iff.mp hclear)
  · rw [raiseError_eq_failedWith hc]
    obtain ⟨hlow, hhigh⟩ := code_bounds_of_ne_protocol hc
    exact ⟨hlow, hhigh, rfl⟩
  · obtain ⟨-, -, -, -, -, -, -, -, -, -, herrf, -⟩ := success_keeps hu
    have hkept : (finish u).status.errf = false := herrf.trans hclear
    exact absurd hfail (Bool.eq_false_iff.mp hkept)

/-! ### The interrupt line -/

/-- The interrupt line is 1 exactly when an enabled flag is set (60 R520). -/
theorem irq_eq_true_iff {s : State} : s.irq = true ↔
    (s.status.done = true ∧ s.ctrl.ieDone = true) ∨ (s.status.errf = true ∧ s.ctrl.ieErr = true) := by
  simp only [State.irq, Bool.or_eq_true, Bool.and_eq_true]

/-- The line is 0 when both of its flags are, whatever is enabled (60 R520). -/
theorem irq_of_flags_clear {s : State} (hdone : s.status.done = false) (herrf : s.status.errf = false) :
    s.irq = false := by
  rw [State.irq, hdone, herrf, Bool.false_and, Bool.false_and, Bool.or_false]

/-- The engine's turn leaves CTRL as it is, completion or not (44 R403). -/
theorem engineTurn_keeps_ctrl {s t : State} (h : engineTurn s = .next t) : t.ctrl = s.ctrl := by
  rw [engineTurn] at h
  split_ifs at h with hbusy
  · cases hdec : decodeWord s.cmd with
    | command i =>
      rw [hdec] at h
      obtain ⟨-, -, hctrl, -⟩ := commandFrame i s t h
      exact hctrl
    | illegal why =>
      rw [hdec] at h
      cases h
      rfl
  · cases h
    rfl

/-- Settles O53: a completion sets DONE and keeps IE_DONE; the STATUS write clears both flags the line reads. -/
theorem interruptLine : Obligations.InterruptLine := by
  refine ⟨fun s => irq_eq_true_iff, ?rises, ?falls⟩
  case rises =>
    intro s rest hnext hbusy hreq henabled
    obtain ⟨t, hstep, -, hdone, -⟩ := (engineTurnCompletesWhenNoByteIsAwaited s rest hnext hbusy).1 hreq
    have hctrl : t.ctrl = s.ctrl :=
      engineTurn_keeps_ctrl (s := { s with inputs := rest }) ((step_engineNext hnext).symm.trans hstep)
    exact ⟨t, hstep, irq_eq_true_iff.mpr (.inl ⟨hdone, hctrl ▸ henabled⟩)⟩
  case falls =>
    intro s rest hin hfatal
    exact ⟨_, statusWriteClearsOnes s _ rest hin, irq_of_flags_clear rfl (if_pos ⟨rfl, hfatal⟩)⟩

end Sys2Proof.Machine

/-!
PROOFS of the statements about reset and hazards (70_reset_and_hazards.md): the reset values and their legality, the
host's check of a command's outcome, and a key that cannot be generated.
-/
namespace Sys2Proof.Machine

/-! ### Reset -/

/-- Settles O15: each clause reads one field of the reset step's state, and BUSY = 0 keeps ent_req at 0. -/
theorem hardResetLeavesTheResetValues : Obligations.HardResetLeavesTheResetValues := by
  intro s rest hin
  have hw (i : WReg) : (resetStep { s with inputs := rest }).regValue i = 0 := by
    rw [State.regValue, State.getW, resetStep_w, Vector.getElem_replicate, BitVec.toNat_zero]
  have hbuf (j : Fin 128) : (Vector.replicate 128 0#8)[j.val] = 0#8 := Vector.getElem_replicate _
  have hctrl : Ctrl.reset.toWord = 0#32 := by decide
  have hstatus : Status.reset.toWord = 0#32 := by decide
  exact ⟨resetStep { s with inputs := rest }, step_cons hin, hw, rfl, rfl, rfl, fun j => ⟨hbuf j, hbuf j⟩,
    rfl, rfl, hctrl, hstatus, rfl, rfl, rfl, rfl, rfl, rfl, rfl⟩

/-- Settles O44: the reset state is what a reset leaves of itself, and it holds no context. -/
theorem resetStateIsLegal : Obligations.ResetStateIsLegal :=
  ⟨inv_resetStep State.reset, drawsAskedFor_of_no_draws fun _ hc => nomatch hc⟩

/-! ### The host's check of a command (70 R622) -/

/-- The cause the host reads off STATUS: FATAL before ERRF, and BUSY when neither is set (70 R622, log entry 17). -/
theorem dropCause_toWord (f : Status) :
    dropCause f.toWord = if f.fatal then .fatal else if f.errf then .error else .busy := by
  obtain ⟨-, -, herrf, hfatal, -, -⟩ := status_bits f
  rw [dropCause, herrf, hfatal]

/-- Which cause a drop is given (70 R622, log entry 17). -/
theorem dropCause_iff (f : Status) : (dropCause f.toWord = .fatal ↔ f.fatal = true) ∧
    (dropCause f.toWord = .error ↔ f.fatal = false ∧ f.errf = true) := by
  rw [dropCause_toWord]
  cases f.fatal <;> cases f.errf <;> decide

/-- A byte register read through a bus word is the byte (10 R52). -/
theorem truncate_zeroExtend_byte (b : Byte) : (b.zeroExtend 32).truncate 8 = b := by
  rw [BitVec.zeroExtend, BitVec.truncate, BitVec.setWidth_setWidth_of_le b (by decide), BitVec.setWidth_eq]

/-- The host's clear of CMDLOST, on the whole rig (70 R622). -/
theorem clrLost_eq (r : Rig) : r.clrLost = { r with
    engine := { r.engine with
      status := { r.engine.status with cmdLost := false }
      resp := some { err := false, rdata := none } } } :=
  congrArg (fun s => { r with engine := s }) (clrLost_engine r)

section
variable {r : Rig} (hidle : r.engine.status.busy = false)
include hidle

/-- With CMDLOST = 1 the check ends as dropped, and clears CMDLOST (70 R622). -/
theorem check_of_lost (hlost : r.engine.status.cmdLost = true) : ∃ a, r.check =
    (.dropped (dropCause r.engine.status.toWord) r.engine.err r.engine.cmd,
      { r with engine := { r.engine with status := { r.engine.status with cmdLost := false }, resp := a } }) := by
  obtain ⟨hbusy, -, -, -, -, hbit⟩ := status_bits r.engine.status
  refine ⟨r.check.2.engine.resp, ?_⟩
  simp only [Rig.check, rd_status, rd_err, rd_cmd, hbusy.trans hidle, hbit.trans hlost, Bool.false_eq_true,
    if_false, if_true, clrLost_eq, rd_engine, truncate_zeroExtend_byte]
  rfl

/-- With CMDLOST = 0 and ERRF = 1 the check ends as the engine's error (70 R622). -/
theorem check_of_failed (hlost : r.engine.status.cmdLost = false) (herrf : r.engine.status.errf = true) : ∃ a, r.check =
    (.engineError r.engine.err r.engine.cmd, { r with engine := { r.engine with resp := a } }) := by
  obtain ⟨hbusy, -, hfail, -, -, hbit⟩ := status_bits r.engine.status
  refine ⟨r.check.2.engine.resp, ?_⟩
  simp only [Rig.check, rd_status, rd_err, rd_cmd, hbusy.trans hidle, hbit.trans hlost, hfail.trans herrf,
    Bool.false_eq_true, if_false, if_true, rd_engine, truncate_zeroExtend_byte]
  rfl

/-- With CMDLOST = ERRF = 0 the check ends as finished (70 R622). -/
theorem check_of_succeeded (hlost : r.engine.status.cmdLost = false) (herrf : r.engine.status.errf = false) :
    ∃ a, r.check = (.finished, { r with engine := { r.engine with resp := a } }) := by
  obtain ⟨hbusy, -, hfail, -, -, hbit⟩ := status_bits r.engine.status
  refine ⟨r.check.2.engine.resp, ?_⟩
  simp only [Rig.check, rd_status, hbusy.trans hidle, hbit.trans hlost, hfail.trans herrf, Bool.false_eq_true,
    if_false]
  rfl

end

/-! ### A command that is accepted and draws nothing -/

/-- The host sees an engine that can accept a command, and no drop left from an earlier one (70 R622, R624). -/
def State.ready (s : State) : Prop := s.acceptable = true ∧ s.status.cmdLost = false

/-- Whether an engine is ready shows in its STATUS alone. -/
theorem ready_of_status_eq {s t : State} (h : t.status = s.status) (hs : s.ready) : t.ready := by
  rwa [State.ready, State.acceptable, h]

/-- The engine right after the CMD write of an accepted command (44 R400). -/
def State.issued (s : State) (i : Instr) : State := (accept (encode i) s).answer { err := false, rdata := none }

/-- The CMD write of an acceptable engine (44 R400). -/
theorem wr_cmd_of_acceptable {r : Rig} (hacc : r.engine.acceptable = true) (i : Instr) :
    (r.wr Loc.cmd.addr (encode i)).engine = r.engine.issued i := by
  rw [wr_engine, writeStep_addr (accessible_of_unblocked rfl r.engine) rfl, writeLoc, issueCommand, if_pos hacc]
  rfl

/-- With no byte asked for the source keeps its bytes, and the engine has its turn (44 R403). -/
theorem settle_of_not_entReq {s : State} (h : s.entReq = false) (bytes : List Byte) :
    settle bytes s = { engine := afterTurn s, entropy := bytes } := by
  cases bytes with
  | nil => rfl
  | cons b bytes => rw [settle, h, if_neg Bool.false_ne_true]

section
variable {r : Rig} {i : Instr} (hwf : i.wf = true)
include hwf

/-- A command that does not wait is accepted and completes, and the poll adds a bus answer (30 R173). -/
theorem issue_engine (hacc : r.engine.acceptable = true) (hwait : (resultOf i (r.engine.issued i)).isWaiting = false)
    {t : State} (hexec : exec i (r.engine.issued i) = .next t) : ∃ a, (r.issue i).engine = t.answer a := by
  have hbusy : (r.engine.issued i).status.busy = true := rfl
  have hdecode : decodeWord (r.engine.issued i).cmd = .command i := decodeOfEncodeIsTheCommand i hwf
  have hreq : (r.engine.issued i).entReq = false := by
    rw [entReq_of_command hbusy hdecode, wantsByte_eq_isWaiting, hwait]
  have hturn : engineTurn (r.engine.issued i) = .next t := by
    rw [engineTurn, if_pos hbusy, hdecode, ← hexec]
  rw [Rig.issue, Rig.issueWord, Rig.poll, rd_engine, wr_cmd_of_acceptable hacc, settle_of_not_entReq hreq,
    afterTurn_eq hturn]
  exact ⟨_, rfl⟩

/-- A command that fails is found failed, with its code (70 R622). -/
theorem run_of_failure (hready : r.engine.ready) {c : ErrCode} (h : resultOf i (r.engine.issued i) = .failure c) :
    ∃ w, (r.run i).1 = .engineError c.code w := by
  obtain ⟨hacc, hlost⟩ := hready
  obtain ⟨a, ha⟩ := issue_engine hwf hacc (by rw [h]; rfl) (exec_of_failure h)
  obtain ⟨a', hend⟩ :=
    check_of_failed (r := r.issue i) (by rw [ha]; rfl) (by rw [ha]; exact hlost) (by rw [ha]; rfl)
  rw [Rig.run, hend, ha]
  exact ⟨_, rfl⟩

/-- A command that succeeds is found finished, and the engine is ready for the next one (70 R622). -/
theorem run_of_success (hready : r.engine.ready) {u : State} (h : resultOf i (r.engine.issued i) = .success u) :
    (r.run i).1 = .finished ∧ (r.run i).2.engine.ready ∧
      (r.run i).2.engine.status.keyValid = u.status.keyValid := by
  obtain ⟨hacc, hlost⟩ := hready
  obtain ⟨-, herrf, hfatal⟩ := acceptable_iff.mp hacc
  obtain ⟨-, -, -, -, -, -, -, -, -, -, herrf', hfatal', hlost'⟩ := success_keeps h
  obtain ⟨a, ha⟩ := issue_engine hwf hacc (by rw [h]; rfl) (exec_of_success h)
  have hidle : (r.issue i).engine.status.busy = false := by rw [ha]; rfl
  have herr : (r.issue i).engine.status.errf = false := by rw [ha]; exact herrf'.trans herrf
  have hlive : (r.issue i).engine.status.fatal = false := by rw [ha]; exact hfatal'.trans hfatal
  have hkept : (r.issue i).engine.status.cmdLost = false := by rw [ha]; exact hlost'.trans hlost
  obtain ⟨a', hend⟩ := check_of_succeeded hidle hkept herr
  rw [Rig.run, hend]
  exact ⟨rfl, ⟨acceptable_iff.mpr ⟨hidle, herr, hlive⟩, hkept⟩, by rw [ha]; rfl⟩

end

/-! ### A key that cannot be generated (45 R460) -/

/-- Releasing the key of a ready engine finishes, and leaves it ready and without a key (45 R460). -/
theorem releaseKey_of_ready {r : Rig} (hready : r.engine.ready) :
    r.releaseKey.1 = .finished ∧ r.releaseKey.2.engine.ready ∧ r.releaseKey.2.engine.status.keyValid = false := by
  obtain ⟨-, -, -, -, hbit, -⟩ := status_bits r.engine.status
  rw [Rig.releaseKey, rd_status, hbit]
  cases hkey : r.engine.status.keyValid with
  | false => exact ⟨rfl, hready, hkey⟩
  | true => exact run_of_success (r := (r.rd Loc.status.addr).2) (i := .keyclr) rfl hready rfl

/-- LOADW of w0, w1, w2 on an idle engine: the three values, and STATUS as it was (30 R174). -/
theorem loadW_three {r : Rig} (hidle : r.engine.status.busy = false) (a b c : Wide) {t : State}
    (ht : t = (((r.loadW 0 a).loadW 1 b).loadW 2 c).engine) : t.status = r.engine.status ∧
      t.regValue 0 = a.toNat ∧ t.regValue 1 = b.toNat ∧ t.regValue 2 = c.toNat := by
  obtain ⟨x, hx⟩ := loadW_engine hidle 0 a
  obtain ⟨y, hy⟩ := loadW_engine (r := r.loadW 0 a) (by rw [hx]; exact hidle) 1 b
  obtain ⟨z, hz⟩ := loadW_engine (r := (r.loadW 0 a).loadW 1 b) (by rw [hy, hx]; exact hidle) 2 c
  have hreg (j : WReg) : t.regValue j = (((r.engine.setW 0 a).setW 1 b).setW 2 c).regValue j := by
    rw [ht, hz, hy, hx]
    rfl
  refine ⟨by rw [ht, hz, hy, hx]; rfl, ?_, ?_, ?_⟩ <;> simp [hreg, regValue_setW]

/-- KEYGEN on admissible primes whose e is not coprime to (p-1)(q-1) is found failed with GENERATION (41 R254). -/
theorem run_keygen_generation {r : Rig} (hready : r.engine.ready) (hfree : r.engine.status.keyValid = false)
    {rs1 rs2 rs3 : WReg} (hp : 2 ≤ r.engine.regValue rs1) (hq : 2 ≤ r.engine.regValue rs2)
    (hn : r.engine.regValue rs1 * r.engine.regValue rs2 < 2 ^ 1024)
    (hgcd : Nat.gcd (r.engine.regValue rs3) ((r.engine.regValue rs1 - 1) * (r.engine.regValue rs2 - 1)) ≠ 1) :
    ∃ w, (r.run (.keygen rs1 rs2 rs3)).1 = .engineError ErrCode.generation.code w :=
  run_of_failure rfl hready (resultOf_keygen_of_none hfree hp hq hn (modInverse_none hgcd))

/-- newCipher on a ready engine returns GenerationError for e not coprime to (p-1)(q-1), key held or not (45 R460). -/
theorem newCipher_generation {p q e : Wide} {r : Rig} (hready : r.engine.ready) (hp : 2 ≤ p.toNat) (hq : 2 ≤ q.toNat)
    (hn : p.toNat * q.toNat < 2 ^ 1024) (hgcd : Nat.gcd e.toNat ((p.toNat - 1) * (q.toNat - 1)) ≠ 1) :
    (newCipher p q e r).how = .failed .generationError := by
  obtain ⟨hend, hreleased, hfree⟩ := releaseKey_of_ready hready
  obtain ⟨hidle, -, -⟩ := acceptable_iff.mp hreleased.1
  obtain ⟨hstatus, hw0, hw1, hw2⟩ := loadW_three hidle p q e rfl
  obtain ⟨w, hrun⟩ := run_keygen_generation (rs1 := 0) (rs2 := 1) (rs3 := 2) (ready_of_status_eq hstatus hreleased)
    (by rw [hstatus]; exact hfree) (by rwa [hw0]) (by rwa [hw1]) (by rwa [hw0, hw1]) (by rwa [hw0, hw1, hw2])
  rw [newCipher, ApiResult.ofEnd, Rig.installKey, if_pos hend, hrun, report_engineError]
  rfl

/-- Settles O60: one case of the check for each value of CMDLOST and ERRF, the kind of each code, and a KEYGEN that
fails with GENERATION after the held key is released. -/
theorem hostCheckAndReport : Obligations.HostCheckAndReport := by
  refine ⟨fun r hidle => ?check, fun w => ⟨report_engineError .generation w, report_engineError .noInverse w,
    report_engineError .protocol w, ?noKind⟩, ?generation⟩
  case check =>
    cases hlost : r.engine.status.cmdLost with
    | true =>
      obtain ⟨a, ha⟩ := check_of_lost hidle hlost
      obtain ⟨hfatal, herror⟩ := dropCause_iff r.engine.status
      exact ⟨a, fun _ => ⟨_, ha, hfatal, herror⟩, nofun, nofun⟩
    | false =>
      cases herrf : r.engine.status.errf with
      | true =>
        obtain ⟨a, ha⟩ := check_of_failed hidle hlost herrf
        exact ⟨a, nofun, fun _ _ => ha, nofun⟩
      | false =>
        obtain ⟨a, ha⟩ := check_of_succeeded hidle hlost herrf
        exact ⟨a, nofun, nofun, fun _ _ => ha⟩
  case noKind =>
    intro c hc
    fin_cases hc
    exacts [report_engineError .illegal w, report_engineError .noKey w, report_engineError .keyLocked w,
      report_engineError .empty w, report_engineError .len w, report_engineError .arg w]
  case generation =>
    intro p q e r hidle herrf hfatal hlost hp hq hn hgcd
    exact newCipher_generation ⟨acceptable_iff.mpr ⟨hidle, herrf, hfatal⟩, hlost⟩ hp hq hn hgcd

end Sys2Proof.Machine

/-!
PROOFS of the statements about the machine's steps and failures (20_memory.md, 30_encoding.md, 44_control.md): what the
engine's turn does with the word in CMD, that every step answers a next state, the delivery of a byte, and the failures
of ENCBLK and DECBLK without a key or a modulus.
-/
namespace Sys2Proof.Machine

/-! ### The engine's turn on the word in CMD -/

/-- While BUSY = 1 the engine's turn is the completion of the command in CMD (44 R403). -/
theorem engineTurn_of_command {s : State} {i : Instr} (hbusy : s.status.busy = true)
    (hcmd : decodeWord s.cmd = .command i) : engineTurn s = exec i s := by
  rw [engineTurn, if_pos hbusy, hcmd]

/-- While BUSY = 1 the engine's turn fails an illegal word in CMD with ILLEGAL (30 R158). -/
theorem engineTurn_of_illegal {s : State} {why : Illegal} (hbusy : s.status.busy = true)
    (hcmd : decodeWord s.cmd = .illegal why) : engineTurn s = .next (s.failedWith 0x01#8) := by
  rw [engineTurn, if_pos hbusy, hcmd]
  exact congrArg _ (raiseError_eq_failedWith (c := .illegal) (by decide) s)

/-- Settles O7: the step is the engine's turn, on a state that differs in its pending events only. -/
theorem stepRunsTheDecodedCommand : Obligations.StepRunsTheDecodedCommand := by
  intro s rest i hnext hbusy hcmd
  exact (step_engineNext hnext).trans (engineTurn_of_command hbusy hcmd)

/-- Settles O8: the step is the engine's turn, and its failure is the ILLEGAL one. -/
theorem stepFailsAnIllegalWord : Obligations.StepFailsAnIllegalWord := by
  intro s rest why hnext hbusy hcmd
  exact (step_engineNext hnext).trans (engineTurn_of_illegal hbusy hcmd)

/-! ### No step stops the machine -/

/-- The completion of any result answers a next state (44 R403, R405). -/
theorem complete_next (s : State) (r : CmdResult) : ∃ t, complete s r = .next t := by
  cases r with
  | success t => exact ⟨finish t, rfl⟩
  | failure c => exact ⟨raiseError c s, rfl⟩
  | waiting => exact ⟨s, rfl⟩

/-- Every event answers a next state (44 R420). -/
theorem perform_next (e : Input) (s : State) : ∃ t, perform e s = .next t := by
  cases e with
  | read a size => exact ⟨readStep a size s, rfl⟩
  | write a size v => exact ⟨writeStep a size v s, rfl⟩
  | entropy b => exact ⟨deliver b s, rfl⟩
  | engine => exact engineTurn_next s
  | hardReset => exact ⟨resetStep s, rfl⟩

/-- Settles O9: a command is the completion of one result, a step one event or the engine's turn. -/
theorem everyStepHasANextState : Obligations.EveryStepHasANextState := by
  refine ⟨fun i s => ?command, fun s => ?step⟩
  case command =>
    rw [exec_eq]
    exact complete_next s (resultOf i s)
  case step =>
    cases hin : s.inputs with
    | nil =>
      rw [step_engineNext (.inl ⟨hin, rfl⟩)]
      exact engineTurn_next _
    | cons e rest =>
      rw [step_cons hin]
      exact perform_next e _

/-! ### The delivery of a byte -/

/-- An offered byte is taken while ent_req is 1 (20 R120). -/
theorem deliver_of_entReq {s : State} {c : Ctx} (hreq : s.entReq = true) (hctx : s.ctx = some c) (b : Byte) :
    deliver b s = { s with ctx := some { padz := c.padz, drawn := c.drawn ++ [b] } } := by
  rw [deliver, if_pos hreq, runningCtx_of_some hctx]

/-- An offered byte is not taken while ent_req is 0 (log entry 3). -/
theorem deliver_of_not_entReq {s : State} (hreq : s.entReq = false) (b : Byte) : deliver b s = s :=
  if_neg (Bool.eq_false_iff.mp hreq)

/-- Settles O13: ent_req does not read the pending events, so it is the same when the offer is taken from them. -/
theorem entropyDelivery : Obligations.EntropyDelivery := by
  intro s b c rest hin hctx
  rw [step_cons hin, perform, ← entReq_inputs s rest]
  exact ⟨fun hreq => congrArg _ (deliver_of_entReq hreq hctx b),
    fun hreq => congrArg _ (deliver_of_not_entReq hreq b)⟩

/-! ### The failures of ENCBLK and DECBLK for the key -/

/-- ENCBLK without a key fails with NO_KEY (43 R360). -/
theorem resultOf_encblk_of_no_key {s : State} (hkey : s.status.keyValid = false) :
    resultOf .encblk s = .failure .noKey := by
  rw [resultOf, encblkResult, if_pos (by simp [hkey])]

/-- DECBLK without a key fails with NO_KEY (43 R370). -/
theorem resultOf_decblk_of_no_key {s : State} (hkey : s.status.keyValid = false) :
    resultOf .decblk s = .failure .noKey := by
  rw [resultOf, decblkResult, if_pos (by simp [hkey])]

/-- ENCBLK of a legal length with a zero modulus fails with ARG (43 R360). -/
theorem resultOf_encblk_of_zero_modulus {s : State} (hkey : s.status.keyValid = true) (hn : s.kn = 0#1024)
    (h1 : 1 ≤ s.ibufCount) (h126 : s.ibufCount ≤ 126) : resultOf .encblk s = .failure .arg := by
  rw [resultOf, encblkResult, if_neg (by simp [hkey]), if_neg (by omega), if_neg h126.not_gt,
    if_pos (by rw [hn, BitVec.toNat_zero])]

/-- DECBLK of a full block with a zero modulus fails with ARG (43 R370). -/
theorem resultOf_decblk_of_zero_modulus {s : State} (hkey : s.status.keyValid = true) (hn : s.kn = 0#1024)
    (h128 : s.ibufCount = 128) : resultOf .decblk s = .failure .arg := by
  rw [resultOf, decblkResult, if_neg (by simp [hkey]), if_neg (not_not.mpr h128),
    if_pos (by rw [hn, BitVec.toNat_zero])]

/-- Settles O30: one result per failure. -/
theorem pipelineKeyAndModulusFailures : Obligations.PipelineKeyAndModulusFailures := by
  intro s
  exact ⟨fun hkey => ⟨exec_of_failure (resultOf_encblk_of_no_key hkey),
      exec_of_failure (resultOf_decblk_of_no_key hkey)⟩,
    fun hkey hn h1 h126 => exec_of_failure (resultOf_encblk_of_zero_modulus hkey hn h1 h126),
    fun hkey hn h128 => exec_of_failure (resultOf_decblk_of_zero_modulus hkey hn h128)⟩

end Sys2Proof.Machine

/-!
PROOFS of the statement about the assembler form (30 R170, R171): the text of a command has no comment and no space at
its ends, its first word is the mnemonic of one row of the opcode map, and the rest are its operands.
-/
namespace Sys2Proof.Machine

/-! ### Spaces at the ends of a text -/

/-- A text that does not begin with a space has no leading spaces to drop. -/
theorem dropSpaces_of_head {t : List Char} (h : t.head? ≠ some ' ') : t.dropWhile (fun c => c == ' ') = t := by
  cases t with
  | nil => rfl
  | cons c t => exact List.dropWhile_cons_of_neg (by simpa using h)

/-- A text with no space at either end is trimmed to itself (log entry 16). -/
theorem trimSpaces_of_ends {t : List Char} (hhead : t.head? ≠ some ' ') (hlast : t.getLast? ≠ some ' ') :
    trimSpaces t = t := by
  rw [← List.head?_reverse] at hlast
  rw [trimSpaces, dropSpaces_of_head hhead, dropSpaces_of_head hlast, List.reverse_reverse]

/-- A leading space is trimmed (log entry 16). -/
theorem trimSpaces_space_cons (t : List Char) : trimSpaces (' ' :: t) = trimSpaces t := by
  rw [trimSpaces, List.dropWhile_cons_of_pos (by decide), ← trimSpaces]

/-! ### The operands -/

/-- The characters of a register name (30 R170). -/
theorem regName_chars (r : WReg) : ',' ∉ regName r ∧ ';' ∉ regName r := by decide +revert

/-- A register name begins with w and does not end with a space (30 R170). -/
theorem regName_ends (r : WReg) : (regName r).head? = some 'w' ∧ (regName r).getLast? ≠ some ' ' := by
  decide +revert

/-- A register name, also after a space, is read back (30 R170, log entry 16). -/
theorem readReg_space_regName (r : WReg) : readReg (' ' :: regName r) = some r := by decide +revert

/-- A first operand that is not the last one is followed by a comma and a space (30 R170, log entry 16). -/
theorem joinOperands_cons_cons (r r' : WReg) (rs : List WReg) :
    joinOperands (r :: r' :: rs) = regName r ++ ',' :: ' ' :: joinOperands (r' :: rs) := by
  simp [joinOperands]

/-- Written operands begin with w, as the first of them does. -/
theorem joinOperands_head (r : WReg) (rs : List WReg) : (joinOperands (r :: rs)).head? = some 'w' := by
  obtain ⟨hhead, -⟩ := regName_ends r
  cases rs with
  | nil => exact hhead
  | cons r' rs => rw [joinOperands_cons_cons, List.head?_append, hhead, Option.some_or]

/-- There is text for at least one operand. -/
theorem joinOperands_ne_nil (r : WReg) (rs : List WReg) : joinOperands (r :: rs) ≠ [] := by
  intro hnil
  simpa [hnil] using joinOperands_head r rs

/-- Written operands do not end with a space, as the last of them does not. -/
theorem joinOperands_getLast (r : WReg) (rs : List WReg) : (joinOperands (r :: rs)).getLast? ≠ some ' ' := by
  induction rs generalizing r with
  | nil => exact (regName_ends r).2
  | cons r' rs ih =>
    rw [joinOperands_cons_cons, List.append_cons, List.append_cons,
      List.getLast?_append_of_ne_nil _ (joinOperands_ne_nil r' rs)]
    exact ih r'

/-- Written operands hold no semicolon (30 R170). -/
theorem semicolon_notMem_joinOperands (ops : List WReg) : ';' ∉ joinOperands ops := by
  induction ops with
  | nil => exact List.not_mem_nil
  | cons r rs ih =>
    obtain ⟨-, hname⟩ := regName_chars r
    cases rs with
    | nil => exact hname
    | cons r' rs => simp [joinOperands_cons_cons, hname, ih]

/-- A text without a comma is one piece. -/
theorem splitCommas_piece {piece : List Char} (h : ',' ∉ piece) : splitCommas piece = [piece] := by
  induction piece with
  | nil => rfl
  | cons c piece ih =>
    obtain ⟨hc, hpiece⟩ := not_or.mp (mt List.mem_cons.mpr h)
    rw [splitCommas, if_neg (Ne.symm hc), ih hpiece]

/-- A piece without a comma, ended by one, is the first piece. -/
theorem splitCommas_piece_comma {piece : List Char} (h : ',' ∉ piece) (rest : List Char) :
    splitCommas (piece ++ ',' :: rest) = piece :: splitCommas rest := by
  induction piece with
  | nil => exact if_pos rfl
  | cons c piece ih =>
    obtain ⟨hc, hpiece⟩ := not_or.mp (mt List.mem_cons.mpr h)
    rw [List.cons_append, splitCommas, if_neg (Ne.symm hc), ih hpiece]

/-- The pieces of written operands after a space are the register names, each after a space. -/
theorem splitCommas_joinOperands (r : WReg) (rs : List WReg) :
    splitCommas (' ' :: joinOperands (r :: rs)) = (r :: rs).map (fun r => ' ' :: regName r) := by
  have hcomma (r : WReg) : ',' ∉ ' ' :: regName r := by simp [(regName_chars r).1]
  induction rs generalizing r with
  | nil => exact splitCommas_piece (hcomma r)
  | cons r' rs ih =>
    rw [joinOperands_cons_cons, ← List.cons_append, splitCommas_piece_comma (hcomma r), ih]
    rfl

/-- The operands as they follow the mnemonic: nothing, or a space and the names (30 R170). -/
def operandText : List WReg → List Char
  | [] => []
  | r :: rs => ' ' :: joinOperands (r :: rs)

/-- The register names, each after a space, are read back in order. -/
theorem mapM_readReg (ops : List WReg) : (ops.map (fun r => ' ' :: regName r)).mapM readReg = some ops := by
  induction ops with
  | nil => rfl
  | cons r rs ih => simp [readReg_space_regName, ih]

/-- Written operands are read back (30 R170). -/
theorem readOperands_operandText (ops : List WReg) : readOperands (operandText ops) = some ops := by
  cases ops with
  | nil => rfl
  | cons r rs =>
    have htrim : trimSpaces (operandText (r :: rs)) = joinOperands (r :: rs) := by
      rw [operandText, trimSpaces_space_cons]
      exact trimSpaces_of_ends (by simp [joinOperands_head]) (joinOperands_getLast r rs)
    rw [readOperands, htrim, if_neg (joinOperands_ne_nil r rs), operandText, splitCommas_joinOperands, mapM_readReg]

/-! ### The mnemonic -/

/-- The mnemonic of a row of the opcode map (30 R155, R170). -/
def rowMnemonic (r : Row) : List Char := mnemonicOf (buildInstr r.op 0 0 0 0)

/-- The mnemonics of the opcode map are words in upper case, without a space or a semicolon (30 R170). -/
theorem rowMnemonic_upperCaseWord : ∀ r ∈ opcodeMap, rowMnemonic r ≠ [] ∧ ' ' ∉ rowMnemonic r ∧
    ';' ∉ rowMnemonic r ∧ (rowMnemonic r).map Char.toUpper = rowMnemonic r := by
  decide

/-- A mnemonic finds the row from which the command is built with its own operands (30 R155, R170). -/
theorem find_row_of_mnemonic (i : Instr) : ∃ r, opcodeMap.find? (fun r => rowMnemonic r == mnemonicOf i) = some r ∧
    asmBuild r.op (asmOperands i) = some i := by
  cases i <;> exact ⟨_, rfl, rfl⟩

/-- The mnemonic of a command is that of its row, so a word in upper case (30 R170). -/
theorem mnemonicOf_upperCaseWord (i : Instr) : mnemonicOf i ≠ [] ∧ ' ' ∉ mnemonicOf i ∧ ';' ∉ mnemonicOf i ∧
    (mnemonicOf i).map Char.toUpper = mnemonicOf i := by
  obtain ⟨r, hfind, -⟩ := find_row_of_mnemonic i
  have hname : rowMnemonic r = mnemonicOf i := by simpa using List.find?_some hfind
  rw [← hname]
  exact rowMnemonic_upperCaseWord r (List.mem_of_find?_eq_some hfind)

/-! ### The line -/

/-- A command is written as its mnemonic and the text of its operands (30 R170). -/
theorem writeAsm_eq (i : Instr) : writeAsm i = mnemonicOf i ++ operandText (asmOperands i) := by
  cases hops : asmOperands i with
  | nil => simp [writeAsm, hops, operandText]
  | cons r rs => simp [writeAsm, hops, operandText]

/-- A character that is not in a text differs from each of its characters. -/
theorem bne_of_notMem {x : Char} {t : List Char} (h : x ∉ t) : ∀ c ∈ t, (c != x) = true :=
  fun _ hc => bne_iff_ne.mpr (ne_of_mem_of_not_mem hc h)

section
variable {name : List Char} (hspace : ' ' ∉ name) (ops : List WReg)
include hspace

/-- The first word of a line is what stands before the operands. -/
theorem takeWhile_name : (name ++ operandText ops).takeWhile (fun c => c != ' ') = name := by
  rw [List.takeWhile_append_of_pos (bne_of_notMem hspace)]
  cases ops <;> simp [operandText]

/-- What follows the first word of a line is the text of the operands. -/
theorem dropWhile_name : (name ++ operandText ops).dropWhile (fun c => c != ' ') = operandText ops := by
  rw [List.dropWhile_append_of_pos (bne_of_notMem hspace)]
  cases ops <;> simp [operandText]

/-- A line of a name and operands has no space at its ends. -/
theorem trimSpaces_line (hne : name ≠ []) : trimSpaces (name ++ operandText ops) = name ++ operandText ops := by
  have hends : ∀ c ∈ name, some c ≠ some ' ' := fun c hc => by simpa using ne_of_mem_of_not_mem hc hspace
  apply trimSpaces_of_ends
  · rw [List.head?_append_of_ne_nil _ hne, List.head?_eq_some_head hne]
    exact hends _ (List.head_mem hne)
  · cases ops with
    | nil =>
      rw [operandText, List.append_nil, List.getLast?_eq_some_getLast hne]
      exact hends _ (List.getLast_mem hne)
    | cons r rs =>
      rw [operandText, List.append_cons, List.getLast?_append_of_ne_nil _ (joinOperands_ne_nil r rs)]
      exact joinOperands_getLast r rs

end

/-- A line without a semicolon in its name holds no comment (30 R170). -/
theorem stripComment_line {name : List Char} (hname : ';' ∉ name) (ops : List WReg) :
    stripComment (name ++ operandText ops) = name ++ operandText ops := by
  have hops : ';' ∉ operandText ops := by
    cases ops with
    | nil => exact List.not_mem_nil
    | cons r rs => simp [operandText, semicolon_notMem_joinOperands]
  have hline : ';' ∉ name ++ operandText ops := by simp [hname, hops]
  exact List.takeWhile_eq_self_iff.mpr (bne_of_notMem hline)

/-- Settles O6: the line has neither comment nor outer spaces, its first word finds the row, and the rest are the
operands. -/
theorem assemblerFormReadsBack : Obligations.AssemblerFormReadsBack := by
  intro i hwf
  obtain ⟨hne, hspace, hsemicolon, hupper⟩ := mnemonicOf_upperCaseWord i
  obtain ⟨r, hfind, hbuild⟩ := find_row_of_mnemonic i
  have hrow : opcodeMap.find? (fun r => mnemonicOf (buildInstr r.op 0 0 0 0) == mnemonicOf i) = some r := hfind
  rw [readAsm, writeAsm_eq, stripComment_line hsemicolon, trimSpaces_line hspace _ hne]
  simp only [takeWhile_name hspace, dropWhile_name hspace, hupper, hrow, readOperands_operandText, hbuild]
  exact Option.filter_eq_some_iff.mpr ⟨rfl, hwf⟩

end Sys2Proof.Machine
